-- ==== Sys2Proof/Word.lean ====
section
/-! DEFINITION. The machine word, the byte, and the addresses of words (spec/00_scope.md R5, R6). -/

namespace Sys2Proof

/-- A register, an address, an instruction or a data word: 32 bits (R5). -/
abbrev Word := BitVec 32

/-- A byte: 8 bits (R5). -/
abbrev Byte := BitVec 8

end Sys2Proof
end

