-- ==== Sys2Proof/Syntax.lean ====
section
/-! DEFINITION. The instructions as syntax: one constructor of `Instr` per row of spec/opcode_table.json
(mnemonic and format), with the fields the instruction uses. A field that the spec says an instruction ignores
(R64: bits 15:12 of MUL, Rn of MOV and MVN, Rd of the compares) is no part of the syntax. `Shape` groups the
rows by family, as the common templates R113 and R185 do; `Instr.shape` and `Shape.instr` go between the two. -/

namespace Sys2Proof

/-- A register number, the value of a 4-bit register field (R10). -/
abbrev Reg := Fin 16

/-- R15, the program counter (R11). -/
abbrev pcReg : Reg := 15

/-- R14, the link register LR (R11). -/
abbrev linkReg : Reg := 14

/-- R0, the one register the SWI services work on (R161). -/
abbrev r0 : Reg := 0

/-- The fifteen usable conditions (R82); code 1111 is no condition (R84). CS is also written HS, CC also LO (R85). -/
inductive Cond where
  | eq | ne | cs | cc | mi | pl | vs | vc | hi | ls | ge | lt | gt | le | al
  deriving DecidableEq, Repr

/-- The two-bit field `Sh` (R100); ROR by an immediate length of zero is RRX (R103). -/
inductive ShiftType where
  | lsl | lsr | asr | ror
  deriving DecidableEq, Repr

/-- Operand 2 of a data processing instruction (R100), in its three forms. -/
inductive Operand2 where
  /-- R53, R101: an 8-bit immediate rotated right by twice `rot`. -/
  | imm (rot : BitVec 4) (imm8 : BitVec 8)
  /-- R54, R102, R103: register `rm` shifted by the immediate length `n` (`shift5`). -/
  | shiftImm (rm : Reg) (sh : ShiftType) (n : BitVec 5)
  /-- R55, R104, R105: register `rm` shifted by the bottom byte of register `rs`. -/
  | shiftReg (rm : Reg) (sh : ShiftType) (rs : Reg)
  deriving DecidableEq, Repr

/-- The offset of a load or store (R180), in its two forms. -/
inductive Offset where
  /-- R57, R181: an unsigned 12-bit immediate. -/
  | imm (imm12 : BitVec 12)
  /-- R58, R182: register `rm` shifted by the immediate length `n`. -/
  | reg (rm : Reg) (sh : ShiftType) (n : BitVec 5)
  deriving DecidableEq, Repr

/-- The three addressing modes of R184. The fourth setting of the bits P and W (P = 0, W = 1) is refused at
decode (R186) and is no syntax. -/
inductive Indexing where
  /-- P = 1, W = 0. -/
  | offset
  /-- P = 1, W = 1. -/
  | preWriteback
  /-- P = 0, W = 0. -/
  | postIndexed
  deriving DecidableEq, Repr

/-- Whether the addressing mode writes the base register (R184). -/
def Indexing.writesBase : Indexing → Bool
  | .offset => false
  | .preWriteback => true
  | .postIndexed => true

/-- The data processing instructions with operands Rd, Rn and Op2 (R112). -/
inductive WriteOp where
  | and | eor | sub | rsb | add | adc | sbc | rsc | orr | bic
  deriving DecidableEq, Repr

/-- The data processing instructions with operands Rd and Op2 (R112). -/
inductive MoveOp where
  | mov | mvn
  deriving DecidableEq, Repr

/-- The data processing instructions with operands Rn and Op2, which only set the flags (R112, R114). -/
inductive TestOp where
  | tst | teq | cmp | cmn
  deriving DecidableEq, Repr

/-- The loads and stores (R180). -/
inductive TransferOp where
  | ldr | ldrb | str | strb
  deriving DecidableEq, Repr

/-- The branches (R150). -/
inductive BranchOp where
  | b | bl
  deriving DecidableEq, Repr

/-- The instructions, one constructor per row of spec/opcode_table.json. In every constructor `c` is the condition
(R80), `sb` the S bit, `up` the U bit (R183), `ix` the addressing mode (R184). -/
inductive Instr where
  | andImm (c : Cond) (sb : Bool) (rn rd : Reg) (rot : BitVec 4) (imm8 : BitVec 8)
  | andShiftImm (c : Cond) (sb : Bool) (rn rd : Reg) (rm : Reg) (sh : ShiftType) (n : BitVec 5)
  | andShiftReg (c : Cond) (sb : Bool) (rn rd : Reg) (rm : Reg) (sh : ShiftType) (rs : Reg)
  | eorImm (c : Cond) (sb : Bool) (rn rd : Reg) (rot : BitVec 4) (imm8 : BitVec 8)
  | eorShiftImm (c : Cond) (sb : Bool) (rn rd : Reg) (rm : Reg) (sh : ShiftType) (n : BitVec 5)
  | eorShiftReg (c : Cond) (sb : Bool) (rn rd : Reg) (rm : Reg) (sh : ShiftType) (rs : Reg)
  | subImm (c : Cond) (sb : Bool) (rn rd : Reg) (rot : BitVec 4) (imm8 : BitVec 8)
  | subShiftImm (c : Cond) (sb : Bool) (rn rd : Reg) (rm : Reg) (sh : ShiftType) (n : BitVec 5)
  | subShiftReg (c : Cond) (sb : Bool) (rn rd : Reg) (rm : Reg) (sh : ShiftType) (rs : Reg)
  | rsbImm (c : Cond) (sb : Bool) (rn rd : Reg) (rot : BitVec 4) (imm8 : BitVec 8)
  | rsbShiftImm (c : Cond) (sb : Bool) (rn rd : Reg) (rm : Reg) (sh : ShiftType) (n : BitVec 5)
  | rsbShiftReg (c : Cond) (sb : Bool) (rn rd : Reg) (rm : Reg) (sh : ShiftType) (rs : Reg)
  | addImm (c : Cond) (sb : Bool) (rn rd : Reg) (rot : BitVec 4) (imm8 : BitVec 8)
  | addShiftImm (c : Cond) (sb : Bool) (rn rd : Reg) (rm : Reg) (sh : ShiftType) (n : BitVec 5)
  | addShiftReg (c : Cond) (sb : Bool) (rn rd : Reg) (rm : Reg) (sh : ShiftType) (rs : Reg)
  | adcImm (c : Cond) (sb : Bool) (rn rd : Reg) (rot : BitVec 4) (imm8 : BitVec 8)
  | adcShiftImm (c : Cond) (sb : Bool) (rn rd : Reg) (rm : Reg) (sh : ShiftType) (n : BitVec 5)
  | adcShiftReg (c : Cond) (sb : Bool) (rn rd : Reg) (rm : Reg) (sh : ShiftType) (rs : Reg)
  | sbcImm (c : Cond) (sb : Bool) (rn rd : Reg) (rot : BitVec 4) (imm8 : BitVec 8)
  | sbcShiftImm (c : Cond) (sb : Bool) (rn rd : Reg) (rm : Reg) (sh : ShiftType) (n : BitVec 5)
  | sbcShiftReg (c : Cond) (sb : Bool) (rn rd : Reg) (rm : Reg) (sh : ShiftType) (rs : Reg)
  | rscImm (c : Cond) (sb : Bool) (rn rd : Reg) (rot : BitVec 4) (imm8 : BitVec 8)
  | rscShiftImm (c : Cond) (sb : Bool) (rn rd : Reg) (rm : Reg) (sh : ShiftType) (n : BitVec 5)
  | rscShiftReg (c : Cond) (sb : Bool) (rn rd : Reg) (rm : Reg) (sh : ShiftType) (rs : Reg)
  | tstImm (c : Cond) (rn : Reg) (rot : BitVec 4) (imm8 : BitVec 8)
  | tstShiftImm (c : Cond) (rn : Reg) (rm : Reg) (sh : ShiftType) (n : BitVec 5)
  | tstShiftReg (c : Cond) (rn : Reg) (rm : Reg) (sh : ShiftType) (rs : Reg)
  | teqImm (c : Cond) (rn : Reg) (rot : BitVec 4) (imm8 : BitVec 8)
  | teqShiftImm (c : Cond) (rn : Reg) (rm : Reg) (sh : ShiftType) (n : BitVec 5)
  | teqShiftReg (c : Cond) (rn : Reg) (rm : Reg) (sh : ShiftType) (rs : Reg)
  | cmpImm (c : Cond) (rn : Reg) (rot : BitVec 4) (imm8 : BitVec 8)
  | cmpShiftImm (c : Cond) (rn : Reg) (rm : Reg) (sh : ShiftType) (n : BitVec 5)
  | cmpShiftReg (c : Cond) (rn : Reg) (rm : Reg) (sh : ShiftType) (rs : Reg)
  | cmnImm (c : Cond) (rn : Reg) (rot : BitVec 4) (imm8 : BitVec 8)
  | cmnShiftImm (c : Cond) (rn : Reg) (rm : Reg) (sh : ShiftType) (n : BitVec 5)
  | cmnShiftReg (c : Cond) (rn : Reg) (rm : Reg) (sh : ShiftType) (rs : Reg)
  | orrImm (c : Cond) (sb : Bool) (rn rd : Reg) (rot : BitVec 4) (imm8 : BitVec 8)
  | orrShiftImm (c : Cond) (sb : Bool) (rn rd : Reg) (rm : Reg) (sh : ShiftType) (n : BitVec 5)
  | orrShiftReg (c : Cond) (sb : Bool) (rn rd : Reg) (rm : Reg) (sh : ShiftType) (rs : Reg)
  | movImm (c : Cond) (sb : Bool) (rd : Reg) (rot : BitVec 4) (imm8 : BitVec 8)
  | movShiftImm (c : Cond) (sb : Bool) (rd : Reg) (rm : Reg) (sh : ShiftType) (n : BitVec 5)
  | movShiftReg (c : Cond) (sb : Bool) (rd : Reg) (rm : Reg) (sh : ShiftType) (rs : Reg)
  | bicImm (c : Cond) (sb : Bool) (rn rd : Reg) (rot : BitVec 4) (imm8 : BitVec 8)
  | bicShiftImm (c : Cond) (sb : Bool) (rn rd : Reg) (rm : Reg) (sh : ShiftType) (n : BitVec 5)
  | bicShiftReg (c : Cond) (sb : Bool) (rn rd : Reg) (rm : Reg) (sh : ShiftType) (rs : Reg)
  | mvnImm (c : Cond) (sb : Bool) (rd : Reg) (rot : BitVec 4) (imm8 : BitVec 8)
  | mvnShiftImm (c : Cond) (sb : Bool) (rd : Reg) (rm : Reg) (sh : ShiftType) (n : BitVec 5)
  | mvnShiftReg (c : Cond) (sb : Bool) (rd : Reg) (rm : Reg) (sh : ShiftType) (rs : Reg)
  | mul (c : Cond) (sb : Bool) (rd rs rm : Reg)
  | mla (c : Cond) (sb : Bool) (rd rn rs rm : Reg)
  | ldrImm (c : Cond) (ix : Indexing) (up : Bool) (rn rd : Reg) (imm12 : BitVec 12)
  | ldrReg (c : Cond) (ix : Indexing) (up : Bool) (rn rd : Reg) (rm : Reg) (sh : ShiftType) (n : BitVec 5)
  | ldrbImm (c : Cond) (ix : Indexing) (up : Bool) (rn rd : Reg) (imm12 : BitVec 12)
  | ldrbReg (c : Cond) (ix : Indexing) (up : Bool) (rn rd : Reg) (rm : Reg) (sh : ShiftType) (n : BitVec 5)
  | strImm (c : Cond) (ix : Indexing) (up : Bool) (rn rd : Reg) (imm12 : BitVec 12)
  | strReg (c : Cond) (ix : Indexing) (up : Bool) (rn rd : Reg) (rm : Reg) (sh : ShiftType) (n : BitVec 5)
  | strbImm (c : Cond) (ix : Indexing) (up : Bool) (rn rd : Reg) (imm12 : BitVec 12)
  | strbReg (c : Cond) (ix : Indexing) (up : Bool) (rn rd : Reg) (rm : Reg) (sh : ShiftType) (n : BitVec 5)
  | b (c : Cond) (off : BitVec 24)
  | bl (c : Cond) (off : BitVec 24)
  | swi (c : Cond) (imm24 : BitVec 24)
  deriving DecidableEq, Repr

/-- An instruction seen by family: the operation and the operands, as the templates R113 and R185 take them. -/
inductive Shape where
  | write (op : WriteOp) (c : Cond) (sb : Bool) (rn rd : Reg) (o2 : Operand2)
  | move (op : MoveOp) (c : Cond) (sb : Bool) (rd : Reg) (o2 : Operand2)
  | test (op : TestOp) (c : Cond) (rn : Reg) (o2 : Operand2)
  | mul (c : Cond) (sb : Bool) (rd rs rm : Reg)
  | mla (c : Cond) (sb : Bool) (rd rn rs rm : Reg)
  | transfer (op : TransferOp) (c : Cond) (ix : Indexing) (up : Bool) (rn rd : Reg) (off : Offset)
  | branch (op : BranchOp) (c : Cond) (off : BitVec 24)
  | swi (c : Cond) (imm24 : BitVec 24)
  deriving DecidableEq, Repr

/-- The family of an instruction, and its operands. -/
def Instr.shape : Instr → Shape
  | .andImm c sb rn rd rot imm8 => .write .and c sb rn rd (.imm rot imm8)
  | .andShiftImm c sb rn rd rm sh n => .write .and c sb rn rd (.shiftImm rm sh n)
  | .andShiftReg c sb rn rd rm sh rs => .write .and c sb rn rd (.shiftReg rm sh rs)
  | .eorImm c sb rn rd rot imm8 => .write .eor c sb rn rd (.imm rot imm8)
  | .eorShiftImm c sb rn rd rm sh n => .write .eor c sb rn rd (.shiftImm rm sh n)
  | .eorShiftReg c sb rn rd rm sh rs => .write .eor c sb rn rd (.shiftReg rm sh rs)
  | .subImm c sb rn rd rot imm8 => .write .sub c sb rn rd (.imm rot imm8)
  | .subShiftImm c sb rn rd rm sh n => .write .sub c sb rn rd (.shiftImm rm sh n)
  | .subShiftReg c sb rn rd rm sh rs => .write .sub c sb rn rd (.shiftReg rm sh rs)
  | .rsbImm c sb rn rd rot imm8 => .write .rsb c sb rn rd (.imm rot imm8)
  | .rsbShiftImm c sb rn rd rm sh n => .write .rsb c sb rn rd (.shiftImm rm sh n)
  | .rsbShiftReg c sb rn rd rm sh rs => .write .rsb c sb rn rd (.shiftReg rm sh rs)
  | .addImm c sb rn rd rot imm8 => .write .add c sb rn rd (.imm rot imm8)
  | .addShiftImm c sb rn rd rm sh n => .write .add c sb rn rd (.shiftImm rm sh n)
  | .addShiftReg c sb rn rd rm sh rs => .write .add c sb rn rd (.shiftReg rm sh rs)
  | .adcImm c sb rn rd rot imm8 => .write .adc c sb rn rd (.imm rot imm8)
  | .adcShiftImm c sb rn rd rm sh n => .write .adc c sb rn rd (.shiftImm rm sh n)
  | .adcShiftReg c sb rn rd rm sh rs => .write .adc c sb rn rd (.shiftReg rm sh rs)
  | .sbcImm c sb rn rd rot imm8 => .write .sbc c sb rn rd (.imm rot imm8)
  | .sbcShiftImm c sb rn rd rm sh n => .write .sbc c sb rn rd (.shiftImm rm sh n)
  | .sbcShiftReg c sb rn rd rm sh rs => .write .sbc c sb rn rd (.shiftReg rm sh rs)
  | .rscImm c sb rn rd rot imm8 => .write .rsc c sb rn rd (.imm rot imm8)
  | .rscShiftImm c sb rn rd rm sh n => .write .rsc c sb rn rd (.shiftImm rm sh n)
  | .rscShiftReg c sb rn rd rm sh rs => .write .rsc c sb rn rd (.shiftReg rm sh rs)
  | .tstImm c rn rot imm8 => .test .tst c rn (.imm rot imm8)
  | .tstShiftImm c rn rm sh n => .test .tst c rn (.shiftImm rm sh n)
  | .tstShiftReg c rn rm sh rs => .test .tst c rn (.shiftReg rm sh rs)
  | .teqImm c rn rot imm8 => .test .teq c rn (.imm rot imm8)
  | .teqShiftImm c rn rm sh n => .test .teq c rn (.shiftImm rm sh n)
  | .teqShiftReg c rn rm sh rs => .test .teq c rn (.shiftReg rm sh rs)
  | .cmpImm c rn rot imm8 => .test .cmp c rn (.imm rot imm8)
  | .cmpShiftImm c rn rm sh n => .test .cmp c rn (.shiftImm rm sh n)
  | .cmpShiftReg c rn rm sh rs => .test .cmp c rn (.shiftReg rm sh rs)
  | .cmnImm c rn rot imm8 => .test .cmn c rn (.imm rot imm8)
  | .cmnShiftImm c rn rm sh n => .test .cmn c rn (.shiftImm rm sh n)
  | .cmnShiftReg c rn rm sh rs => .test .cmn c rn (.shiftReg rm sh rs)
  | .orrImm c sb rn rd rot imm8 => .write .orr c sb rn rd (.imm rot imm8)
  | .orrShiftImm c sb rn rd rm sh n => .write .orr c sb rn rd (.shiftImm rm sh n)
  | .orrShiftReg c sb rn rd rm sh rs => .write .orr c sb rn rd (.shiftReg rm sh rs)
  | .movImm c sb rd rot imm8 => .move .mov c sb rd (.imm rot imm8)
  | .movShiftImm c sb rd rm sh n => .move .mov c sb rd (.shiftImm rm sh n)
  | .movShiftReg c sb rd rm sh rs => .move .mov c sb rd (.shiftReg rm sh rs)
  | .bicImm c sb rn rd rot imm8 => .write .bic c sb rn rd (.imm rot imm8)
  | .bicShiftImm c sb rn rd rm sh n => .write .bic c sb rn rd (.shiftImm rm sh n)
  | .bicShiftReg c sb rn rd rm sh rs => .write .bic c sb rn rd (.shiftReg rm sh rs)
  | .mvnImm c sb rd rot imm8 => .move .mvn c sb rd (.imm rot imm8)
  | .mvnShiftImm c sb rd rm sh n => .move .mvn c sb rd (.shiftImm rm sh n)
  | .mvnShiftReg c sb rd rm sh rs => .move .mvn c sb rd (.shiftReg rm sh rs)
  | .mul c sb rd rs rm => .mul c sb rd rs rm
  | .mla c sb rd rn rs rm => .mla c sb rd rn rs rm
  | .ldrImm c ix up rn rd imm12 => .transfer .ldr c ix up rn rd (.imm imm12)
  | .ldrReg c ix up rn rd rm sh n => .transfer .ldr c ix up rn rd (.reg rm sh n)
  | .ldrbImm c ix up rn rd imm12 => .transfer .ldrb c ix up rn rd (.imm imm12)
  | .ldrbReg c ix up rn rd rm sh n => .transfer .ldrb c ix up rn rd (.reg rm sh n)
  | .strImm c ix up rn rd imm12 => .transfer .str c ix up rn rd (.imm imm12)
  | .strReg c ix up rn rd rm sh n => .transfer .str c ix up rn rd (.reg rm sh n)
  | .strbImm c ix up rn rd imm12 => .transfer .strb c ix up rn rd (.imm imm12)
  | .strbReg c ix up rn rd rm sh n => .transfer .strb c ix up rn rd (.reg rm sh n)
  | .b c off => .branch .b c off
  | .bl c off => .branch .bl c off
  | .swi c imm24 => .swi c imm24

/-- The instruction of a family, an operation and operands. -/
def Shape.instr : Shape → Instr
  | .write .and c sb rn rd (.imm rot imm8) => .andImm c sb rn rd rot imm8
  | .write .and c sb rn rd (.shiftImm rm sh n) => .andShiftImm c sb rn rd rm sh n
  | .write .and c sb rn rd (.shiftReg rm sh rs) => .andShiftReg c sb rn rd rm sh rs
  | .write .eor c sb rn rd (.imm rot imm8) => .eorImm c sb rn rd rot imm8
  | .write .eor c sb rn rd (.shiftImm rm sh n) => .eorShiftImm c sb rn rd rm sh n
  | .write .eor c sb rn rd (.shiftReg rm sh rs) => .eorShiftReg c sb rn rd rm sh rs
  | .write .sub c sb rn rd (.imm rot imm8) => .subImm c sb rn rd rot imm8
  | .write .sub c sb rn rd (.shiftImm rm sh n) => .subShiftImm c sb rn rd rm sh n
  | .write .sub c sb rn rd (.shiftReg rm sh rs) => .subShiftReg c sb rn rd rm sh rs
  | .write .rsb c sb rn rd (.imm rot imm8) => .rsbImm c sb rn rd rot imm8
  | .write .rsb c sb rn rd (.shiftImm rm sh n) => .rsbShiftImm c sb rn rd rm sh n
  | .write .rsb c sb rn rd (.shiftReg rm sh rs) => .rsbShiftReg c sb rn rd rm sh rs
  | .write .add c sb rn rd (.imm rot imm8) => .addImm c sb rn rd rot imm8
  | .write .add c sb rn rd (.shiftImm rm sh n) => .addShiftImm c sb rn rd rm sh n
  | .write .add c sb rn rd (.shiftReg rm sh rs) => .addShiftReg c sb rn rd rm sh rs
  | .write .adc c sb rn rd (.imm rot imm8) => .adcImm c sb rn rd rot imm8
  | .write .adc c sb rn rd (.shiftImm rm sh n) => .adcShiftImm c sb rn rd rm sh n
  | .write .adc c sb rn rd (.shiftReg rm sh rs) => .adcShiftReg c sb rn rd rm sh rs
  | .write .sbc c sb rn rd (.imm rot imm8) => .sbcImm c sb rn rd rot imm8
  | .write .sbc c sb rn rd (.shiftImm rm sh n) => .sbcShiftImm c sb rn rd rm sh n
  | .write .sbc c sb rn rd (.shiftReg rm sh rs) => .sbcShiftReg c sb rn rd rm sh rs
  | .write .rsc c sb rn rd (.imm rot imm8) => .rscImm c sb rn rd rot imm8
  | .write .rsc c sb rn rd (.shiftImm rm sh n) => .rscShiftImm c sb rn rd rm sh n
  | .write .rsc c sb rn rd (.shiftReg rm sh rs) => .rscShiftReg c sb rn rd rm sh rs
  | .test .tst c rn (.imm rot imm8) => .tstImm c rn rot imm8
  | .test .tst c rn (.shiftImm rm sh n) => .tstShiftImm c rn rm sh n
  | .test .tst c rn (.shiftReg rm sh rs) => .tstShiftReg c rn rm sh rs
  | .test .teq c rn (.imm rot imm8) => .teqImm c rn rot imm8
  | .test .teq c rn (.shiftImm rm sh n) => .teqShiftImm c rn rm sh n
  | .test .teq c rn (.shiftReg rm sh rs) => .teqShiftReg c rn rm sh rs
  | .test .cmp c rn (.imm rot imm8) => .cmpImm c rn rot imm8
  | .test .cmp c rn (.shiftImm rm sh n) => .cmpShiftImm c rn rm sh n
  | .test .cmp c rn (.shiftReg rm sh rs) => .cmpShiftReg c rn rm sh rs
  | .test .cmn c rn (.imm rot imm8) => .cmnImm c rn rot imm8
  | .test .cmn c rn (.shiftImm rm sh n) => .cmnShiftImm c rn rm sh n
  | .test .cmn c rn (.shiftReg rm sh rs) => .cmnShiftReg c rn rm sh rs
  | .write .orr c sb rn rd (.imm rot imm8) => .orrImm c sb rn rd rot imm8
  | .write .orr c sb rn rd (.shiftImm rm sh n) => .orrShiftImm c sb rn rd rm sh n
  | .write .orr c sb rn rd (.shiftReg rm sh rs) => .orrShiftReg c sb rn rd rm sh rs
  | .move .mov c sb rd (.imm rot imm8) => .movImm c sb rd rot imm8
  | .move .mov c sb rd (.shiftImm rm sh n) => .movShiftImm c sb rd rm sh n
  | .move .mov c sb rd (.shiftReg rm sh rs) => .movShiftReg c sb rd rm sh rs
  | .write .bic c sb rn rd (.imm rot imm8) => .bicImm c sb rn rd rot imm8
  | .write .bic c sb rn rd (.shiftImm rm sh n) => .bicShiftImm c sb rn rd rm sh n
  | .write .bic c sb rn rd (.shiftReg rm sh rs) => .bicShiftReg c sb rn rd rm sh rs
  | .move .mvn c sb rd (.imm rot imm8) => .mvnImm c sb rd rot imm8
  | .move .mvn c sb rd (.shiftImm rm sh n) => .mvnShiftImm c sb rd rm sh n
  | .move .mvn c sb rd (.shiftReg rm sh rs) => .mvnShiftReg c sb rd rm sh rs
  | .mul c sb rd rs rm => .mul c sb rd rs rm
  | .mla c sb rd rn rs rm => .mla c sb rd rn rs rm
  | .transfer .ldr c ix up rn rd (.imm imm12) => .ldrImm c ix up rn rd imm12
  | .transfer .ldr c ix up rn rd (.reg rm sh n) => .ldrReg c ix up rn rd rm sh n
  | .transfer .ldrb c ix up rn rd (.imm imm12) => .ldrbImm c ix up rn rd imm12
  | .transfer .ldrb c ix up rn rd (.reg rm sh n) => .ldrbReg c ix up rn rd rm sh n
  | .transfer .str c ix up rn rd (.imm imm12) => .strImm c ix up rn rd imm12
  | .transfer .str c ix up rn rd (.reg rm sh n) => .strReg c ix up rn rd rm sh n
  | .transfer .strb c ix up rn rd (.imm imm12) => .strbImm c ix up rn rd imm12
  | .transfer .strb c ix up rn rd (.reg rm sh n) => .strbReg c ix up rn rd rm sh n
  | .branch .b c off => .b c off
  | .branch .bl c off => .bl c off
  | .swi c imm24 => .swi c imm24

/-- The condition of an instruction (R80: every instruction has one). -/
def Shape.cond : Shape → Cond
  | .write _ c _ _ _ _ => c
  | .move _ c _ _ _ => c
  | .test _ c _ _ => c
  | .mul c _ _ _ _ => c
  | .mla c _ _ _ _ _ => c
  | .transfer _ c _ _ _ _ _ => c
  | .branch _ c _ => c
  | .swi c _ => c

/-- The condition of an instruction (R80). -/
def Instr.cond (i : Instr) : Cond := i.shape.cond

end Sys2Proof
end

