-- ==== Sys2Proof/WellFormed.lean ====
section
/-! DEFINITION. The static refusals (R62 step 4, R222): the combinations of fields to which the spec gives no
meaning, found from the instruction alone. An instruction is well formed when none applies. -/

namespace Sys2Proof

/-- The reasons of R222 that a family's file gives for refusing a combination of fields at decode. -/
inductive StaticRefusal where
  /-- R108: R15 in a register field of a data processing instruction with a register shift length. -/
  | r15InRegShiftForm
  /-- R109: Rd = 15 with S = 1. -/
  | r15DestWithS
  /-- R188: Rn = 15 with write-back; Rm = 15; Rd = 15 in LDRB, STR, STRB. -/
  | r15InLoadStore
  /-- R187: write-back with Rd = Rn, or with Rm = Rn. -/
  | writebackRegisterClash
  /-- R212: R15 in a used field of a multiply, or Rd = Rm. -/
  | multiplyRegister
  deriving DecidableEq, Repr

/-- Whether operand 2 is a register shifted by a register and names R15 (R108). -/
def Operand2.regShiftNamesPc : Operand2 → Bool
  | .imm _ _ => false
  | .shiftImm _ _ _ => false
  | .shiftReg rm _ rs => rm == pcReg || rs == pcReg

/-- Whether operand 2 is a register shifted by a register (R55). -/
def Operand2.isRegShift : Operand2 → Bool
  | .imm _ _ => false
  | .shiftImm _ _ _ => false
  | .shiftReg _ _ _ => true

/-- Whether the offset names R15 as Rm (R188). -/
def Offset.namesPc : Offset → Bool
  | .imm _ => false
  | .reg rm _ _ => rm == pcReg

/-- Whether the offset is a shifted register and that register is `r` (R187). -/
def Offset.isRegister (r : Reg) : Offset → Bool
  | .imm _ => false
  | .reg rm _ _ => rm == r

/-- Only LDR may have Rd = 15 (R188). -/
def TransferOp.mayTargetPc : TransferOp → Bool
  | .ldr => true
  | .ldrb => false
  | .str => false
  | .strb => false

/-- R108, R109 for AND, EOR, SUB, RSB, ADD, ADC, SBC, RSC, ORR, BIC, in the order of R222. -/
def writeRefusal (sb : Bool) (rn rd : Reg) (o2 : Operand2) : Option StaticRefusal :=
  if o2.regShiftNamesPc || (o2.isRegShift && (rn == pcReg || rd == pcReg)) then some .r15InRegShiftForm
  else if sb && rd == pcReg then some .r15DestWithS
  else none

/-- R108, R109 for MOV and MVN. -/
def moveRefusal (sb : Bool) (rd : Reg) (o2 : Operand2) : Option StaticRefusal :=
  if o2.regShiftNamesPc || (o2.isRegShift && rd == pcReg) then some .r15InRegShiftForm
  else if sb && rd == pcReg then some .r15DestWithS
  else none

/-- R108 for TST, TEQ, CMP, CMN. -/
def testRefusal (rn : Reg) (o2 : Operand2) : Option StaticRefusal :=
  if o2.regShiftNamesPc || (o2.isRegShift && rn == pcReg) then some .r15InRegShiftForm
  else none

/-- R212 for MUL. -/
def mulRefusal (rd rs rm : Reg) : Option StaticRefusal :=
  if rd == pcReg || rs == pcReg || rm == pcReg || rd == rm then some .multiplyRegister
  else none

/-- R212 for MLA. -/
def mlaRefusal (rd rn rs rm : Reg) : Option StaticRefusal :=
  if rd == pcReg || rn == pcReg || rs == pcReg || rm == pcReg || rd == rm then some .multiplyRegister
  else none

/-- R187, R188 for LDR, LDRB, STR, STRB, in the order of R222. -/
def transferRefusal (op : TransferOp) (ix : Indexing) (rn rd : Reg) (off : Offset) : Option StaticRefusal :=
  if (ix.writesBase && rn == pcReg) || off.namesPc || (!op.mayTargetPc && rd == pcReg) then some .r15InLoadStore
  else if ix.writesBase && (rd == rn || off.isRegister rn) then some .writebackRegisterClash
  else none

/-- The static refusal of an instruction, if one applies (R222). -/
def Shape.staticRefusal : Shape → Option StaticRefusal
  | .write _ _ sb rn rd o2 => writeRefusal sb rn rd o2
  | .move _ _ sb rd o2 => moveRefusal sb rd o2
  | .test _ _ rn o2 => testRefusal rn o2
  | .mul _ _ rd rs rm => mulRefusal rd rs rm
  | .mla _ _ rd rn rs rm => mlaRefusal rd rn rs rm
  | .transfer op _ ix _ rn rd off => transferRefusal op ix rn rd off
  | .branch _ _ _ => none
  | .swi _ _ => none

/-- The static refusal of an instruction, if one applies (R222). -/
def Instr.staticRefusal (i : Instr) : Option StaticRefusal := i.shape.staticRefusal

/-- An instruction to which the spec gives a meaning: no static refusal applies. -/
abbrev WellFormed (i : Instr) : Prop := i.staticRefusal = none

end Sys2Proof
end

