-- ==== Sys2Proof/Decode.lean ====
section
/-! DEFINITION. The bit fields of an instruction word, the decoder (spec/30_encoding.md R50 to R64), the encoder
(which writes the fields an instruction has; Machine/Assembler.lean makes the choices of R69 that a line leaves), and
the opcode table's masks and patterns. Decoding depends on no state (R62) and is total: every word is an instruction
or is refused by name. -/

namespace Sys2Proof

/-! ### Bit fields -/

/-- The register number in bits `lo+3 : lo` of a word (R10). -/
def regField (w : Word) (lo : Nat) : Reg := ⟨(w.extractLsb' lo 4).toNat, (w.extractLsb' lo 4).isLt⟩

/-- Bit `i` of a word (R6). -/
def bitField (w : Word) (i : Nat) : Bool := w.getLsbD i

/-- The word whose fields, from bit 31 down, are the given (width, value) pairs: each row of the layouts of
R53 to R60 is written out as such a list. -/
def pack (fields : List (Nat × Nat)) : Word :=
  BitVec.ofNat 32 (fields.foldl (fun acc f => acc * 2 ^ f.1 + f.2) 0)

/-! ### The codes of the enumerated fields -/

/-- Bits 31:28 for a condition (R82). -/
def Cond.bits : Cond → BitVec 4
  | .eq => 0x0#4 | .ne => 0x1#4 | .cs => 0x2#4 | .cc => 0x3#4
  | .mi => 0x4#4 | .pl => 0x5#4 | .vs => 0x6#4 | .vc => 0x7#4
  | .hi => 0x8#4 | .ls => 0x9#4 | .ge => 0xA#4 | .lt => 0xB#4
  | .gt => 0xC#4 | .le => 0xD#4 | .al => 0xE#4

/-- The condition of a 4-bit code; 1111 is none (R82, R84). -/
def Cond.ofBits (b : BitVec 4) : Option Cond :=
  match b.toNat with
  | 0 => some .eq | 1 => some .ne | 2 => some .cs | 3 => some .cc
  | 4 => some .mi | 5 => some .pl | 6 => some .vs | 7 => some .vc
  | 8 => some .hi | 9 => some .ls | 10 => some .ge | 11 => some .lt
  | 12 => some .gt | 13 => some .le | 14 => some .al
  | _ => none

/-- The field `Sh` (R100). -/
def ShiftType.bits : ShiftType → BitVec 2
  | .lsl => 0b00#2 | .lsr => 0b01#2 | .asr => 0b10#2 | .ror => 0b11#2

/-- The shift type of a field `Sh` (R100). -/
def ShiftType.ofBits (b : BitVec 2) : ShiftType :=
  match b.toNat with
  | 0 => .lsl | 1 => .lsr | 2 => .asr | _ => .ror

/-- Bits 24:21 of AND, EOR, SUB, RSB, ADD, ADC, SBC, RSC, ORR, BIC (R112). -/
def WriteOp.opcode : WriteOp → BitVec 4
  | .and => 0b0000#4 | .eor => 0b0001#4 | .sub => 0b0010#4 | .rsb => 0b0011#4 | .add => 0b0100#4
  | .adc => 0b0101#4 | .sbc => 0b0110#4 | .rsc => 0b0111#4 | .orr => 0b1100#4 | .bic => 0b1110#4

/-- Bits 24:21 of MOV and MVN (R112). -/
def MoveOp.opcode : MoveOp → BitVec 4
  | .mov => 0b1101#4 | .mvn => 0b1111#4

/-- Bits 24:21 of TST, TEQ, CMP, CMN (R112). -/
def TestOp.opcode : TestOp → BitVec 4
  | .tst => 0b1000#4 | .teq => 0b1001#4 | .cmp => 0b1010#4 | .cmn => 0b1011#4

/-- The sixteen data processing operations, by which fields they use. -/
inductive DpOp where
  | write (op : WriteOp)
  | move (op : MoveOp)
  | test (op : TestOp)
  deriving DecidableEq, Repr

/-- The operation of bits 24:21 (R112). -/
def DpOp.ofBits (b : BitVec 4) : DpOp :=
  match b.toNat with
  | 0 => .write .and | 1 => .write .eor | 2 => .write .sub | 3 => .write .rsb
  | 4 => .write .add | 5 => .write .adc | 6 => .write .sbc | 7 => .write .rsc
  | 8 => .test .tst | 9 => .test .teq | 10 => .test .cmp | 11 => .test .cmn
  | 12 => .write .orr | 13 => .move .mov | 14 => .write .bic | _ => .move .mvn

/-- The bit L, bit 20, of a load or store (R180). -/
def TransferOp.lBit : TransferOp → Bool
  | .ldr => true | .ldrb => true | .str => false | .strb => false

/-- The bit B, bit 22, of a load or store (R180). -/
def TransferOp.bBit : TransferOp → Bool
  | .ldr => false | .ldrb => true | .str => false | .strb => true

/-- The load or store of the bits L and B (R180). -/
def TransferOp.ofBits : (l b : Bool) → TransferOp
  | true, false => .ldr
  | true, true => .ldrb
  | false, false => .str
  | false, true => .strb

/-- The bit P, bit 24 (R184). -/
def Indexing.pBit : Indexing → Bool
  | .offset => true | .preWriteback => true | .postIndexed => false

/-- The bit W, bit 21 (R184). -/
def Indexing.wBit : Indexing → Bool
  | .offset => false | .preWriteback => true | .postIndexed => false

/-- The addressing mode of the bits P and W; P = 0 with W = 1 is none (R184, R186). -/
def Indexing.ofBits : (p w : Bool) → Option Indexing
  | true, false => some .offset
  | true, true => some .preWriteback
  | false, false => some .postIndexed
  | false, true => none

/-- The bit L, bit 24, of a branch (R59). -/
def BranchOp.lBit : BranchOp → Bool
  | .b => false | .bl => true

/-! ### The decoder -/

/-- Why a word is no instruction of this spec. -/
inductive DecodeRefusal where
  /-- R63, R84: the condition is 1111. -/
  | condReserved
  /-- R52, R63, R114, R186: the word is in none of the eight formats, or is a compare with S = 0, or a load or
  store with P = 0 and W = 1. -/
  | notInHandout
  /-- R62 step 4: the fields are a combination that the family's file refuses. -/
  | static (r : StaticRefusal)
  /-- Fewer than the four bytes of an instruction were given (R2). -/
  | truncated
  deriving DecidableEq, Repr

/-- The eight formats (R50). -/
inductive Format where
  | multiply | dpImmediate | dpShiftByImmediate | dpShiftByRegister
  | transferImmediate | transferRegister | branch | swi
  deriving DecidableEq, Repr

/-- The opcode map: the format of a word by bits 27:25, refined by bits 24, 7 and 4 (R52). -/
def formatOf (w : Word) : Option Format :=
  match (w.extractLsb' 25 3).toNat with
  | 0 =>
    if !bitField w 4 then some .dpShiftByImmediate
    else if !bitField w 7 then some .dpShiftByRegister
    else if w.extractLsb' 4 4 = 0b1001#4 ∧ w.extractLsb' 22 3 = 0b000#3 then some .multiply
    else none
  | 1 => some .dpImmediate
  | 2 => some .transferImmediate
  | 3 => if !bitField w 4 then some .transferRegister else none
  | 5 => some .branch
  | 7 => if bitField w 24 then some .swi else none
  | _ => none

/-- R62 step 4: the instruction, unless a static refusal applies to it. -/
def checked (i : Instr) : Except DecodeRefusal Instr :=
  match i.staticRefusal with
  | some r => .error (.static r)
  | none => .ok i

/-- Operand 2 from bits 11:0, in the form of the given data processing format (R100). -/
def operand2Imm (w : Word) : Operand2 := .imm (w.extractLsb' 8 4) (w.extractLsb' 0 8)

/-- Operand 2 of R54. -/
def operand2ShiftImm (w : Word) : Operand2 :=
  .shiftImm (regField w 0) (ShiftType.ofBits (w.extractLsb' 5 2)) (w.extractLsb' 7 5)

/-- Operand 2 of R55. -/
def operand2ShiftReg (w : Word) : Operand2 :=
  .shiftReg (regField w 0) (ShiftType.ofBits (w.extractLsb' 5 2)) (regField w 8)

/-- The data processing instruction of a word, given its condition and operand 2. A compare with S = 0 is refused
(R114). The register fields that the instruction ignores are still looked at for 1111: R108 refuses R15 in any
register field of the register-shift form, R109 a compare whose Rd field is 1111. -/
def decodeDp (c : Cond) (o2 : Operand2) (w : Word) : Except DecodeRefusal Instr :=
  let sb := bitField w 20
  let rn := regField w 16
  let rd := regField w 12
  match DpOp.ofBits (w.extractLsb' 21 4) with
  | .write op => checked (Shape.instr (.write op c sb rn rd o2))
  | .move op =>
    if o2.isRegShift && rn == pcReg then .error (.static .r15InRegShiftForm)
    else checked (Shape.instr (.move op c sb rd o2))
  | .test op =>
    if !sb then .error .notInHandout
    else if rd == pcReg then .error (.static (if o2.isRegShift then .r15InRegShiftForm else .r15DestWithS))
    else checked (Shape.instr (.test op c rn o2))

/-- The load or store of a word, given its condition and offset (R57, R58, R180, R186). -/
def decodeTransfer (c : Cond) (off : Offset) (w : Word) : Except DecodeRefusal Instr :=
  match Indexing.ofBits (bitField w 24) (bitField w 21) with
  | none => .error .notInHandout
  | some ix =>
    checked (Shape.instr (.transfer (TransferOp.ofBits (bitField w 20) (bitField w 22)) c ix (bitField w 23)
      (regField w 16) (regField w 12) off))

/-- The multiply of a word (R56): bit 21 is A; bits 15:12 are not looked at for MUL. -/
def decodeMultiply (c : Cond) (w : Word) : Except DecodeRefusal Instr :=
  if bitField w 21 then
    checked (Shape.instr (.mla c (bitField w 20) (regField w 16) (regField w 12) (regField w 8) (regField w 0)))
  else
    checked (Shape.instr (.mul c (bitField w 20) (regField w 16) (regField w 8) (regField w 0)))

/-- R62 steps 3 and 4: the instruction of a word within its format. -/
def decodeFormat (c : Cond) (w : Word) : Format → Except DecodeRefusal Instr
  | .multiply => decodeMultiply c w
  | .dpImmediate => decodeDp c (operand2Imm w) w
  | .dpShiftByImmediate => decodeDp c (operand2ShiftImm w) w
  | .dpShiftByRegister => decodeDp c (operand2ShiftReg w) w
  | .transferImmediate => decodeTransfer c (.imm (w.extractLsb' 0 12)) w
  | .transferRegister =>
    decodeTransfer c (.reg (regField w 0) (ShiftType.ofBits (w.extractLsb' 5 2)) (w.extractLsb' 7 5)) w
  | .branch => checked (Shape.instr (.branch (if bitField w 24 then .bl else .b) c (w.extractLsb' 0 24)))
  | .swi => checked (Shape.instr (.swi c (w.extractLsb' 0 24)))

/-- The decoder of R62: the condition, then the format, then the mnemonic and the static refusals. -/
def decode (w : Word) : Except DecodeRefusal Instr :=
  match Cond.ofBits (w.extractLsb' 28 4) with
  | none => .error .condReserved
  | some c =>
    match formatOf w with
    | none => .error .notInHandout
    | some f => decodeFormat c w f

/-! ### The encoder -/

/-- Bits 11:0 of a data processing instruction (R53, R54, R55), from bit 11 down. -/
def Operand2.fields : Operand2 → List (Nat × Nat)
  | .imm rot imm8 => [(4, rot.toNat), (8, imm8.toNat)]
  | .shiftImm rm sh n => [(5, n.toNat), (2, sh.bits.toNat), (1, 0), (4, rm.val)]
  | .shiftReg rm sh rs => [(4, rs.val), (1, 0), (2, sh.bits.toNat), (1, 1), (4, rm.val)]

/-- Bits 27:25 of a data processing instruction (R53, R54, R55). -/
def Operand2.group : Operand2 → Nat
  | .imm _ _ => 0b001
  | .shiftImm _ _ _ => 0b000
  | .shiftReg _ _ _ => 0b000

/-- Bits 11:0 of a load or store (R57, R58), from bit 11 down. -/
def Offset.fields : Offset → List (Nat × Nat)
  | .imm imm12 => [(12, imm12.toNat)]
  | .reg rm sh n => [(5, n.toNat), (2, sh.bits.toNat), (1, 0), (4, rm.val)]

/-- Bits 27:25 of a load or store (R57, R58). -/
def Offset.group : Offset → Nat
  | .imm _ => 0b010
  | .reg _ _ _ => 0b011

/-- The row of a data processing instruction (R53, R54, R55). -/
def dpFields (c : Cond) (opcode : BitVec 4) (sb : Bool) (rn rd : Nat) (o2 : Operand2) : List (Nat × Nat) :=
  [(4, c.bits.toNat), (3, o2.group), (4, opcode.toNat), (1, sb.toNat), (4, rn), (4, rd)] ++ o2.fields

/-- The row of an instruction in the summary table (R53 to R60), from bit 31 down. The fields the instruction
ignores are written as 0000 (R64, R69); the compares are written with S = 1 (R114, R69). -/
def Shape.fields : Shape → List (Nat × Nat)
  | .write op c sb rn rd o2 => dpFields c op.opcode sb rn.val rd.val o2
  | .move op c sb rd o2 => dpFields c op.opcode sb 0 rd.val o2
  | .test op c rn o2 => dpFields c op.opcode true rn.val 0 o2
  | .mul c sb rd rs rm =>
    [(4, c.bits.toNat), (3, 0b000), (3, 0b000), (1, 0), (1, sb.toNat), (4, rd.val), (4, 0), (4, rs.val), (4, 0b1001),
      (4, rm.val)]
  | .mla c sb rd rn rs rm =>
    [(4, c.bits.toNat), (3, 0b000), (3, 0b000), (1, 1), (1, sb.toNat), (4, rd.val), (4, rn.val), (4, rs.val),
      (4, 0b1001), (4, rm.val)]
  | .transfer op c ix up rn rd off =>
    [(4, c.bits.toNat), (3, off.group), (1, ix.pBit.toNat), (1, up.toNat), (1, op.bBit.toNat),
      (1, ix.wBit.toNat), (1, op.lBit.toNat), (4, rn.val), (4, rd.val)] ++ off.fields
  | .branch op c off => [(4, c.bits.toNat), (3, 0b101), (1, op.lBit.toNat), (24, off.toNat)]
  | .swi c imm24 => [(4, c.bits.toNat), (3, 0b111), (1, 1), (24, imm24.toNat)]

/-- The word of an instruction (R53 to R60), every field as the instruction has it: the same constant with another `rot`
is another instruction, since the carry-out differs (R101). The word that R69 chooses for a constant is that of
`SourceLine.canonicalWord` (Machine/Assembler.lean). -/
def encode (i : Instr) : Word := pack i.shape.fields

/-- Whether the fields of `w` that the instruction ignores are zero: bits 19:16 of MOV and MVN, bits 15:12 of the
compares and of MUL (R64). -/
def Instr.ignoredFieldsZero (i : Instr) (w : Word) : Prop :=
  match i.shape with
  | .write _ _ _ _ _ _ => True
  | .move _ _ _ _ _ => w.extractLsb' 16 4 = 0#4
  | .test _ _ _ _ => w.extractLsb' 12 4 = 0#4
  | .mul _ _ _ _ _ => w.extractLsb' 12 4 = 0#4
  | .mla _ _ _ _ _ _ => True
  | .transfer _ _ _ _ _ _ _ => True
  | .branch _ _ _ => True
  | .swi _ _ => True

/-! ### Bytes -/

/-- The word of four bytes, the one at the lowest address first: little-endian (R31). -/
def wordOfBytes (b0 b1 b2 b3 : Byte) : Word :=
  BitVec.ofNat 32 (b0.toNat + b1.toNat * 2 ^ 8 + b2.toNat * 2 ^ 16 + b3.toNat * 2 ^ 24)

/-- Byte `k` of a word, the byte at address `a + k` of a word stored at `a` (R31). -/
def byteOfWord (w : Word) (k : Nat) : Byte := w.extractLsb' (8 * k) 8

/-- The four bytes of a word in the order of their addresses (R31). -/
def bytesOfWord (w : Word) : List Byte := [byteOfWord w 0, byteOfWord w 1, byteOfWord w 2, byteOfWord w 3]

/-- The instruction at the front of a list of bytes, and the bytes after it (R2: every instruction is four bytes). -/
def decodeBytes : List Byte → Except DecodeRefusal (Instr × List Byte)
  | b0 :: b1 :: b2 :: b3 :: rest =>
    match decode (wordOfBytes b0 b1 b2 b3) with
    | .ok i => .ok (i, rest)
    | .error r => .error r
  | _ => .error .truncated

/-- The word of an instruction of which bits `nbits - 1 : 0` are those of `w` and every further bit is zero. -/
def tableWord (nbits w : Nat) : Word := BitVec.ofNat 32 (w % 2 ^ nbits)

/-- The instruction the decoder reads from the bytes of such a word, laid out as the machine stores them. -/
def decodeTableWord (nbits w : Nat) : Option Instr :=
  match decodeBytes (bytesOfWord (tableWord nbits w)) with
  | .ok (i, _) => some i
  | .error _ => none

/-! ### The rows of spec/opcode_table.json -/

/-- A row of the opcode table: a word `w` selects it when `w AND mask` is `pattern` (R62). -/
structure OpcodeRow where
  pattern : Word
  mask : Word
  deriving DecidableEq, Repr

/-- Whether a word selects the row (R62). -/
def OpcodeRow.selects (r : OpcodeRow) (w : Word) : Bool := w &&& r.mask == r.pattern

/-- The row of an instruction, its `match` and `mask` copied from spec/opcode_table.json. -/
def Instr.row : Instr → OpcodeRow
  | .andImm _ _ _ _ _ _ => ⟨0x02000000#32, 0x0FE00000#32⟩
  | .andShiftImm _ _ _ _ _ _ _ => ⟨0x00000000#32, 0x0FE00010#32⟩
  | .andShiftReg _ _ _ _ _ _ _ => ⟨0x00000010#32, 0x0FE00090#32⟩
  | .eorImm _ _ _ _ _ _ => ⟨0x02200000#32, 0x0FE00000#32⟩
  | .eorShiftImm _ _ _ _ _ _ _ => ⟨0x00200000#32, 0x0FE00010#32⟩
  | .eorShiftReg _ _ _ _ _ _ _ => ⟨0x00200010#32, 0x0FE00090#32⟩
  | .subImm _ _ _ _ _ _ => ⟨0x02400000#32, 0x0FE00000#32⟩
  | .subShiftImm _ _ _ _ _ _ _ => ⟨0x00400000#32, 0x0FE00010#32⟩
  | .subShiftReg _ _ _ _ _ _ _ => ⟨0x00400010#32, 0x0FE00090#32⟩
  | .rsbImm _ _ _ _ _ _ => ⟨0x02600000#32, 0x0FE00000#32⟩
  | .rsbShiftImm _ _ _ _ _ _ _ => ⟨0x00600000#32, 0x0FE00010#32⟩
  | .rsbShiftReg _ _ _ _ _ _ _ => ⟨0x00600010#32, 0x0FE00090#32⟩
  | .addImm _ _ _ _ _ _ => ⟨0x02800000#32, 0x0FE00000#32⟩
  | .addShiftImm _ _ _ _ _ _ _ => ⟨0x00800000#32, 0x0FE00010#32⟩
  | .addShiftReg _ _ _ _ _ _ _ => ⟨0x00800010#32, 0x0FE00090#32⟩
  | .adcImm _ _ _ _ _ _ => ⟨0x02A00000#32, 0x0FE00000#32⟩
  | .adcShiftImm _ _ _ _ _ _ _ => ⟨0x00A00000#32, 0x0FE00010#32⟩
  | .adcShiftReg _ _ _ _ _ _ _ => ⟨0x00A00010#32, 0x0FE00090#32⟩
  | .sbcImm _ _ _ _ _ _ => ⟨0x02C00000#32, 0x0FE00000#32⟩
  | .sbcShiftImm _ _ _ _ _ _ _ => ⟨0x00C00000#32, 0x0FE00010#32⟩
  | .sbcShiftReg _ _ _ _ _ _ _ => ⟨0x00C00010#32, 0x0FE00090#32⟩
  | .rscImm _ _ _ _ _ _ => ⟨0x02E00000#32, 0x0FE00000#32⟩
  | .rscShiftImm _ _ _ _ _ _ _ => ⟨0x00E00000#32, 0x0FE00010#32⟩
  | .rscShiftReg _ _ _ _ _ _ _ => ⟨0x00E00010#32, 0x0FE00090#32⟩
  | .tstImm _ _ _ _ => ⟨0x03100000#32, 0x0FF00000#32⟩
  | .tstShiftImm _ _ _ _ _ => ⟨0x01100000#32, 0x0FF00010#32⟩
  | .tstShiftReg _ _ _ _ _ => ⟨0x01100010#32, 0x0FF00090#32⟩
  | .teqImm _ _ _ _ => ⟨0x03300000#32, 0x0FF00000#32⟩
  | .teqShiftImm _ _ _ _ _ => ⟨0x01300000#32, 0x0FF00010#32⟩
  | .teqShiftReg _ _ _ _ _ => ⟨0x01300010#32, 0x0FF00090#32⟩
  | .cmpImm _ _ _ _ => ⟨0x03500000#32, 0x0FF00000#32⟩
  | .cmpShiftImm _ _ _ _ _ => ⟨0x01500000#32, 0x0FF00010#32⟩
  | .cmpShiftReg _ _ _ _ _ => ⟨0x01500010#32, 0x0FF00090#32⟩
  | .cmnImm _ _ _ _ => ⟨0x03700000#32, 0x0FF00000#32⟩
  | .cmnShiftImm _ _ _ _ _ => ⟨0x01700000#32, 0x0FF00010#32⟩
  | .cmnShiftReg _ _ _ _ _ => ⟨0x01700010#32, 0x0FF00090#32⟩
  | .orrImm _ _ _ _ _ _ => ⟨0x03800000#32, 0x0FE00000#32⟩
  | .orrShiftImm _ _ _ _ _ _ _ => ⟨0x01800000#32, 0x0FE00010#32⟩
  | .orrShiftReg _ _ _ _ _ _ _ => ⟨0x01800010#32, 0x0FE00090#32⟩
  | .movImm _ _ _ _ _ => ⟨0x03A00000#32, 0x0FE00000#32⟩
  | .movShiftImm _ _ _ _ _ _ => ⟨0x01A00000#32, 0x0FE00010#32⟩
  | .movShiftReg _ _ _ _ _ _ => ⟨0x01A00010#32, 0x0FE00090#32⟩
  | .bicImm _ _ _ _ _ _ => ⟨0x03C00000#32, 0x0FE00000#32⟩
  | .bicShiftImm _ _ _ _ _ _ _ => ⟨0x01C00000#32, 0x0FE00010#32⟩
  | .bicShiftReg _ _ _ _ _ _ _ => ⟨0x01C00010#32, 0x0FE00090#32⟩
  | .mvnImm _ _ _ _ _ => ⟨0x03E00000#32, 0x0FE00000#32⟩
  | .mvnShiftImm _ _ _ _ _ _ => ⟨0x01E00000#32, 0x0FE00010#32⟩
  | .mvnShiftReg _ _ _ _ _ _ => ⟨0x01E00010#32, 0x0FE00090#32⟩
  | .mul _ _ _ _ _ => ⟨0x00000090#32, 0x0FE000F0#32⟩
  | .mla _ _ _ _ _ _ => ⟨0x00200090#32, 0x0FE000F0#32⟩
  | .ldrImm _ _ _ _ _ _ => ⟨0x04100000#32, 0x0E500000#32⟩
  | .ldrReg _ _ _ _ _ _ _ _ => ⟨0x06100000#32, 0x0E500010#32⟩
  | .ldrbImm _ _ _ _ _ _ => ⟨0x04500000#32, 0x0E500000#32⟩
  | .ldrbReg _ _ _ _ _ _ _ _ => ⟨0x06500000#32, 0x0E500010#32⟩
  | .strImm _ _ _ _ _ _ => ⟨0x04000000#32, 0x0E500000#32⟩
  | .strReg _ _ _ _ _ _ _ _ => ⟨0x06000000#32, 0x0E500010#32⟩
  | .strbImm _ _ _ _ _ _ => ⟨0x04400000#32, 0x0E500000#32⟩
  | .strbReg _ _ _ _ _ _ _ _ => ⟨0x06400000#32, 0x0E500010#32⟩
  | .b _ _ => ⟨0x0A000000#32, 0x0F000000#32⟩
  | .bl _ _ => ⟨0x0B000000#32, 0x0F000000#32⟩
  | .swi _ _ => ⟨0x0F000000#32, 0x0F000000#32⟩

/-- The 61 rows, in the table's order. -/
def opcodeRows : List OpcodeRow :=
  [⟨0x02000000#32, 0x0FE00000#32⟩, ⟨0x00000000#32, 0x0FE00010#32⟩, ⟨0x00000010#32, 0x0FE00090#32⟩,
    ⟨0x02200000#32, 0x0FE00000#32⟩, ⟨0x00200000#32, 0x0FE00010#32⟩, ⟨0x00200010#32, 0x0FE00090#32⟩,
    ⟨0x02400000#32, 0x0FE00000#32⟩, ⟨0x00400000#32, 0x0FE00010#32⟩, ⟨0x00400010#32, 0x0FE00090#32⟩,
    ⟨0x02600000#32, 0x0FE00000#32⟩, ⟨0x00600000#32, 0x0FE00010#32⟩, ⟨0x00600010#32, 0x0FE00090#32⟩,
    ⟨0x02800000#32, 0x0FE00000#32⟩, ⟨0x00800000#32, 0x0FE00010#32⟩, ⟨0x00800010#32, 0x0FE00090#32⟩] ++
  [⟨0x02A00000#32, 0x0FE00000#32⟩, ⟨0x00A00000#32, 0x0FE00010#32⟩, ⟨0x00A00010#32, 0x0FE00090#32⟩,
    ⟨0x02C00000#32, 0x0FE00000#32⟩, ⟨0x00C00000#32, 0x0FE00010#32⟩, ⟨0x00C00010#32, 0x0FE00090#32⟩,
    ⟨0x02E00000#32, 0x0FE00000#32⟩, ⟨0x00E00000#32, 0x0FE00010#32⟩, ⟨0x00E00010#32, 0x0FE00090#32⟩,
    ⟨0x03100000#32, 0x0FF00000#32⟩, ⟨0x01100000#32, 0x0FF00010#32⟩, ⟨0x01100010#32, 0x0FF00090#32⟩,
    ⟨0x03300000#32, 0x0FF00000#32⟩, ⟨0x01300000#32, 0x0FF00010#32⟩, ⟨0x01300010#32, 0x0FF00090#32⟩] ++
  [⟨0x03500000#32, 0x0FF00000#32⟩, ⟨0x01500000#32, 0x0FF00010#32⟩, ⟨0x01500010#32, 0x0FF00090#32⟩,
    ⟨0x03700000#32, 0x0FF00000#32⟩, ⟨0x01700000#32, 0x0FF00010#32⟩, ⟨0x01700010#32, 0x0FF00090#32⟩,
    ⟨0x03800000#32, 0x0FE00000#32⟩, ⟨0x01800000#32, 0x0FE00010#32⟩, ⟨0x01800010#32, 0x0FE00090#32⟩,
    ⟨0x03A00000#32, 0x0FE00000#32⟩, ⟨0x01A00000#32, 0x0FE00010#32⟩, ⟨0x01A00010#32, 0x0FE00090#32⟩,
    ⟨0x03C00000#32, 0x0FE00000#32⟩, ⟨0x01C00000#32, 0x0FE00010#32⟩, ⟨0x01C00010#32, 0x0FE00090#32⟩] ++
  [⟨0x03E00000#32, 0x0FE00000#32⟩, ⟨0x01E00000#32, 0x0FE00010#32⟩, ⟨0x01E00010#32, 0x0FE00090#32⟩,
    ⟨0x00000090#32, 0x0FE000F0#32⟩, ⟨0x00200090#32, 0x0FE000F0#32⟩, ⟨0x04100000#32, 0x0E500000#32⟩,
    ⟨0x06100000#32, 0x0E500010#32⟩, ⟨0x04500000#32, 0x0E500000#32⟩, ⟨0x06500000#32, 0x0E500010#32⟩,
    ⟨0x04000000#32, 0x0E500000#32⟩, ⟨0x06000000#32, 0x0E500010#32⟩, ⟨0x04400000#32, 0x0E500000#32⟩,
    ⟨0x06400000#32, 0x0E500010#32⟩, ⟨0x0A000000#32, 0x0F000000#32⟩, ⟨0x0B000000#32, 0x0F000000#32⟩] ++
  [⟨0x0F000000#32, 0x0F000000#32⟩]

end Sys2Proof
end

