-- ==== Sys2Proof/Config.lean ====
section
/-! DEFINITION. What the spec leaves to an implementation. First the FREE VALUES: opaque constants with no body,
so that nothing in Lean can evaluate one or prove a value of it. Then the values the model names for
`State.reset`, where the spec gives a parameter and suggests an instance, or says nothing. -/

namespace Sys2Proof.Config

/-- Bits 31:8 of R0 after the `k`-th draw, an SWI 1 (R164, `SWI1_UPPER`; spec/93 U9: "any value", a fresh draw).
DESIGN CHOICE, log entry 4: a free value, safe. -/
opaque swi1Upper : Nat → BitVec 24

/-- The flag C after the `k`-th draw, a MULS or MLAS (R213; spec/93 U11: "any value", a fresh draw).
DESIGN CHOICE, log entry 5: a free value, safe. -/
opaque mulCarry : Nat → Bool

/-- What the memory byte at an address holds while neither the image nor a store has given it a value
(R22, R39, R252; spec/93 U8: "any value"). DESIGN CHOICE, log entry 6: a free value, safe. -/
opaque unwrittenByte : Nat → Byte

/-- What SWI 4 prints under the `k`-th format other than the two the spec describes (R167, `SWI4_FORMAT` is a
parameter of the model). DESIGN CHOICE, log entry 7: a free value, safe. -/
opaque swi4Other : Nat → Word → List Byte

/-- `ENTRY` (R251), the address of the first instruction after reset: the value the spec suggests.
DESIGN CHOICE, log entry 2: unsafe. -/
def entry : Word := 0x00000000#32

/-- What every general register R0 to R14 holds after reset, where R22 says "unspecified".
DESIGN CHOICE, log entry 1: unsafe. -/
def resetRegister : Word := 0x00000000#32

/-- What each of the flags N, Z, C, V is after reset, where R22 says "unspecified".
DESIGN CHOICE, log entry 1: unsafe. -/
def resetFlag : Bool := false

end Sys2Proof.Config
end

