-- ==== Sys2Proof/Machine/State.lean ====
section
/-! DEFINITION. The state of the machine (the tuple at the head of spec/10_state.md), the reasons a step can stop
(spec/60_exceptions.md R222, R223), and the state after reset (R22, R250). -/

namespace Sys2Proof.Machine

/-- The four condition flags of the CPSR (R15, R17). -/
structure Flags where
  n : Bool
  z : Bool
  c : Bool
  v : Bool
  deriving DecidableEq, Repr

/-- The listed bytes of memory, addresses strictly rising: those of the image and those stored since (R30, R252).
A byte that is not listed has been given no value. -/
abbrev Memory := List Host.Cell

/-- The byte addresses `base`, ..., `base + size - 1`: a piece of `MEM_VALID` (R30). -/
structure Region where
  base : Nat
  size : Nat
  deriving DecidableEq, Repr

/-- `SWI4_FORMAT` (R167): the two readings of "a decimal integer" that the spec describes, and every other
function, as a free value numbered by `k`. -/
inductive Swi4Format where
  | signedDecimal
  | unsignedDecimal
  | other (k : Nat)
  deriving DecidableEq, Repr

/-- The state of the machine. -/
structure State where
  /-- R0 to R14 (R10). -/
  regs : Vector Word 15
  /-- The address of the instruction being executed, R15's base (R13). -/
  pc : Word
  /-- The condition flags (R15). -/
  flags : Flags
  /-- MEM (R19, R30). -/
  mem : Memory
  /-- OUT, the terminal output so far (R19, R163). -/
  out : List Byte
  /-- INPOS, how many characters of INPUT have been consumed (R19, R164). -/
  inpos : Nat
  /-- Set by SWI 2 (R19, R23). -/
  halted : Bool
  /-- The word addresses stored to since the program was loaded, strictly rising (R20, R40). -/
  dirty : List Nat
  /-- MEM_VALID (R5, R30): an open parameter, which no step changes. -/
  memValid : List Region
  /-- INPUT (R5, R164): an open parameter, which no step changes. -/
  input : List Byte
  /-- SWI4_FORMAT (R5, R167): an open parameter, which no step changes. -/
  swi4Format : Swi4Format
  /-- The model's own: how many values no rule fixes have been drawn (`draw` of R8, used by R164 and R213). -/
  draws : Nat
  deriving DecidableEq, Repr

/-- What an access was for (R38). -/
inductive AccessKind where
  | fetch | load | store
  deriving DecidableEq, Repr

/-- The faults: all the synchronous exceptions of the machine (R220, R223). The last field of each is the pc of the
instruction, which stays where it is. -/
inductive Fault where
  /-- Raised by SWI with a number other than 0 to 4 (R168). Safe: the spec says that it traps. -/
  | swiError (imm24 : BitVec 24) (pc : Word)
  /-- Raised by the fetch, by LDR, LDRB, STR, STRB and by SWI 3, on an address outside MEM_VALID (R38, R45).
  Safe: the spec says that it faults. -/
  | memFault (addr : Word) (kind : AccessKind) (pc : Word)
  deriving DecidableEq, Repr

/-- The cause codes of R223, one for each row of its table. -/
def Fault.code : Fault → Nat
  | .swiError _ _ => 1
  | .memFault _ .fetch _ => 2
  | .memFault _ .load _ => 3
  | .memFault _ .store _ => 4

/-- The refusals: the spec gives the case no meaning (R221, R222). All are safe: nothing is concluded about what
the hardware does. -/
inductive Refusal where
  /-- Raised by an arm of `exec` whose instruction has no meaning yet; safe. No arm raises it. -/
  | notModelled (mnemonic : String)
  /-- Raised at decode: the condition is 1111 (R63, R84); safe. -/
  | condReserved (w : Word)
  /-- Raised at decode: outside the eight formats, a compare with S = 0, a load or store with P = 0 and W = 1
  (R63, R114, R186); safe. -/
  | notInHandout (w : Word)
  /-- Raised at decode: R15 in a data processing instruction with a register shift length (R108); safe. -/
  | r15InRegShiftForm (w : Word)
  /-- Raised at decode: data processing with Rd = 15 and S = 1 (R109); safe. -/
  | r15DestWithS (w : Word)
  /-- Raised at decode: R15 in a load or store where R188 does not allow it; safe. -/
  | r15InLoadStore (w : Word)
  /-- Raised at decode: write-back with Rd = Rn or Rm = Rn (R187); safe. -/
  | writebackRegisterClash (w : Word)
  /-- Raised at decode: a multiply with R15 in a used field, or Rd = Rm (R212); safe. -/
  | multiplyRegister (w : Word)
  /-- Raised at decode of fewer than four bytes (R2). No step raises it: a fetch reads four bytes; safe. -/
  | truncatedInstruction
  /-- Raised by a data processing instruction or LDR that writes R15 with a value that is no multiple of 4 (R14),
  and by the fetch at such a pc, which no run reaches; safe. -/
  | pcMisaligned (v : Word)
  /-- Raised by LDR and STR at an address that is no multiple of 4 (R32); safe. -/
  | misalignedWord (addr : Word)
  /-- Raised by the fetch of a word stored to since the program was loaded (R40); safe. -/
  | fetchOfModifiedWord (pc : Word)
  deriving DecidableEq, Repr

/-- What one step, or one instruction, answers. -/
abbrev Result := Host.Outcome State Fault Refusal

/-- The state after reset (R22, R250). R0 to R14 and the flags: DESIGN CHOICE, log entry 1, unsafe. The pc:
log entry 2, unsafe. The parameters MEM_VALID, SWI4_FORMAT, INPUT: DESIGN CHOICE, log entries 3, 7, 8, unsafe.
Memory lists nothing: the image is loaded from outside (R252, log entry 16). -/
def State.reset : State where
  regs := Vector.replicate 15 Config.resetRegister
  pc := Config.entry
  flags := { n := Config.resetFlag, z := Config.resetFlag, c := Config.resetFlag, v := Config.resetFlag }
  mem := []
  out := []
  inpos := 0
  halted := false
  dirty := []
  memValid := [{ base := 0, size := 2 ^ 32 }]
  input := []
  swi4Format := .signedDecimal
  draws := 0

end Sys2Proof.Machine
end

