-- ==== Sys2Proof/Machine/Flags.lean ====
section
/-! DEFINITION. Conditions (spec/40_conditions.md R82) and the computation of the flags: `AddWithCarry` (R8), one
function per data processing operation for the line (*) of the template R113 (R120 to R135), and the flags of a
multiply (R213). -/

namespace Sys2Proof.Machine

/-- `CondPassed` (R82). -/
def condPassed (c : Cond) (f : Flags) : Bool :=
  match c with
  | .eq => f.z
  | .ne => !f.z
  | .cs => f.c
  | .cc => !f.c
  | .mi => f.n
  | .pl => !f.n
  | .vs => f.v
  | .vc => !f.v
  | .hi => f.c && !f.z
  | .ls => !f.c || f.z
  | .ge => f.n == f.v
  | .lt => f.n != f.v
  | .gt => !f.z && f.n == f.v
  | .le => f.z || f.n != f.v
  | .al => true

/-- What line (*) of R113 computes: the result and the new C and V. -/
structure AluOut where
  result : Word
  c : Bool
  v : Bool
  deriving DecidableEq, Repr

/-- `AddWithCarry(a, b, cin)` (R8). -/
def addWithCarry (a b : Word) (cin : Bool) : AluOut :=
  let usum := a.toNat + b.toNat + cin.toNat
  let ssum := a.toInt + b.toInt + cin.toNat
  let r : Word := BitVec.ofNat 32 usum
  { result := r, c := decide (2 ^ 32 ≤ usum), v := decide (r.toInt ≠ ssum) }

/-- The flags of an S instruction: N and Z from the result, C and V as computed (R110, R111, R113). -/
def flagsOf (o : AluOut) : Flags := { n := o.result.msb, z := o.result == 0#32, c := o.c, v := o.v }

/-- A logical operation: C is the shifter's carry-out, V the old flag (R110). -/
def logical (result : Word) (sc : Bool) (f : Flags) : AluOut := { result := result, c := sc, v := f.v }

/-! The line (*) of each data processing instruction, from the first operand, operand 2, the shifter's carry-out and
the flags before the instruction. -/

/-- R120. -/
def aluAnd (a op2 : Word) (sc : Bool) (f : Flags) : AluOut := logical (a &&& op2) sc f
/-- R121. -/
def aluEor (a op2 : Word) (sc : Bool) (f : Flags) : AluOut := logical (a ^^^ op2) sc f
/-- R122. -/
def aluSub (a op2 : Word) (_sc : Bool) (_f : Flags) : AluOut := addWithCarry a (~~~op2) true
/-- R123. -/
def aluRsb (a op2 : Word) (_sc : Bool) (_f : Flags) : AluOut := addWithCarry (~~~a) op2 true
/-- R124. -/
def aluAdd (a op2 : Word) (_sc : Bool) (_f : Flags) : AluOut := addWithCarry a op2 false
/-- R125. -/
def aluAdc (a op2 : Word) (_sc : Bool) (f : Flags) : AluOut := addWithCarry a op2 f.c
/-- R126. -/
def aluSbc (a op2 : Word) (_sc : Bool) (f : Flags) : AluOut := addWithCarry a (~~~op2) f.c
/-- R127. -/
def aluRsc (a op2 : Word) (_sc : Bool) (f : Flags) : AluOut := addWithCarry (~~~a) op2 f.c
/-- R128. -/
def aluTst (a op2 : Word) (sc : Bool) (f : Flags) : AluOut := logical (a &&& op2) sc f
/-- R129. -/
def aluTeq (a op2 : Word) (sc : Bool) (f : Flags) : AluOut := logical (a ^^^ op2) sc f
/-- R130. -/
def aluCmp (a op2 : Word) (_sc : Bool) (_f : Flags) : AluOut := addWithCarry a (~~~op2) true
/-- R131. -/
def aluCmn (a op2 : Word) (_sc : Bool) (_f : Flags) : AluOut := addWithCarry a op2 false
/-- R132. -/
def aluOrr (a op2 : Word) (sc : Bool) (f : Flags) : AluOut := logical (a ||| op2) sc f
/-- R133. -/
def aluMov (op2 : Word) (sc : Bool) (f : Flags) : AluOut := logical op2 sc f
/-- R134. -/
def aluBic (a op2 : Word) (sc : Bool) (f : Flags) : AluOut := logical (a &&& ~~~op2) sc f
/-- R135. -/
def aluMvn (op2 : Word) (sc : Bool) (f : Flags) : AluOut := logical (~~~op2) sc f

/-- The flags of MULS and MLAS: N and Z from the result, V unchanged, C the value drawn (R213). -/
def multiplyFlags (result : Word) (drawn : Bool) (f : Flags) : Flags :=
  { n := result.msb, z := result == 0#32, c := drawn, v := f.v }

end Sys2Proof.Machine
end

