-- ==== Sys2Proof/Machine/Ops.lean ====
section
/-! DEFINITION. The operations every instruction is built from: registers and the pc (spec/10_state.md R12 to R14),
memory (spec/20_memory.md), the terminal (R163), faults and refusals (R220, R221), and the order of a step after
decoding (R86). -/

namespace Sys2Proof.Machine

/-! ### Registers and the pc -/

/-- A read of a register; R15 reads pc + 8 (R13). -/
def State.reg (s : State) (r : Reg) : Word :=
  if h : r.val < 15 then s.regs[r.val] else s.pc + 8#32

/-- A write of one of R0 to R14; R15 is not written here but by `State.jump` (R14). -/
def State.setReg (s : State) (r : Reg) (v : Word) : State :=
  if h : r.val < 15 then { s with regs := s.regs.set r.val v } else s

/-- The pc moves to the next instruction, modulo 2^32 (R14). -/
def State.advance (s : State) : State := { s with pc := s.pc + 4#32 }

/-- A write of R15: a control transfer, refused when the value is no multiple of 4 (R14). -/
def State.jump (s : State) (target : Word) : Result :=
  if target.toNat % 4 = 0 then .next { s with pc := target } else .refused (.pcMisaligned target)

/-- The write of a result to Rd and the move of the pc after it: R15 is a jump (R14, R109, R188). -/
def State.writeRd (s : State) (rd : Reg) (v : Word) : Result :=
  if rd = pcReg then s.jump v else .next (s.setReg rd v).advance

/-- The flags are written only when the S bit is set (R16, R114). -/
def State.setFlagsIf (s : State) (sb : Bool) (f : Flags) : State := if sb then { s with flags := f } else s

/-! ### Faults and refusals -/

/-- Taking a fault, the machine's only exception (R220, R226): nothing is saved, control goes nowhere, no state
changes and the pc stays at the instruction. There is no return from it (R227). -/
def raise (f : Fault) : Result := .fault f

/-- Why an access does not complete. -/
inductive Stop where
  | fault (f : Fault)
  | refusal (r : Refusal)
  deriving DecidableEq, Repr

/-- The outcome of an instruction whose access does not complete: no state changes (R220, R221). -/
def Stop.outcome : Stop → Result
  | .fault f => raise f
  | .refusal r => .refused r

/-- The refusal R222 names for a static refusal of the word `w`. -/
def staticOutcome (r : StaticRefusal) (w : Word) : Refusal :=
  match r with
  | .r15InRegShiftForm => .r15InRegShiftForm w
  | .r15DestWithS => .r15DestWithS w
  | .r15InLoadStore => .r15InLoadStore w
  | .writebackRegisterClash => .writebackRegisterClash w
  | .multiplyRegister => .multiplyRegister w

/-- The refusal R222 names when the decoder refuses the word `w`. -/
def decodeOutcome (r : DecodeRefusal) (w : Word) : Refusal :=
  match r with
  | .condReserved => .condReserved w
  | .notInHandout => .notInHandout w
  | .static r => staticOutcome r w
  | .truncated => .truncatedInstruction

/-! ### Memory -/

/-- The value listed for an address, if one is. -/
def Memory.lookup : Memory → Nat → Option Byte
  | [], _ => none
  | (k, v) :: rest, a => if k = a then some v else Memory.lookup rest a

/-- The listing with a value for one address, its order kept. -/
def Memory.insert : Memory → Nat → Byte → Memory
  | [], a, b => [(a, b)]
  | (k, v) :: rest, a, b =>
    if a < k then (a, b) :: (k, v) :: rest
    else if a = k then (a, b) :: rest
    else (k, v) :: Memory.insert rest a b

/-- The canonical form: addresses strictly rising, each below 2^32. An unlisted address reads as no value, so no
entry can equal what it reads as. -/
abbrev Memory.wf (m : Memory) : Prop :=
  m.Pairwise (fun x y => x.1 < y.1) ∧ ∀ x ∈ m, x.1 < 2 ^ 32

/-- Whether MEM_VALID has the address (R30). -/
def State.isValid (s : State) (a : Word) : Bool :=
  s.memValid.any (fun r => decide (r.base ≤ a.toNat ∧ a.toNat < r.base + r.size))

/-- The first of the `n` byte addresses from `a` on that is outside MEM_VALID (R223). -/
def State.firstInvalid (s : State) : Nat → Word → Option Word
  | 0, _ => none
  | n + 1, a => if s.isValid a then s.firstInvalid n (a + 1#32) else some a

/-- The byte at an address: what was stored or loaded there last, or else a free value (R39; log entry 6). -/
def State.readByte (s : State) (a : Word) : Byte :=
  match Memory.lookup s.mem a.toNat with
  | some b => b
  | none => Config.unwrittenByte a.toNat

/-- The word at an address, little-endian (R31, R33). -/
def State.readWord (s : State) (a : Word) : Word :=
  wordOfBytes (s.readByte a) (s.readByte (a + 1#32)) (s.readByte (a + 2#32)) (s.readByte (a + 3#32))

/-- One byte put into memory, with no mark in `dirty`: loading does not mark words (R252). -/
def State.putByte (s : State) (a : Word) (b : Byte) : State :=
  { s with mem := Memory.insert s.mem a.toNat b }

/-- The four bytes of a word put into memory, little-endian (R31). -/
def State.putWord (s : State) (a w : Word) : State :=
  (((s.putByte a (byteOfWord w 0)).putByte (a + 1#32) (byteOfWord w 1)).putByte
    (a + 2#32) (byteOfWord w 2)).putByte (a + 3#32) (byteOfWord w 3)

/-- The address of the word that holds the byte at an address (R33). -/
def wordAddress (a : Word) : Nat := a.toNat - a.toNat % 4

/-- The set of word addresses with one more, its order kept. -/
def insertAddress : List Nat → Nat → List Nat
  | [], a => [a]
  | k :: rest, a => if a < k then a :: k :: rest else if a = k then k :: rest else k :: insertAddress rest a

/-- The word of an address is marked as stored to (R33, R40). -/
def State.markDirty (s : State) (a : Word) : State := { s with dirty := insertAddress s.dirty (wordAddress a) }

/-- The fault of an access of `n` bytes, if one of them is outside MEM_VALID (R33, R38, R223). -/
def State.accessFault (s : State) (a : Word) (n : Nat) (kind : AccessKind) : Option Fault :=
  (s.firstInvalid n a).map (fun b => .memFault b kind s.pc)

/-- `MemRead(a, 1)` of a load (R33). -/
def State.loadByte (s : State) (a : Word) : Except Stop Byte :=
  match s.accessFault a 1 .load with
  | some f => .error (.fault f)
  | none => .ok (s.readByte a)

/-- `MemRead(a, 4)` of a load at a multiple of 4 (R33). -/
def State.loadAligned (s : State) (a : Word) : Except Stop Word :=
  match s.accessFault a 4 .load with
  | some f => .error (.fault f)
  | none => .ok (s.readWord a)

/-- `MemWrite(a, 1, v)` (R33). -/
def State.storeByte (s : State) (a : Word) (b : Byte) : Except Stop State :=
  match s.accessFault a 1 .store with
  | some f => .error (.fault f)
  | none => .ok ((s.putByte a b).markDirty a)

/-- `MemWrite(a, 4, v)` at a multiple of 4 (R33). -/
def State.storeAligned (s : State) (a v : Word) : Except Stop State :=
  match s.accessFault a 4 .store with
  | some f => .error (.fault f)
  | none => .ok ((s.putWord a v).markDirty a)

/-- The two values of the parameter MISALIGNED_WORD (R5, R34). -/
inductive MisalignedWord where
  | refuse | rotate
  deriving DecidableEq, Repr

/-- The parameter MISALIGNED_WORD, at the value the spec chooses (R5, R32; log entry 14). -/
def misalignedWord : MisalignedWord := .refuse

/-- The aligned address at or below an address (R34). -/
def alignDown (a : Word) : Word := BitVec.ofNat 32 (wordAddress a)

/-- The word access of LDR (R32), with the alternative of R34. -/
def State.loadWord (s : State) (a : Word) : Except Stop Word :=
  if a.toNat % 4 = 0 then s.loadAligned a
  else
    match misalignedWord with
    | .refuse => .error (.refusal (.misalignedWord a))
    | .rotate =>
      match s.loadAligned (alignDown a) with
      | .ok w => .ok (w.rotateRight (8 * (a.toNat % 4)))
      | .error e => .error e

/-- The word access of STR (R32), with the alternative of R34. -/
def State.storeWord (s : State) (a v : Word) : Except Stop State :=
  if a.toNat % 4 = 0 then s.storeAligned a v
  else
    match misalignedWord with
    | .refuse => .error (.refusal (.misalignedWord a))
    | .rotate => s.storeAligned (alignDown a) v

/-! ### The terminal -/

/-- `OUT <- OUT ++ s` (R8, R163). -/
def State.print (s : State) (bytes : List Byte) : State := { s with out := s.out ++ bytes }

/-! ### An instruction once decoded -/

/-- R86, steps 2 to 5: a static refusal comes whether or not the condition passes (on an instruction no word decodes
to, the refusal of its own word; log entry 17); an instruction whose condition fails only moves the pc (R83); else
its effect takes place. -/
def perform (i : Instr) (s : State) (effect : Result) : Result :=
  match i.staticRefusal with
  | some r => .refused (staticOutcome r (encode i))
  | none => if condPassed i.cond s.flags then effect else .next s.advance

end Sys2Proof.Machine
end

