-- ==== Sys2Proof/Machine/Operands.lean ====
section
/-! DEFINITION. The operand forms: operand 2 of data processing (spec/41_data_processing.md R100 to R105), the
address of a load or store (spec/44_load_store.md R181 to R184), the target of a branch (spec/42_branch.md R151). -/

namespace Sys2Proof.Machine

/-- `LSL(v, n)` (R8). -/
def shiftLeft (v : Word) (n : Nat) : Word := v <<< n
/-- `LSR(v, n)` (R8). -/
def shiftRight (v : Word) (n : Nat) : Word := v >>> n
/-- `ASR(v, n)` (R8). -/
def shiftRightArith (v : Word) (n : Nat) : Word := v.sshiftRight n
/-- `ROR(v, n)` (R8). -/
def rotateRight (v : Word) (n : Nat) : Word := v.rotateRight n

/-- What the shifter answers: the value and the carry-out `sc` (R100). -/
structure Shifted where
  value : Word
  carry : Bool
  deriving DecidableEq, Repr

/-- The word with every bit equal to the sign of `m`: ASR by 32 or more (R102, R105). -/
def signFill (m : Word) : Word := if m.msb then 0xFFFFFFFF#32 else 0x00000000#32

/-- RRX (R103). -/
def rrx (m : Word) (c : Bool) : Shifted :=
  { value := BitVec.ofNat 32 (c.toNat * 2 ^ 31 + m.toNat / 2), carry := m.getLsbD 0 }

/-- The rotated immediate (R101). -/
def rotatedImmediate (rot : BitVec 4) (imm8 : BitVec 8) (c : Bool) : Shifted :=
  let v := rotateRight (imm8.setWidth 32) (2 * rot.toNat)
  { value := v, carry := if rot = 0#4 then c else v.msb }

/-- A register value shifted by an immediate length (R102, R103). -/
def shiftByImmediate (sh : ShiftType) (shift5 : BitVec 5) (m : Word) (c : Bool) : Shifted :=
  let n := shift5.toNat
  match sh with
  | .lsl => if n = 0 then ⟨m, c⟩ else ⟨shiftLeft m n, m.getLsbD (32 - n)⟩
  | .lsr => if n = 0 then ⟨0#32, m.msb⟩ else ⟨shiftRight m n, m.getLsbD (n - 1)⟩
  | .asr => if n = 0 then ⟨signFill m, m.msb⟩ else ⟨shiftRightArith m n, m.getLsbD (n - 1)⟩
  | .ror => if n = 0 then rrx m c else ⟨rotateRight m n, m.getLsbD (n - 1)⟩

/-- A register value shifted by a length `n` from a register, 0 to 255 (R104, R105). -/
def shiftByRegister (sh : ShiftType) (n : Nat) (m : Word) (c : Bool) : Shifted :=
  if n = 0 then ⟨m, c⟩
  else
    match sh with
    | .lsl => if n < 32 then ⟨shiftLeft m n, m.getLsbD (32 - n)⟩ else ⟨0#32, decide (n = 32) && m.getLsbD 0⟩
    | .lsr => if n < 32 then ⟨shiftRight m n, m.getLsbD (n - 1)⟩ else ⟨0#32, decide (n = 32) && m.msb⟩
    | .asr => if n < 32 then ⟨shiftRightArith m n, m.getLsbD (n - 1)⟩ else ⟨signFill m, m.msb⟩
    | .ror => if n % 32 = 0 then ⟨m, m.msb⟩ else ⟨rotateRight m (n % 32), m.getLsbD (n % 32 - 1)⟩

/-- `ShifterOperand` (R100): it reads Rm, Rs and the flag C and writes nothing. -/
def shifterOperand (s : State) : Operand2 → Shifted
  | .imm rot imm8 => rotatedImmediate rot imm8 s.flags.c
  | .shiftImm rm sh n => shiftByImmediate sh n (s.reg rm) s.flags.c
  | .shiftReg rm sh rs => shiftByRegister sh ((s.reg rs).toNat % 256) (s.reg rm) s.flags.c

/-- The offset of a load or store (R181, R182); the shifter's carry-out is discarded. -/
def offsetValue (s : State) : Offset → Word
  | .imm imm12 => imm12.setWidth 32
  | .reg rm sh n => (shiftByImmediate sh n (s.reg rm) s.flags.c).value

/-- The base plus or minus the offset, modulo 2^32 (R183). -/
def indexedAddress (s : State) (up : Bool) (rn : Reg) (off : Offset) : Word :=
  if up then s.reg rn + offsetValue s off else s.reg rn - offsetValue s off

/-- The address used for the access (R184). -/
def accessAddress (s : State) (ix : Indexing) (up : Bool) (rn : Reg) (off : Offset) : Word :=
  match ix with
  | .offset => indexedAddress s up rn off
  | .preWriteback => indexedAddress s up rn off
  | .postIndexed => s.reg rn

/-- The write-back of the base register (R184, R185). -/
def writeBack (t : State) (ix : Indexing) (rn : Reg) (indexed : Word) : State :=
  if ix.writesBase then t.setReg rn indexed else t

/-- The target of a branch: its own address plus 8 plus four times the signed offset (R151). -/
def branchTarget (pc : Word) (off : BitVec 24) : Word := pc + 8#32 + BitVec.ofInt 32 (off.toInt * 4)

end Sys2Proof.Machine
end

