-- ==== Sys2Proof/Machine/Branch.lean ====
section
/-! DEFINITION. The branch instructions (spec/42_branch.md). -/

namespace Sys2Proof.Machine

/-- A branch to the target of R151; the target is taken as it is, its validity is the next fetch's business. -/
def branchTo (off : BitVec 24) (pc : Word) (s : State) : Result := .next { s with pc := branchTarget pc off }

/-- B (R153). -/
def execB (c : Cond) (off : BitVec 24) (s : State) : Result := perform (.b c off) s (branchTo off s.pc s)

/-- BL (R154): the address of the next instruction to R14 (R152), then the branch. -/
def execBl (c : Cond) (off : BitVec 24) (s : State) : Result :=
  perform (.bl c off) s (branchTo off s.pc (s.setReg linkReg (s.pc + 4#32)))

end Sys2Proof.Machine
end

