-- ==== Sys2Proof/Machine/DataProcessing.lean ====
section
/-! DEFINITION. The data processing instructions (spec/41_data_processing.md): the common template R113 in its three
shapes, then one meaning per row of the opcode table (R120 to R135). -/

namespace Sys2Proof.Machine

/-- The end of the template R113 for an instruction that writes Rd: the flags if S is set, then the result to Rd. -/
def dpFinish (sb : Bool) (rd : Reg) (o : AluOut) (s : State) : Result :=
  (s.setFlagsIf sb (flagsOf o)).writeRd rd o.result

/-- The template R113 for an instruction with operands Rd, Rn and Op2. -/
def dpWrite (alu : Word → Word → Bool → Flags → AluOut) (sb : Bool) (rn rd : Reg) (o2 : Operand2) (s : State) : Result :=
  let sh := shifterOperand s o2
  dpFinish sb rd (alu (s.reg rn) sh.value sh.carry s.flags) s

/-- The template R113 for MOV and MVN, which do not read Rn (R115). -/
def dpMove (alu : Word → Bool → Flags → AluOut) (sb : Bool) (rd : Reg) (o2 : Operand2) (s : State) : Result :=
  let sh := shifterOperand s o2
  dpFinish sb rd (alu sh.value sh.carry s.flags) s

/-- The template R113 for TST, TEQ, CMP and CMN, which write the flags and no register (R114). -/
def dpTest (alu : Word → Word → Bool → Flags → AluOut) (rn : Reg) (o2 : Operand2) (s : State) : Result :=
  let sh := shifterOperand s o2
  .next (s.setFlagsIf true (flagsOf (alu (s.reg rn) sh.value sh.carry s.flags))).advance

/-- AND in the form of R53 (R120). -/
def execAndImm (c : Cond) (sb : Bool) (rn rd : Reg) (rot : BitVec 4) (imm8 : BitVec 8) (s : State) : Result :=
  perform (.andImm c sb rn rd rot imm8) s (dpWrite aluAnd sb rn rd (.imm rot imm8) s)

/-- AND in the form of R54 (R120). -/
def execAndShiftImm (c : Cond) (sb : Bool) (rn rd : Reg) (rm : Reg) (sh : ShiftType) (n : BitVec 5) (s : State) : Result :=
  perform (.andShiftImm c sb rn rd rm sh n) s (dpWrite aluAnd sb rn rd (.shiftImm rm sh n) s)

/-- AND in the form of R55 (R120). -/
def execAndShiftReg (c : Cond) (sb : Bool) (rn rd : Reg) (rm : Reg) (sh : ShiftType) (rs : Reg) (s : State) : Result :=
  perform (.andShiftReg c sb rn rd rm sh rs) s (dpWrite aluAnd sb rn rd (.shiftReg rm sh rs) s)

/-- EOR in the form of R53 (R121). -/
def execEorImm (c : Cond) (sb : Bool) (rn rd : Reg) (rot : BitVec 4) (imm8 : BitVec 8) (s : State) : Result :=
  perform (.eorImm c sb rn rd rot imm8) s (dpWrite aluEor sb rn rd (.imm rot imm8) s)

/-- EOR in the form of R54 (R121). -/
def execEorShiftImm (c : Cond) (sb : Bool) (rn rd : Reg) (rm : Reg) (sh : ShiftType) (n : BitVec 5) (s : State) : Result :=
  perform (.eorShiftImm c sb rn rd rm sh n) s (dpWrite aluEor sb rn rd (.shiftImm rm sh n) s)

/-- EOR in the form of R55 (R121). -/
def execEorShiftReg (c : Cond) (sb : Bool) (rn rd : Reg) (rm : Reg) (sh : ShiftType) (rs : Reg) (s : State) : Result :=
  perform (.eorShiftReg c sb rn rd rm sh rs) s (dpWrite aluEor sb rn rd (.shiftReg rm sh rs) s)

/-- SUB in the form of R53 (R122). -/
def execSubImm (c : Cond) (sb : Bool) (rn rd : Reg) (rot : BitVec 4) (imm8 : BitVec 8) (s : State) : Result :=
  perform (.subImm c sb rn rd rot imm8) s (dpWrite aluSub sb rn rd (.imm rot imm8) s)

/-- SUB in the form of R54 (R122). -/
def execSubShiftImm (c : Cond) (sb : Bool) (rn rd : Reg) (rm : Reg) (sh : ShiftType) (n : BitVec 5) (s : State) : Result :=
  perform (.subShiftImm c sb rn rd rm sh n) s (dpWrite aluSub sb rn rd (.shiftImm rm sh n) s)

/-- SUB in the form of R55 (R122). -/
def execSubShiftReg (c : Cond) (sb : Bool) (rn rd : Reg) (rm : Reg) (sh : ShiftType) (rs : Reg) (s : State) : Result :=
  perform (.subShiftReg c sb rn rd rm sh rs) s (dpWrite aluSub sb rn rd (.shiftReg rm sh rs) s)

/-- RSB in the form of R53 (R123). -/
def execRsbImm (c : Cond) (sb : Bool) (rn rd : Reg) (rot : BitVec 4) (imm8 : BitVec 8) (s : State) : Result :=
  perform (.rsbImm c sb rn rd rot imm8) s (dpWrite aluRsb sb rn rd (.imm rot imm8) s)

/-- RSB in the form of R54 (R123). -/
def execRsbShiftImm (c : Cond) (sb : Bool) (rn rd : Reg) (rm : Reg) (sh : ShiftType) (n : BitVec 5) (s : State) : Result :=
  perform (.rsbShiftImm c sb rn rd rm sh n) s (dpWrite aluRsb sb rn rd (.shiftImm rm sh n) s)

/-- RSB in the form of R55 (R123). -/
def execRsbShiftReg (c : Cond) (sb : Bool) (rn rd : Reg) (rm : Reg) (sh : ShiftType) (rs : Reg) (s : State) : Result :=
  perform (.rsbShiftReg c sb rn rd rm sh rs) s (dpWrite aluRsb sb rn rd (.shiftReg rm sh rs) s)

/-- ADD in the form of R53 (R124). -/
def execAddImm (c : Cond) (sb : Bool) (rn rd : Reg) (rot : BitVec 4) (imm8 : BitVec 8) (s : State) : Result :=
  perform (.addImm c sb rn rd rot imm8) s (dpWrite aluAdd sb rn rd (.imm rot imm8) s)

/-- ADD in the form of R54 (R124). -/
def execAddShiftImm (c : Cond) (sb : Bool) (rn rd : Reg) (rm : Reg) (sh : ShiftType) (n : BitVec 5) (s : State) : Result :=
  perform (.addShiftImm c sb rn rd rm sh n) s (dpWrite aluAdd sb rn rd (.shiftImm rm sh n) s)

/-- ADD in the form of R55 (R124). -/
def execAddShiftReg (c : Cond) (sb : Bool) (rn rd : Reg) (rm : Reg) (sh : ShiftType) (rs : Reg) (s : State) : Result :=
  perform (.addShiftReg c sb rn rd rm sh rs) s (dpWrite aluAdd sb rn rd (.shiftReg rm sh rs) s)

/-- ADC in the form of R53 (R125). -/
def execAdcImm (c : Cond) (sb : Bool) (rn rd : Reg) (rot : BitVec 4) (imm8 : BitVec 8) (s : State) : Result :=
  perform (.adcImm c sb rn rd rot imm8) s (dpWrite aluAdc sb rn rd (.imm rot imm8) s)

/-- ADC in the form of R54 (R125). -/
def execAdcShiftImm (c : Cond) (sb : Bool) (rn rd : Reg) (rm : Reg) (sh : ShiftType) (n : BitVec 5) (s : State) : Result :=
  perform (.adcShiftImm c sb rn rd rm sh n) s (dpWrite aluAdc sb rn rd (.shiftImm rm sh n) s)

/-- ADC in the form of R55 (R125). -/
def execAdcShiftReg (c : Cond) (sb : Bool) (rn rd : Reg) (rm : Reg) (sh : ShiftType) (rs : Reg) (s : State) : Result :=
  perform (.adcShiftReg c sb rn rd rm sh rs) s (dpWrite aluAdc sb rn rd (.shiftReg rm sh rs) s)

/-- SBC in the form of R53 (R126). -/
def execSbcImm (c : Cond) (sb : Bool) (rn rd : Reg) (rot : BitVec 4) (imm8 : BitVec 8) (s : State) : Result :=
  perform (.sbcImm c sb rn rd rot imm8) s (dpWrite aluSbc sb rn rd (.imm rot imm8) s)

/-- SBC in the form of R54 (R126). -/
def execSbcShiftImm (c : Cond) (sb : Bool) (rn rd : Reg) (rm : Reg) (sh : ShiftType) (n : BitVec 5) (s : State) : Result :=
  perform (.sbcShiftImm c sb rn rd rm sh n) s (dpWrite aluSbc sb rn rd (.shiftImm rm sh n) s)

/-- SBC in the form of R55 (R126). -/
def execSbcShiftReg (c : Cond) (sb : Bool) (rn rd : Reg) (rm : Reg) (sh : ShiftType) (rs : Reg) (s : State) : Result :=
  perform (.sbcShiftReg c sb rn rd rm sh rs) s (dpWrite aluSbc sb rn rd (.shiftReg rm sh rs) s)

/-- RSC in the form of R53 (R127). -/
def execRscImm (c : Cond) (sb : Bool) (rn rd : Reg) (rot : BitVec 4) (imm8 : BitVec 8) (s : State) : Result :=
  perform (.rscImm c sb rn rd rot imm8) s (dpWrite aluRsc sb rn rd (.imm rot imm8) s)

/-- RSC in the form of R54 (R127). -/
def execRscShiftImm (c : Cond) (sb : Bool) (rn rd : Reg) (rm : Reg) (sh : ShiftType) (n : BitVec 5) (s : State) : Result :=
  perform (.rscShiftImm c sb rn rd rm sh n) s (dpWrite aluRsc sb rn rd (.shiftImm rm sh n) s)

/-- RSC in the form of R55 (R127). -/
def execRscShiftReg (c : Cond) (sb : Bool) (rn rd : Reg) (rm : Reg) (sh : ShiftType) (rs : Reg) (s : State) : Result :=
  perform (.rscShiftReg c sb rn rd rm sh rs) s (dpWrite aluRsc sb rn rd (.shiftReg rm sh rs) s)

/-- TST in the form of R53 (R128). -/
def execTstImm (c : Cond) (rn : Reg) (rot : BitVec 4) (imm8 : BitVec 8) (s : State) : Result :=
  perform (.tstImm c rn rot imm8) s (dpTest aluTst rn (.imm rot imm8) s)

/-- TST in the form of R54 (R128). -/
def execTstShiftImm (c : Cond) (rn : Reg) (rm : Reg) (sh : ShiftType) (n : BitVec 5) (s : State) : Result :=
  perform (.tstShiftImm c rn rm sh n) s (dpTest aluTst rn (.shiftImm rm sh n) s)

/-- TST in the form of R55 (R128). -/
def execTstShiftReg (c : Cond) (rn : Reg) (rm : Reg) (sh : ShiftType) (rs : Reg) (s : State) : Result :=
  perform (.tstShiftReg c rn rm sh rs) s (dpTest aluTst rn (.shiftReg rm sh rs) s)

/-- TEQ in the form of R53 (R129). -/
def execTeqImm (c : Cond) (rn : Reg) (rot : BitVec 4) (imm8 : BitVec 8) (s : State) : Result :=
  perform (.teqImm c rn rot imm8) s (dpTest aluTeq rn (.imm rot imm8) s)

/-- TEQ in the form of R54 (R129). -/
def execTeqShiftImm (c : Cond) (rn : Reg) (rm : Reg) (sh : ShiftType) (n : BitVec 5) (s : State) : Result :=
  perform (.teqShiftImm c rn rm sh n) s (dpTest aluTeq rn (.shiftImm rm sh n) s)

/-- TEQ in the form of R55 (R129). -/
def execTeqShiftReg (c : Cond) (rn : Reg) (rm : Reg) (sh : ShiftType) (rs : Reg) (s : State) : Result :=
  perform (.teqShiftReg c rn rm sh rs) s (dpTest aluTeq rn (.shiftReg rm sh rs) s)

/-- CMP in the form of R53 (R130). -/
def execCmpImm (c : Cond) (rn : Reg) (rot : BitVec 4) (imm8 : BitVec 8) (s : State) : Result :=
  perform (.cmpImm c rn rot imm8) s (dpTest aluCmp rn (.imm rot imm8) s)

/-- CMP in the form of R54 (R130). -/
def execCmpShiftImm (c : Cond) (rn : Reg) (rm : Reg) (sh : ShiftType) (n : BitVec 5) (s : State) : Result :=
  perform (.cmpShiftImm c rn rm sh n) s (dpTest aluCmp rn (.shiftImm rm sh n) s)

/-- CMP in the form of R55 (R130). -/
def execCmpShiftReg (c : Cond) (rn : Reg) (rm : Reg) (sh : ShiftType) (rs : Reg) (s : State) : Result :=
  perform (.cmpShiftReg c rn rm sh rs) s (dpTest aluCmp rn (.shiftReg rm sh rs) s)

/-- CMN in the form of R53 (R131). -/
def execCmnImm (c : Cond) (rn : Reg) (rot : BitVec 4) (imm8 : BitVec 8) (s : State) : Result :=
  perform (.cmnImm c rn rot imm8) s (dpTest aluCmn rn (.imm rot imm8) s)

/-- CMN in the form of R54 (R131). -/
def execCmnShiftImm (c : Cond) (rn : Reg) (rm : Reg) (sh : ShiftType) (n : BitVec 5) (s : State) : Result :=
  perform (.cmnShiftImm c rn rm sh n) s (dpTest aluCmn rn (.shiftImm rm sh n) s)

/-- CMN in the form of R55 (R131). -/
def execCmnShiftReg (c : Cond) (rn : Reg) (rm : Reg) (sh : ShiftType) (rs : Reg) (s : State) : Result :=
  perform (.cmnShiftReg c rn rm sh rs) s (dpTest aluCmn rn (.shiftReg rm sh rs) s)

/-- ORR in the form of R53 (R132). -/
def execOrrImm (c : Cond) (sb : Bool) (rn rd : Reg) (rot : BitVec 4) (imm8 : BitVec 8) (s : State) : Result :=
  perform (.orrImm c sb rn rd rot imm8) s (dpWrite aluOrr sb rn rd (.imm rot imm8) s)

/-- ORR in the form of R54 (R132). -/
def execOrrShiftImm (c : Cond) (sb : Bool) (rn rd : Reg) (rm : Reg) (sh : ShiftType) (n : BitVec 5) (s : State) : Result :=
  perform (.orrShiftImm c sb rn rd rm sh n) s (dpWrite aluOrr sb rn rd (.shiftImm rm sh n) s)

/-- ORR in the form of R55 (R132). -/
def execOrrShiftReg (c : Cond) (sb : Bool) (rn rd : Reg) (rm : Reg) (sh : ShiftType) (rs : Reg) (s : State) : Result :=
  perform (.orrShiftReg c sb rn rd rm sh rs) s (dpWrite aluOrr sb rn rd (.shiftReg rm sh rs) s)

/-- MOV in the form of R53 (R133). -/
def execMovImm (c : Cond) (sb : Bool) (rd : Reg) (rot : BitVec 4) (imm8 : BitVec 8) (s : State) : Result :=
  perform (.movImm c sb rd rot imm8) s (dpMove aluMov sb rd (.imm rot imm8) s)

/-- MOV in the form of R54 (R133). -/
def execMovShiftImm (c : Cond) (sb : Bool) (rd : Reg) (rm : Reg) (sh : ShiftType) (n : BitVec 5) (s : State) : Result :=
  perform (.movShiftImm c sb rd rm sh n) s (dpMove aluMov sb rd (.shiftImm rm sh n) s)

/-- MOV in the form of R55 (R133). -/
def execMovShiftReg (c : Cond) (sb : Bool) (rd : Reg) (rm : Reg) (sh : ShiftType) (rs : Reg) (s : State) : Result :=
  perform (.movShiftReg c sb rd rm sh rs) s (dpMove aluMov sb rd (.shiftReg rm sh rs) s)

/-- BIC in the form of R53 (R134). -/
def execBicImm (c : Cond) (sb : Bool) (rn rd : Reg) (rot : BitVec 4) (imm8 : BitVec 8) (s : State) : Result :=
  perform (.bicImm c sb rn rd rot imm8) s (dpWrite aluBic sb rn rd (.imm rot imm8) s)

/-- BIC in the form of R54 (R134). -/
def execBicShiftImm (c : Cond) (sb : Bool) (rn rd : Reg) (rm : Reg) (sh : ShiftType) (n : BitVec 5) (s : State) : Result :=
  perform (.bicShiftImm c sb rn rd rm sh n) s (dpWrite aluBic sb rn rd (.shiftImm rm sh n) s)

/-- BIC in the form of R55 (R134). -/
def execBicShiftReg (c : Cond) (sb : Bool) (rn rd : Reg) (rm : Reg) (sh : ShiftType) (rs : Reg) (s : State) : Result :=
  perform (.bicShiftReg c sb rn rd rm sh rs) s (dpWrite aluBic sb rn rd (.shiftReg rm sh rs) s)

/-- MVN in the form of R53 (R135). -/
def execMvnImm (c : Cond) (sb : Bool) (rd : Reg) (rot : BitVec 4) (imm8 : BitVec 8) (s : State) : Result :=
  perform (.mvnImm c sb rd rot imm8) s (dpMove aluMvn sb rd (.imm rot imm8) s)

/-- MVN in the form of R54 (R135). -/
def execMvnShiftImm (c : Cond) (sb : Bool) (rd : Reg) (rm : Reg) (sh : ShiftType) (n : BitVec 5) (s : State) : Result :=
  perform (.mvnShiftImm c sb rd rm sh n) s (dpMove aluMvn sb rd (.shiftImm rm sh n) s)

/-- MVN in the form of R55 (R135). -/
def execMvnShiftReg (c : Cond) (sb : Bool) (rd : Reg) (rm : Reg) (sh : ShiftType) (rs : Reg) (s : State) : Result :=
  perform (.mvnShiftReg c sb rd rm sh rs) s (dpMove aluMvn sb rd (.shiftReg rm sh rs) s)

end Sys2Proof.Machine
end

