-- ==== Sys2Proof/Machine/LoadStore.lean ====
section
/-! DEFINITION. The load and store instructions (spec/44_load_store.md): the common template R185, all checks before
any write, then one meaning per row of the opcode table (R190 to R193). -/

namespace Sys2Proof.Machine

/-- The template R185 for a load: the access, the write-back, the register write. -/
def transferLoad (access : State → Word → Except Stop Word) (ix : Indexing) (up : Bool) (rn rd : Reg) (off : Offset)
    (s : State) : Result :=
  match access s (accessAddress s ix up rn off) with
  | .error e => e.outcome
  | .ok data => (writeBack s ix rn (indexedAddress s up rn off)).writeRd rd data

/-- The template R185 for a store: the access, the write-back. -/
def transferStore (access : State → Word → Word → Except Stop State) (ix : Indexing) (up : Bool) (rn rd : Reg)
    (off : Offset) (s : State) : Result :=
  match access s (accessAddress s ix up rn off) (s.reg rd) with
  | .error e => e.outcome
  | .ok t => .next (writeBack t ix rn (indexedAddress s up rn off)).advance

/-- The access of LDR (R190). -/
def accessLdr (s : State) (a : Word) : Except Stop Word := s.loadWord a

/-- The access of LDRB: the byte, with zeros above it (R191). -/
def accessLdrb (s : State) (a : Word) : Except Stop Word :=
  match s.loadByte a with
  | .error e => .error e
  | .ok b => .ok (b.setWidth 32)

/-- The access of STR (R192). -/
def accessStr (s : State) (a v : Word) : Except Stop State := s.storeWord a v

/-- The access of STRB: bits 7:0 of the register (R193). -/
def accessStrb (s : State) (a v : Word) : Except Stop State := s.storeByte a (byteOfWord v 0)

/-- LDR in the form of R57 (R190). -/
def execLdrImm (c : Cond) (ix : Indexing) (up : Bool) (rn rd : Reg) (imm12 : BitVec 12) (s : State) : Result :=
  perform (.ldrImm c ix up rn rd imm12) s (transferLoad accessLdr ix up rn rd (.imm imm12) s)

/-- LDR in the form of R58 (R190). -/
def execLdrReg (c : Cond) (ix : Indexing) (up : Bool) (rn rd : Reg) (rm : Reg) (sh : ShiftType) (n : BitVec 5) (s : State) : Result :=
  perform (.ldrReg c ix up rn rd rm sh n) s (transferLoad accessLdr ix up rn rd (.reg rm sh n) s)

/-- LDRB in the form of R57 (R191). -/
def execLdrbImm (c : Cond) (ix : Indexing) (up : Bool) (rn rd : Reg) (imm12 : BitVec 12) (s : State) : Result :=
  perform (.ldrbImm c ix up rn rd imm12) s (transferLoad accessLdrb ix up rn rd (.imm imm12) s)

/-- LDRB in the form of R58 (R191). -/
def execLdrbReg (c : Cond) (ix : Indexing) (up : Bool) (rn rd : Reg) (rm : Reg) (sh : ShiftType) (n : BitVec 5) (s : State) : Result :=
  perform (.ldrbReg c ix up rn rd rm sh n) s (transferLoad accessLdrb ix up rn rd (.reg rm sh n) s)

/-- STR in the form of R57 (R192). -/
def execStrImm (c : Cond) (ix : Indexing) (up : Bool) (rn rd : Reg) (imm12 : BitVec 12) (s : State) : Result :=
  perform (.strImm c ix up rn rd imm12) s (transferStore accessStr ix up rn rd (.imm imm12) s)

/-- STR in the form of R58 (R192). -/
def execStrReg (c : Cond) (ix : Indexing) (up : Bool) (rn rd : Reg) (rm : Reg) (sh : ShiftType) (n : BitVec 5) (s : State) : Result :=
  perform (.strReg c ix up rn rd rm sh n) s (transferStore accessStr ix up rn rd (.reg rm sh n) s)

/-- STRB in the form of R57 (R193). -/
def execStrbImm (c : Cond) (ix : Indexing) (up : Bool) (rn rd : Reg) (imm12 : BitVec 12) (s : State) : Result :=
  perform (.strbImm c ix up rn rd imm12) s (transferStore accessStrb ix up rn rd (.imm imm12) s)

/-- STRB in the form of R58 (R193). -/
def execStrbReg (c : Cond) (ix : Indexing) (up : Bool) (rn rd : Reg) (rm : Reg) (sh : ShiftType) (n : BitVec 5) (s : State) : Result :=
  perform (.strbReg c ix up rn rd rm sh n) s (transferStore accessStrb ix up rn rd (.reg rm sh n) s)

end Sys2Proof.Machine
end

