-- ==== Sys2Proof/Machine/Multiply.lean ====
section
/-! DEFINITION. The multiply instructions (spec/45_multiply.md). -/

namespace Sys2Proof.Machine

/-- The end of MUL and MLA (R213, R214, R215): the result to Rd, and with S the flags, of which C is drawn. -/
def multiplyFinish (sb : Bool) (rd : Reg) (result : Word) (s : State) : Result :=
  let t := s.setReg rd result
  .next (if sb then { t with flags := multiplyFlags result (Config.mulCarry s.draws) s.flags, draws := s.draws + 1 }
    else t).advance

/-- MUL (R211, R214). -/
def execMul (c : Cond) (sb : Bool) (rd rs rm : Reg) (s : State) : Result :=
  perform (.mul c sb rd rs rm) s (multiplyFinish sb rd (s.reg rm * s.reg rs) s)

/-- MLA (R211, R215). -/
def execMla (c : Cond) (sb : Bool) (rd rn rs rm : Reg) (s : State) : Result :=
  perform (.mla c sb rd rn rs rm) s (multiplyFinish sb rd (s.reg rm * s.reg rs + s.reg rn) s)

end Sys2Proof.Machine
end

