-- ==== Sys2Proof/Machine/Swi.lean ====
section
/-! DEFINITION. SWI and the KoMoDo services (spec/43_swi.md). A service is complete within the one step, reads and
writes no register but R0 and leaves the flags alone (R161). -/

namespace Sys2Proof.Machine

/-- SWI 0, output a character (R162). -/
def swiPutChar (s : State) : Result := .next (s.print [byteOfWord (s.reg r0) 0]).advance

/-- R0 after SWI 1: the character in bits 7:0, above it the bits drawn (R164). -/
def inputWord (upper : BitVec 24) (ch : Byte) : Word := BitVec.ofNat 32 (upper.toNat * 2 ^ 8 + ch.toNat)

/-- SWI 1, input a character (R164). With no character left the machine waits: the step changes nothing and the pc
stays at the SWI (log entry 8). -/
def swiGetChar (s : State) : Result :=
  match s.input[s.inpos]? with
  | some ch =>
    .next { s.setReg r0 (inputWord (Config.swi1Upper s.draws) ch) with
      inpos := s.inpos + 1, draws := s.draws + 1 }.advance
  | none => .next s

/-- SWI 2, halt: the pc is not advanced (R165). -/
def swiHalt (s : State) : Result := .next { s with halted := true }

/-- The loop of R166 from address `a`, for at most `fuel` bytes: the string before the first zero byte, or `none`
when none of those bytes is zero. -/
def readString (s : State) : Nat → Word → Except Fault (Option (List Byte))
  | 0, _ => .ok none
  | fuel + 1, a =>
    if s.isValid a then
      if s.readByte a = 0#8 then .ok (some [])
      else
        match readString s fuel (a + 1#32) with
        | .ok rest => .ok (rest.map (s.readByte a :: ·))
        | .error f => .error f
    else .error (.memFault a .load s.pc)

/-- SWI 3, print a string (R166). After 2^32 bytes the loop has read every byte of the address space; if none is zero
it never exits, and the run is never ending (R170): the step changes nothing and the pc stays at the SWI (log
entry 12). -/
def swiPutString (s : State) : Result :=
  match readString s (2 ^ 32) (s.reg r0) with
  | .ok (some str) => .next (s.print str).advance
  | .ok none => .next s
  | .error f => raise f

/-- An ASCII digit. -/
def digitByte (d : Nat) : Byte := BitVec.ofNat 8 (48 + d)

/-- The decimal numeral of a number, without leading zeros; the fuel is one more than the digits that can follow. -/
def decimalDigits : Nat → Nat → List Byte
  | 0, _ => []
  | fuel + 1, n => if n < 10 then [digitByte n] else decimalDigits fuel (n / 10) ++ [digitByte (n % 10)]

/-- The shortest decimal numeral of a number below 2^32. -/
def unsignedNumeral (n : Nat) : List Byte := decimalDigits 10 n

/-- The shortest decimal numeral of `signed(v)`, with a leading minus sign (2DH) for a negative value (R167). -/
def signedNumeral (v : Word) : List Byte :=
  if v.msb then 0x2D#8 :: unsignedNumeral (2 ^ 32 - v.toNat) else unsignedNumeral v.toNat

/-- `SWI4_FORMAT(v)` (R167). -/
def formatNumber (f : Swi4Format) (v : Word) : List Byte :=
  match f with
  | .signedDecimal => signedNumeral v
  | .unsignedDecimal => unsignedNumeral v.toNat
  | .other k => Config.swi4Other k v

/-- SWI 4, print a number (R167). -/
def swiPutNumber (s : State) : Result := .next (s.print (formatNumber s.swi4Format (s.reg r0))).advance

/-- The service of a number; any other traps to the error handler (R161, R168). -/
def swiService (imm24 : BitVec 24) (s : State) : Result :=
  match imm24.toNat with
  | 0 => swiPutChar s
  | 1 => swiGetChar s
  | 2 => swiHalt s
  | 3 => swiPutString s
  | 4 => swiPutNumber s
  | _ => raise (.swiError imm24 s.pc)

/-- SWI (R160, R161, R169). -/
def execSwi (c : Cond) (imm24 : BitVec 24) (s : State) : Result := perform (.swi c imm24) s (swiService imm24 s)

end Sys2Proof.Machine
end

