-- ==== Sys2Proof/Machine/Dispatch.lean ====
section
/-! DEFINITION. The meaning of every instruction: one arm per constructor of Instr. -/

namespace Sys2Proof.Machine

def exec (i : Instr) (s : State) : Host.Outcome State Fault Refusal :=
  match i with
  | .andImm c sb rn rd rot imm8 => Sys2Proof.Machine.execAndImm c sb rn rd rot imm8 s
  | .andShiftImm c sb rn rd rm sh n => Sys2Proof.Machine.execAndShiftImm c sb rn rd rm sh n s
  | .andShiftReg c sb rn rd rm sh rs => Sys2Proof.Machine.execAndShiftReg c sb rn rd rm sh rs s
  | .eorImm c sb rn rd rot imm8 => Sys2Proof.Machine.execEorImm c sb rn rd rot imm8 s
  | .eorShiftImm c sb rn rd rm sh n => Sys2Proof.Machine.execEorShiftImm c sb rn rd rm sh n s
  | .eorShiftReg c sb rn rd rm sh rs => Sys2Proof.Machine.execEorShiftReg c sb rn rd rm sh rs s
  | .subImm c sb rn rd rot imm8 => Sys2Proof.Machine.execSubImm c sb rn rd rot imm8 s
  | .subShiftImm c sb rn rd rm sh n => Sys2Proof.Machine.execSubShiftImm c sb rn rd rm sh n s
  | .subShiftReg c sb rn rd rm sh rs => Sys2Proof.Machine.execSubShiftReg c sb rn rd rm sh rs s
  | .rsbImm c sb rn rd rot imm8 => Sys2Proof.Machine.execRsbImm c sb rn rd rot imm8 s
  | .rsbShiftImm c sb rn rd rm sh n => Sys2Proof.Machine.execRsbShiftImm c sb rn rd rm sh n s
  | .rsbShiftReg c sb rn rd rm sh rs => Sys2Proof.Machine.execRsbShiftReg c sb rn rd rm sh rs s
  | .addImm c sb rn rd rot imm8 => Sys2Proof.Machine.execAddImm c sb rn rd rot imm8 s
  | .addShiftImm c sb rn rd rm sh n => Sys2Proof.Machine.execAddShiftImm c sb rn rd rm sh n s
  | .addShiftReg c sb rn rd rm sh rs => Sys2Proof.Machine.execAddShiftReg c sb rn rd rm sh rs s
  | .adcImm c sb rn rd rot imm8 => Sys2Proof.Machine.execAdcImm c sb rn rd rot imm8 s
  | .adcShiftImm c sb rn rd rm sh n => Sys2Proof.Machine.execAdcShiftImm c sb rn rd rm sh n s
  | .adcShiftReg c sb rn rd rm sh rs => Sys2Proof.Machine.execAdcShiftReg c sb rn rd rm sh rs s
  | .sbcImm c sb rn rd rot imm8 => Sys2Proof.Machine.execSbcImm c sb rn rd rot imm8 s
  | .sbcShiftImm c sb rn rd rm sh n => Sys2Proof.Machine.execSbcShiftImm c sb rn rd rm sh n s
  | .sbcShiftReg c sb rn rd rm sh rs => Sys2Proof.Machine.execSbcShiftReg c sb rn rd rm sh rs s
  | .rscImm c sb rn rd rot imm8 => Sys2Proof.Machine.execRscImm c sb rn rd rot imm8 s
  | .rscShiftImm c sb rn rd rm sh n => Sys2Proof.Machine.execRscShiftImm c sb rn rd rm sh n s
  | .rscShiftReg c sb rn rd rm sh rs => Sys2Proof.Machine.execRscShiftReg c sb rn rd rm sh rs s
  | .tstImm c rn rot imm8 => Sys2Proof.Machine.execTstImm c rn rot imm8 s
  | .tstShiftImm c rn rm sh n => Sys2Proof.Machine.execTstShiftImm c rn rm sh n s
  | .tstShiftReg c rn rm sh rs => Sys2Proof.Machine.execTstShiftReg c rn rm sh rs s
  | .teqImm c rn rot imm8 => Sys2Proof.Machine.execTeqImm c rn rot imm8 s
  | .teqShiftImm c rn rm sh n => Sys2Proof.Machine.execTeqShiftImm c rn rm sh n s
  | .teqShiftReg c rn rm sh rs => Sys2Proof.Machine.execTeqShiftReg c rn rm sh rs s
  | .cmpImm c rn rot imm8 => Sys2Proof.Machine.execCmpImm c rn rot imm8 s
  | .cmpShiftImm c rn rm sh n => Sys2Proof.Machine.execCmpShiftImm c rn rm sh n s
  | .cmpShiftReg c rn rm sh rs => Sys2Proof.Machine.execCmpShiftReg c rn rm sh rs s
  | .cmnImm c rn rot imm8 => Sys2Proof.Machine.execCmnImm c rn rot imm8 s
  | .cmnShiftImm c rn rm sh n => Sys2Proof.Machine.execCmnShiftImm c rn rm sh n s
  | .cmnShiftReg c rn rm sh rs => Sys2Proof.Machine.execCmnShiftReg c rn rm sh rs s
  | .orrImm c sb rn rd rot imm8 => Sys2Proof.Machine.execOrrImm c sb rn rd rot imm8 s
  | .orrShiftImm c sb rn rd rm sh n => Sys2Proof.Machine.execOrrShiftImm c sb rn rd rm sh n s
  | .orrShiftReg c sb rn rd rm sh rs => Sys2Proof.Machine.execOrrShiftReg c sb rn rd rm sh rs s
  | .movImm c sb rd rot imm8 => Sys2Proof.Machine.execMovImm c sb rd rot imm8 s
  | .movShiftImm c sb rd rm sh n => Sys2Proof.Machine.execMovShiftImm c sb rd rm sh n s
  | .movShiftReg c sb rd rm sh rs => Sys2Proof.Machine.execMovShiftReg c sb rd rm sh rs s
  | .bicImm c sb rn rd rot imm8 => Sys2Proof.Machine.execBicImm c sb rn rd rot imm8 s
  | .bicShiftImm c sb rn rd rm sh n => Sys2Proof.Machine.execBicShiftImm c sb rn rd rm sh n s
  | .bicShiftReg c sb rn rd rm sh rs => Sys2Proof.Machine.execBicShiftReg c sb rn rd rm sh rs s
  | .mvnImm c sb rd rot imm8 => Sys2Proof.Machine.execMvnImm c sb rd rot imm8 s
  | .mvnShiftImm c sb rd rm sh n => Sys2Proof.Machine.execMvnShiftImm c sb rd rm sh n s
  | .mvnShiftReg c sb rd rm sh rs => Sys2Proof.Machine.execMvnShiftReg c sb rd rm sh rs s
  | .mul c sb rd rs rm => Sys2Proof.Machine.execMul c sb rd rs rm s
  | .mla c sb rd rn rs rm => Sys2Proof.Machine.execMla c sb rd rn rs rm s
  | .ldrImm c ix up rn rd imm12 => Sys2Proof.Machine.execLdrImm c ix up rn rd imm12 s
  | .ldrReg c ix up rn rd rm sh n => Sys2Proof.Machine.execLdrReg c ix up rn rd rm sh n s
  | .ldrbImm c ix up rn rd imm12 => Sys2Proof.Machine.execLdrbImm c ix up rn rd imm12 s
  | .ldrbReg c ix up rn rd rm sh n => Sys2Proof.Machine.execLdrbReg c ix up rn rd rm sh n s
  | .strImm c ix up rn rd imm12 => Sys2Proof.Machine.execStrImm c ix up rn rd imm12 s
  | .strReg c ix up rn rd rm sh n => Sys2Proof.Machine.execStrReg c ix up rn rd rm sh n s
  | .strbImm c ix up rn rd imm12 => Sys2Proof.Machine.execStrbImm c ix up rn rd imm12 s
  | .strbReg c ix up rn rd rm sh n => Sys2Proof.Machine.execStrbReg c ix up rn rd rm sh n s
  | .b c off => Sys2Proof.Machine.execB c off s
  | .bl c off => Sys2Proof.Machine.execBl c off s
  | .swi c imm24 => Sys2Proof.Machine.execSwi c imm24 s

end Sys2Proof.Machine
end

