-- ==== Sys2Proof/Machine/Fetch.lean ====
section
/-! DEFINITION. The instruction fetch (spec/20_memory.md R40, R45) and the loading of a program from outside
(spec/70_reset_and_hazards.md R252). -/

namespace Sys2Proof.Machine

/-- The fetch of the word at the pc (R45): first the check of `dirty`, then of MEM_VALID. The pc is always a multiple
of 4 (R14, R32); at any other the fetch is refused (log entry 18). -/
def fetch (s : State) : Except Stop Word :=
  if s.pc.toNat % 4 = 0 then
    if s.dirty.contains (wordAddress s.pc) then .error (.refusal (.fetchOfModifiedWord s.pc))
    else
      match s.firstInvalid 4 s.pc with
      | some _ => .error (.fault (.memFault s.pc .fetch s.pc))
      | none => .ok (s.readWord s.pc)
  else .error (.refusal (.pcMisaligned s.pc))

/-- Bytes loaded from outside, in order: no word is marked dirty (R252). -/
def State.loadImage (s : State) (image : List Host.Cell) : State :=
  { s with mem := image.foldl (fun m x => Memory.insert m x.1 x.2) s.mem }

/-- The word `w` loaded at the pc, so that the next fetch reads it: the four bytes are put into memory, their word is
taken out of `dirty`, the four addresses are in MEM_VALID, and the machine is not halted. -/
def State.placeInstruction (s : State) (w : Word) : State :=
  let t := s.putWord s.pc w
  { t with
    dirty := s.dirty.filter (fun a => a != wordAddress s.pc)
    memValid := if s.firstInvalid 4 s.pc = none then s.memValid else { base := s.pc.toNat, size := 4 } :: s.memValid
    halted := false }

end Sys2Proof.Machine
end

