-- ==== Sys2Proof/Machine/Step.lean ====
section
/-! DEFINITION. One step of the machine (spec/40_conditions.md R81, R86), and the state in which a given instruction
is the next one fetched. -/

namespace Sys2Proof.Machine

/-- One step (R86): the fetch, the decoding, the instruction. A halted machine takes no step (R23, R81): its state
does not change (log entry 9). -/
def step (s : State) : Host.Outcome State Fault Refusal :=
  if s.halted then .next s
  else
    match fetch s with
    | .error e => e.outcome
    | .ok w =>
      match decode w with
      | .error r => .refused (decodeOutcome r w)
      | .ok i => exec i s

/-- The state with an instruction placed where the next step fetches: its four bytes loaded at the pc, which must be
valid memory that no store has touched, on a machine that is not halted. -/
def State.withFetchWord (s : State) (nbits w : Nat) : State := s.placeInstruction (tableWord nbits w)

end Sys2Proof.Machine
end

