-- ==== Sys2Proof/Machine/Assembler.lean ====
section
/-! DEFINITION. The canonical encoding of an assembly line (spec/30_encoding.md R69, over the forms of R66 and R67):
the one word of the spec's encoder for each line. `encode` writes the fields an instruction has, whatever they are;
here a line, in which a constant is a value and a register, a condition or an offset may stand plain or be left out,
gets the fields that R69 chooses for it. A line is taken as structure; its spelling is no part of the model. -/

namespace Sys2Proof

/-! ### Assembly lines -/

/-- `<Op2>` (R67). -/
inductive SourceOperand2 where
  /-- `#<constant>`. -/
  | constant (v : Word)
  /-- `Rm`. -/
  | register (rm : Reg)
  /-- `Rm, <sh> #<n>`. -/
  | shifted (rm : Reg) (sh : ShiftType) (n : Nat)
  /-- `Rm, RRX`. -/
  | rrx (rm : Reg)
  /-- `Rm, <sh> Rs`. -/
  | byRegister (rm : Reg) (sh : ShiftType) (rs : Reg)
  deriving DecidableEq, Repr

/-- The offset written in an `<address>` (R67), without its sign. -/
inductive SourceOffset where
  /-- `#<imm12>`. -/
  | constant (n : Nat)
  /-- `Rm`. -/
  | register (rm : Reg)
  /-- `Rm, <sh> #<n>`. -/
  | shifted (rm : Reg) (sh : ShiftType) (n : Nat)
  deriving DecidableEq, Repr

/-- `<address>` (R67). -/
inductive SourceAddress where
  /-- `[Rn]`. -/
  | base (rn : Reg)
  /-- `[Rn, <offset>]`, `[Rn, <offset>]!` or `[Rn], <offset>`, as `ix` says; `up` for the sign plus. -/
  | indexed (ix : Indexing) (rn : Reg) (up : Bool) (off : SourceOffset)
  deriving DecidableEq, Repr

/-- An assembly line (R67), operands in the order in which they are written; `suffix` is the condition suffix and
`sb` whether the S suffix is present. -/
inductive SourceLine where
  /-- `<op>{cond}{S} Rd, Rn, <Op2>`. -/
  | write (op : WriteOp) (suffix : Option Cond) (sb : Bool) (rd rn : Reg) (o2 : SourceOperand2)
  /-- `<op>{cond}{S} Rd, <Op2>`. -/
  | move (op : MoveOp) (suffix : Option Cond) (sb : Bool) (rd : Reg) (o2 : SourceOperand2)
  /-- `<op>{cond} Rn, <Op2>`. -/
  | test (op : TestOp) (suffix : Option Cond) (rn : Reg) (o2 : SourceOperand2)
  /-- `MUL{cond}{S} Rd, Rm, Rs`. -/
  | mul (suffix : Option Cond) (sb : Bool) (rd rm rs : Reg)
  /-- `MLA{cond}{S} Rd, Rm, Rs, Rn`. -/
  | mla (suffix : Option Cond) (sb : Bool) (rd rm rs rn : Reg)
  /-- `LDR{cond}{B} Rd, <address>`, `STR{cond}{B} Rd, <address>`. -/
  | transfer (op : TransferOp) (suffix : Option Cond) (rd : Reg) (addr : SourceAddress)
  /-- `B{cond} <label>`, `BL{cond} <label>`; the label as the address it stands for. -/
  | branch (op : BranchOp) (suffix : Option Cond) (label : Word)
  /-- `SWI{cond} <number>`. -/
  | swi (suffix : Option Cond) (number : Nat)
  deriving DecidableEq, Repr

/-! ### The constants -/

/-- The constant that the fields `rot` and `imm8` stand for (R61, R107). -/
def fieldConstant (rot : BitVec 4) (imm8 : BitVec 8) : Word := (imm8.setWidth 32).rotateRight (2 * rot.toNat)

/-- The immediate that gives the constant `v` with the rotation `r`, if one does: `v` rotated back fits in 8 bits. -/
def immediateFor (v : Word) (r : Nat) : Option (BitVec 8) :=
  if (v.rotateLeft (2 * r)).toNat < 2 ^ 8 then some ((v.rotateLeft (2 * r)).setWidth 8) else none

/-- The smallest `rot` with which `v` is a constant of the immediate form, and its `imm8` (R69); none for a constant
that no field combination gives (R107). -/
def smallestRotation (v : Word) : Option (BitVec 4 × BitVec 8) :=
  (List.range 16).findSome? fun r => (immediateFor v r).map fun imm8 => (BitVec.ofNat 4 r, imm8)

/-! ### The assembler -/

/-- The field `shift5` of a written shift length, of those R67 allows: LSL 0 to 31, LSR and ASR 1 to 32, ROR 1 to 31,
a length of 32 as 0. -/
def shiftField (sh : ShiftType) (n : Nat) : Option (BitVec 5) :=
  match sh with
  | .lsl => if n < 32 then some (BitVec.ofNat 5 n) else none
  | .lsr => if 1 ≤ n ∧ n ≤ 32 then some (BitVec.ofNat 5 n) else none
  | .asr => if 1 ≤ n ∧ n ≤ 32 then some (BitVec.ofNat 5 n) else none
  | .ror => if 1 ≤ n ∧ n < 32 then some (BitVec.ofNat 5 n) else none

/-- The fields of `<Op2>` (R67, R69): the smallest rotation of a constant, a plain register as LSL by 0, RRX as ROR by
the field 0 (R103). -/
def SourceOperand2.assemble : SourceOperand2 → Option Operand2
  | .constant v => (smallestRotation v).map fun p => .imm p.1 p.2
  | .register rm => some (.shiftImm rm .lsl 0)
  | .shifted rm sh n => (shiftField sh n).map (.shiftImm rm sh)
  | .rrx rm => some (.shiftImm rm .ror 0)
  | .byRegister rm sh rs => some (.shiftReg rm sh rs)

/-- The fields of an offset (R67): a constant of 12 bits, a plain register as LSL by 0. -/
def SourceOffset.assemble : SourceOffset → Option Offset
  | .constant n => if n < 2 ^ 12 then some (.imm (BitVec.ofNat 12 n)) else none
  | .register rm => some (.reg rm .lsl 0)
  | .shifted rm sh n => (shiftField sh n).map (.reg rm sh)

/-- The load or store of an `<address>` (R67, R69): no offset as P = 1, U = 1, W = 0, imm12 = 0. -/
def SourceAddress.assemble (op : TransferOp) (c : Cond) (rd : Reg) : SourceAddress → Option Shape
  | .base rn => some (.transfer op c .offset true rn rd (.imm 0))
  | .indexed ix rn up off => off.assemble.map (.transfer op c ix up rn rd)

/-- `offset24` of a branch at address `a` to the label `t` (R67, R155): both are multiples of 4, and the distance from
`a + 8` is in range. The distance is the difference of the addresses as integers, so that a label reached only across
an end of the address space has no offset, though an offset of R151 leads there (DESIGN CHOICE, log entry 24, unsafe
for claims that such a line is rejected). -/
def branchOffset (a t : Word) : Option (BitVec 24) :=
  let d : Int := (t.toNat : Int) - (a.toNat + 8)
  if a.toNat % 4 = 0 ∧ t.toNat % 4 = 0 ∧ -2 ^ 25 ≤ d ∧ d ≤ 2 ^ 25 - 4 then some (BitVec.ofInt 24 (d / 4)) else none

/-- The condition of a suffix: AL when there is none (R69, R85). -/
def suffixCond (suffix : Option Cond) : Cond := suffix.getD .al

/-- The instruction that the line assembles to at address `a`, before the static refusals; none where the line has to
be rejected (R107, R155) or an operand is outside what R67 allows (DEDUCED, log entry 23, unsafe for
claims that such a line is rejected). -/
def SourceLine.assemble (a : Word) : SourceLine → Option Instr
  | .write op c sb rd rn o2 => o2.assemble.map fun x => Shape.instr (.write op (suffixCond c) sb rn rd x)
  | .move op c sb rd o2 => o2.assemble.map fun x => Shape.instr (.move op (suffixCond c) sb rd x)
  | .test op c rn o2 => o2.assemble.map fun x => Shape.instr (.test op (suffixCond c) rn x)
  | .mul c sb rd rm rs => some (Shape.instr (.mul (suffixCond c) sb rd rs rm))
  | .mla c sb rd rm rs rn => some (Shape.instr (.mla (suffixCond c) sb rd rn rs rm))
  | .transfer op c rd addr => (addr.assemble op (suffixCond c) rd).map Shape.instr
  | .branch op c t => (branchOffset a t).map fun off => Shape.instr (.branch op (suffixCond c) off)
  | .swi c n => if n < 2 ^ 24 then some (Shape.instr (.swi (suffixCond c) (BitVec.ofNat 24 n))) else none

/-- THE CANONICAL ENCODING (R69): the one word of the line at address `a`. -/
def SourceLine.canonicalWord (a : Word) (l : SourceLine) : Option Word := (l.assemble a).map encode

end Sys2Proof
end

