-- ==== Sys2Proof/Safety.lean ====
section
/-! DEFINITION. What the statements call a good state, a run, and the ways a run goes (spec/10_state.md R14, R20, R23;
spec/70_reset_and_hazards.md R254), the Effect column of R112 with the flags of R110 and R111 in the terms the spec
states them, and the parts of an assembly line that R69 speaks of. -/

namespace Sys2Proof

/-! ### The Effect column of R112 -/

/-- The flag C as a word, 0 or 1. -/
def carryWord (c : Bool) : Word := if c then 1#32 else 0#32

/-- The value Rd receives, from Rn, Op2 and the flag C before the instruction (R112). -/
def WriteOp.effect (op : WriteOp) (a b : Word) (c : Bool) : Word :=
  match op with
  | .and => a &&& b
  | .eor => a ^^^ b
  | .sub => a - b
  | .rsb => b - a
  | .add => a + b
  | .adc => a + b + carryWord c
  | .sbc => a - b + carryWord c - 1#32
  | .rsc => b - a + carryWord c - 1#32
  | .orr => a ||| b
  | .bic => a &&& ~~~b

/-- The value Rd receives from Op2 (R112). -/
def MoveOp.effect (op : MoveOp) (b : Word) : Word :=
  match op with
  | .mov => b
  | .mvn => ~~~b

/-- The value whose flags a compare sets (R112). -/
def TestOp.effect (op : TestOp) (a b : Word) : Word :=
  match op with
  | .tst => a &&& b
  | .teq => a ^^^ b
  | .cmp => a - b
  | .cmn => a + b

/-- The logical instructions of R110 among those with operands Rd, Rn and Op2. -/
def WriteOp.isLogical : WriteOp → Bool
  | .and => true | .eor => true | .orr => true | .bic => true
  | .sub => false | .rsb => false | .add => false | .adc => false | .sbc => false | .rsc => false

namespace Machine

/-- N and Z of a result, C the shifter's carry-out, V unchanged (R110). -/
def logicalFlags (r : Word) (sc : Bool) (f : Flags) : Flags := { n := r.msb, z := decide (r = 0#32), c := sc, v := f.v }

/-- The flags of the sum of `a`, `b` and a carry: C is the carry out of bit 31, V says that the signed sum does not
fit in 32 bits (R111). -/
def sumFlags (r a b : Word) (cin : Bool) : Flags where
  n := r.msb
  z := decide (r = 0#32)
  c := decide (2 ^ 32 ≤ a.toNat + b.toNat + cin.toNat)
  v := decide (r.toInt ≠ a.toInt + b.toInt + cin.toNat)

/-- The flags of the difference of `a` and `b`, less one when the carry is 0: C says that no borrow occurred, V that
the signed difference does not fit in 32 bits (R111). -/
def differenceFlags (r a b : Word) (cin : Bool) : Flags where
  n := r.msb
  z := decide (r = 0#32)
  c := decide (b.toNat + 1 ≤ a.toNat + cin.toNat)
  v := decide (r.toInt ≠ a.toInt - b.toInt + cin.toNat - 1)

end Machine

open Machine in
/-- The flags of an instruction with S = 1 from Rn, Op2, the shifter's carry-out and the flags before (R110, R111). -/
def WriteOp.flags (op : WriteOp) (a b : Word) (sc : Bool) (f : Flags) : Flags :=
  match op with
  | .and => logicalFlags (a &&& b) sc f
  | .eor => logicalFlags (a ^^^ b) sc f
  | .sub => differenceFlags (a - b) a b true
  | .rsb => differenceFlags (b - a) b a true
  | .add => sumFlags (a + b) a b false
  | .adc => sumFlags (a + b + carryWord f.c) a b f.c
  | .sbc => differenceFlags (a - b + carryWord f.c - 1#32) a b f.c
  | .rsc => differenceFlags (b - a + carryWord f.c - 1#32) b a f.c
  | .orr => logicalFlags (a ||| b) sc f
  | .bic => logicalFlags (a &&& ~~~b) sc f

/-! ### What an instruction may change -/

/-- Whether the instruction writes the flags when it executes (R16). -/
def Instr.setsFlags (i : Instr) : Bool :=
  match i.shape with
  | .write _ _ sb _ _ _ => sb
  | .move _ _ sb _ _ => sb
  | .test _ _ _ _ => true
  | .mul _ sb _ _ _ => sb
  | .mla _ sb _ _ _ _ => sb
  | .transfer _ _ _ _ _ _ _ => false
  | .branch _ _ _ => false
  | .swi _ _ => false

/-- The base register of a load or store with write-back (R184). -/
def Indexing.writtenBase (ix : Indexing) (rn : Reg) : List Reg := if ix.writesBase then [rn] else []

/-- The registers the instruction may write when it executes (R12, R113, R152, R161, R185, R214, R215). -/
def Instr.writesRegs (i : Instr) : List Reg :=
  match i.shape with
  | .write _ _ _ _ rd _ => [rd]
  | .move _ _ _ rd _ => [rd]
  | .test _ _ _ _ => []
  | .mul _ _ rd _ _ => [rd]
  | .mla _ _ rd _ _ _ => [rd]
  | .transfer .ldr _ ix _ rn rd _ => rd :: ix.writtenBase rn
  | .transfer .ldrb _ ix _ rn rd _ => rd :: ix.writtenBase rn
  | .transfer .str _ ix _ rn _ _ => ix.writtenBase rn
  | .transfer .strb _ ix _ rn _ _ => ix.writtenBase rn
  | .branch .b _ _ => []
  | .branch .bl _ _ => [linkReg]
  | .swi _ imm24 => if imm24 = 1#24 then [r0] else []

/-- Whether the instruction stores to memory when it executes (R192, R193). -/
def Instr.stores (i : Instr) : Bool :=
  match i.shape with
  | .write _ _ _ _ _ _ => false
  | .move _ _ _ _ _ => false
  | .test _ _ _ _ => false
  | .mul _ _ _ _ _ => false
  | .mla _ _ _ _ _ _ => false
  | .transfer .ldr _ _ _ _ _ _ => false
  | .transfer .ldrb _ _ _ _ _ _ => false
  | .transfer .str _ _ _ _ _ _ => true
  | .transfer .strb _ _ _ _ _ _ => true
  | .branch _ _ _ => false
  | .swi _ _ => false

/-! ### The parts of an assembly line that R69 speaks of -/

/-- The condition suffix of a line. -/
def SourceLine.suffix : SourceLine → Option Cond
  | .write _ c _ _ _ _ => c
  | .move _ c _ _ _ => c
  | .test _ c _ _ => c
  | .mul c _ _ _ _ => c
  | .mla c _ _ _ _ _ => c
  | .transfer _ c _ _ => c
  | .branch _ c _ => c
  | .swi c _ => c

/-- The bit S that a line asks for, where its format has one: that the S suffix is present, and 1 for a compare. -/
def SourceLine.sBit : SourceLine → Option Bool
  | .write _ _ sb _ _ _ => some sb
  | .move _ _ sb _ _ => some sb
  | .test _ _ _ _ => some true
  | .mul _ sb _ _ _ => some sb
  | .mla _ sb _ _ _ _ => some sb
  | .transfer _ _ _ _ => none
  | .branch _ _ _ => none
  | .swi _ _ => none

/-- `<Op2>` of a line that has one. -/
def SourceLine.op2 : SourceLine → Option SourceOperand2
  | .write _ _ _ _ _ o2 => some o2
  | .move _ _ _ _ o2 => some o2
  | .test _ _ _ o2 => some o2
  | .mul _ _ _ _ _ => none
  | .mla _ _ _ _ _ _ => none
  | .transfer _ _ _ _ => none
  | .branch _ _ _ => none
  | .swi _ _ => none

/-- `<address>` of a line that has one. -/
def SourceLine.address : SourceLine → Option SourceAddress
  | .write _ _ _ _ _ _ => none
  | .move _ _ _ _ _ => none
  | .test _ _ _ _ => none
  | .mul _ _ _ _ _ => none
  | .mla _ _ _ _ _ _ => none
  | .transfer _ _ _ addr => some addr
  | .branch _ _ _ => none
  | .swi _ _ => none

/-- The register `rm` stands plain, without a shift, as the line's `<Op2>` or offset. -/
def SourceLine.HasPlainRegister (l : SourceLine) (rm : Reg) : Prop :=
  l.op2 = some (.register rm) ∨ ∃ ix rn up, l.address = some (.indexed ix rn up (.register rm))

end Sys2Proof

namespace Sys2Proof.Machine

/-! ### States and runs -/

/-- The canonical form of `dirty`: strictly rising word addresses (R20, R33). -/
abbrev dirtyWf (d : List Nat) : Prop := d.Pairwise (· < ·) ∧ ∀ a ∈ d, a % 4 = 0 ∧ a < 2 ^ 32

/-- What holds of the state at reset and after every step. -/
structure State.Good (s : State) : Prop where
  /-- The memory listing is in its canonical form. -/
  memory : s.mem.wf
  /-- Every listed byte is at an address of MEM_VALID (R19, R252). -/
  listedValid : ∀ x ∈ s.mem, s.isValid (BitVec.ofNat 32 x.1) = true
  /-- The set `dirty` is in its canonical form, a set of word addresses. -/
  dirty : dirtyWf s.dirty
  /-- The pc is a multiple of 4 (R14). -/
  pcAligned : s.pc.toNat % 4 = 0
  /-- No more characters have been consumed than were typed (R164). -/
  inputConsumed : s.inpos ≤ s.input.length

/-- SWI 1 is waiting for a character that has not been typed (R164, R254). -/
def State.waits (s : State) : Prop := s.input[s.inpos]? = none

/-- The word `w` is refused at decode: the decoder refuses it for the reason `r`, and a step that fetches it is refused
as `q`, whatever the flags, before any condition is evaluated (R62, R86 step 2). -/
def RefusedAtDecode (w : Word) (r : DecodeRefusal) (q : Refusal) : Prop :=
  decode w = .error r ∧ ∀ s : State, s.halted = false → fetch s = .ok w → step s = .refused q

/-- `Reaches s t`: some number of steps, each answering a next state, leads from `s` to `t`. -/
inductive Reaches (s : State) : State → Prop where
  | refl : Reaches s s
  | tail {t u : State} (h : Reaches s t) (hs : step t = .next u) : Reaches s u

end Sys2Proof.Machine
end

