-- ==== Sys2Proof/Certificates/Slice0/Obligations.lean ====
section
/-! DEFINITION. The statements for the provers. In each, "the row" of an instruction is a constructor of `Instr`; a
statement over `Shape.instr (.write op …)` covers the three constructors of each operation, one for each form of
`o2`. "Log entry n" is notes/assumptions/n.md. -/

open Sys2Proof Sys2Proof.Machine

/-! ### Encoding and decoding -/

/-- R53 to R60, R62: decoding the word that the encoder writes for a well-formed instruction gives the instruction back,
for every row and every value of every operand. -/
def Obligations.DecodeOfEncodeIsTheInstruction : Prop :=
  ∀ i : Instr, WellFormed i → decode (encode i) = .ok i

/-- R62 step 4: what the decoder accepts is well formed. -/
def Obligations.DecodedInstructionsAreWellFormed : Prop :=
  ∀ (w : Word) (i : Instr), decode w = .ok i → WellFormed i

/-- R64: a word that decodes is the word the encoder writes for its instruction, when the fields the instruction ignores
are zero: outside those fields no two words decode to one instruction. R69, R107: the canonical word of an assembly line
(`SourceLine.canonicalWord`) has the condition 1110 without a suffix, S as the suffix says and 1 for a compare, ignored
fields 0000, a plain register unshifted, a constant with the smallest `rot` that gives it, and no offset as P = 1,
U = 1, W = 0, imm12 = 0; a line is rejected for its constant exactly when no fields give the constant. -/
def Obligations.EncodeRecoversTheDecodedWord : Prop :=
  (∀ (w : Word) (i : Instr), decode w = .ok i → i.ignoredFieldsZero w → encode i = w) ∧
  ∀ (a : Word) (l : SourceLine),
    (∀ w : Word, l.canonicalWord a = some w →
      (l.suffix = none → w.extractLsb' 28 4 = 0b1110#4) ∧
      (∀ sb, l.sBit = some sb → w.getLsbD 20 = sb) ∧
      (∃ i, l.assemble a = some i ∧ w = encode i ∧ i.ignoredFieldsZero w) ∧
      (∀ rm, l.HasPlainRegister rm →
        w.extractLsb' 7 5 = 0b00000#5 ∧ w.extractLsb' 5 2 = 0b00#2 ∧ w.getLsbD 4 = false ∧ regField w 0 = rm) ∧
      (∀ v, l.op2 = some (.constant v) → w.extractLsb' 25 3 = 0b001#3 ∧
        ∀ s, (shifterOperand s (operand2Imm w)).value = v ∧
          ∀ rot imm8, (shifterOperand s (.imm rot imm8)).value = v → (w.extractLsb' 8 4).toNat ≤ rot.toNat) ∧
      (∀ rn, l.address = some (.base rn) → w.extractLsb' 25 3 = 0b010#3 ∧ w.getLsbD 24 = true ∧
        w.getLsbD 23 = true ∧ w.getLsbD 21 = false ∧ regField w 16 = rn ∧ w.extractLsb' 0 12 = 0#12)) ∧
    ∀ v, l.op2 = some (.constant v) →
      (l.canonicalWord a = none ↔ ∀ s rot imm8, (shifterOperand s (.imm rot imm8)).value ≠ v)

/-- R62, spec/opcode_table.json: a word that decodes selects, by match and mask, the table's row of its instruction,
and its bits 31:28 are the instruction's condition. -/
def Obligations.DecodedWordsSelectTheirTableRow : Prop :=
  ∀ (w : Word) (i : Instr), decode w = .ok i →
    i.row.selects w = true ∧ i.row ∈ opcodeRows ∧ w.extractLsb' 28 4 = i.cond.bits

/-- R62, spec/opcode_table.json: the 61 rows are pairwise disjoint. -/
def Obligations.OpcodeTableRowsAreDisjoint : Prop :=
  opcodeRows.length = 61 ∧
    opcodeRows.Pairwise (fun r t => ∀ w : Word, ¬ (r.selects w = true ∧ t.selects w = true))

/-- Words written out from the spec's encodings (spec/95_test_vectors.md), one of each format, and one with a field
that the instruction ignores. -/
def Obligations.SampleWordsDecode : Prop :=
  decode 0xE20210FF#32 = .ok (.andImm .al false 2 1 0 0xFF) ∧
  decode 0xE0800100#32 = .ok (.addShiftImm .al false 0 0 0 .lsl 2) ∧
  decode 0xE1A00211#32 = .ok (.movShiftReg .al false 0 1 .lsl 2) ∧
  decode 0xE3520000#32 = .ok (.cmpImm .al 2 0 0) ∧
  decode 0xE0203291#32 = .ok (.mla .al false 0 3 2 1) ∧
  decode 0xE0007291#32 = .ok (.mul .al false 0 2 1) ∧
  decode 0xE5B10004#32 = .ok (.ldrImm .al .preWriteback true 1 0 4) ∧
  decode 0xE7010002#32 = .ok (.strReg .al .offset false 1 0 2 .lsl 0) ∧
  decode 0x1AFFFFFC#32 = .ok (.b .ne 0xFFFFFC) ∧
  decode 0xEB000003#32 = .ok (.bl .al 3) ∧
  decode 0xEF000004#32 = .ok (.swi .al 4)

/-- R84: a word with condition 1111 is refused at decode, before any condition is evaluated. -/
def Obligations.ReservedConditionIsRefused : Prop :=
  ∀ w : Word, w.extractLsb' 28 4 = 0xF#4 → RefusedAtDecode w .condReserved (.condReserved w)

/-- R52, R63, R114: a word with a usable condition that is in no format, or is a compare with S = 0, is refused at
decode. -/
def Obligations.UnlistedEncodingsAreRefused : Prop :=
  ∀ w : Word, w.extractLsb' 28 4 ≠ 0xF#4 →
    ((w.extractLsb' 25 3 = 0b100#3 ∨ w.extractLsb' 25 3 = 0b110#3) ∨
      (w.extractLsb' 25 3 = 0b000#3 ∧ w.getLsbD 4 = true ∧ w.getLsbD 7 = true ∧
        ¬ (w.extractLsb' 4 4 = 0b1001#4 ∧ w.extractLsb' 22 3 = 0b000#3)) ∨
      (w.extractLsb' 25 3 = 0b011#3 ∧ w.getLsbD 4 = true) ∨
      (w.extractLsb' 25 3 = 0b111#3 ∧ w.getLsbD 24 = false) ∨
      (w.extractLsb' 26 2 = 0b00#2 ∧ (w.getLsbD 25 = true ∨ w.getLsbD 4 = false ∨ w.getLsbD 7 = false) ∧
        w.extractLsb' 23 2 = 0b10#2 ∧ w.getLsbD 20 = false)) →
    RefusedAtDecode w .notInHandout (.notInHandout w)

/-- R186: a load or store with P = 0 and W = 1 is refused at decode. -/
def Obligations.PostIndexedWithWBitIsRefused : Prop :=
  ∀ w : Word, w.extractLsb' 28 4 ≠ 0xF#4 → w.extractLsb' 26 2 = 0b01#2 →
    w.getLsbD 24 = false → w.getLsbD 21 = true → RefusedAtDecode w .notInHandout (.notInHandout w)

/-- R108, R109: 1111 in any register field of a data processing word in the register-shift form is refused, and so is
1111 in the Rd field with S = 1 in the two other forms, for all sixteen operations (the compares with S = 0, which are
in no format, apart). The clause takes R108 to cover the ignored Rn field of MOV and MVN: log entry 15. -/
def Obligations.PcFieldsOfDataProcessingAreRefused : Prop :=
  ∀ w : Word, w.extractLsb' 28 4 ≠ 0xF#4 → w.extractLsb' 26 2 = 0b00#2 →
    ¬ (w.extractLsb' 23 2 = 0b10#2 ∧ w.getLsbD 20 = false) →
    (w.getLsbD 25 = false → w.getLsbD 4 = true → w.getLsbD 7 = false →
      (w.extractLsb' 16 4 = 0xF#4 ∨ w.extractLsb' 12 4 = 0xF#4 ∨ w.extractLsb' 8 4 = 0xF#4 ∨
        w.extractLsb' 0 4 = 0xF#4) →
      RefusedAtDecode w (.static .r15InRegShiftForm) (.r15InRegShiftForm w)) ∧
    ((w.getLsbD 25 = true ∨ w.getLsbD 4 = false) → w.getLsbD 20 = true → w.extractLsb' 12 4 = 0xF#4 →
      RefusedAtDecode w (.static .r15DestWithS) (.r15DestWithS w))

/-- R187, R188, in the order of R222: which loads and stores are refused for their registers; every other one, of
every row, is well formed. -/
def Obligations.LoadStoreRegisterRestrictions : Prop :=
  ∀ (op : TransferOp) (c : Cond) (ix : Indexing) (up : Bool) (rn rd : Reg) (off : Offset) (pcCase clash : Prop),
    (pcCase ↔ (ix ≠ .offset ∧ rn = 15) ∨ (∃ sh n, off = .reg 15 sh n) ∨ (op ≠ .ldr ∧ rd = 15)) →
    (clash ↔ ix ≠ .offset ∧ (rd = rn ∨ ∃ sh n, off = .reg rn sh n)) →
    (pcCase → (Shape.instr (.transfer op c ix up rn rd off)).staticRefusal = some .r15InLoadStore) ∧
    (¬ pcCase → clash →
      (Shape.instr (.transfer op c ix up rn rd off)).staticRefusal = some .writebackRegisterClash) ∧
    (¬ pcCase → ¬ clash → WellFormed (Shape.instr (.transfer op c ix up rn rd off)))

/-- R212: of the words in the multiply format, exactly those with 1111 in a used register field or Rd = Rm are refused;
every other one is a MUL or MLA of its fields. -/
def Obligations.MultiplyRegisterRestriction : Prop :=
  ∀ (w : Word) (c : Cond) (restricted : Prop), Cond.ofBits (w.extractLsb' 28 4) = some c →
    w.extractLsb' 22 6 = 0b000000#6 → w.extractLsb' 4 4 = 0b1001#4 →
    (restricted ↔ regField w 16 = 15 ∨ regField w 0 = 15 ∨ regField w 8 = 15 ∨
      (w.getLsbD 21 = true ∧ regField w 12 = 15) ∨ regField w 16 = regField w 0) →
    (restricted → RefusedAtDecode w (.static .multiplyRegister) (.multiplyRegister w)) ∧
    (¬ restricted → w.getLsbD 21 = true →
      decode w = .ok (.mla c (w.getLsbD 20) (regField w 16) (regField w 12) (regField w 8) (regField w 0))) ∧
    (¬ restricted → w.getLsbD 21 = false →
      decode w = .ok (.mul c (w.getLsbD 20) (regField w 16) (regField w 8) (regField w 0)))

/-- The model's choice, log entry 17: on an instruction that is not well formed, which no word decodes to, `exec`
answers the refusal that the decoder gives the instruction's own word (R86 step 2: whether or not the condition
passes). -/
def Obligations.IllFormedInstructionsAreRefusedAlike : Prop :=
  ∀ (i : Instr) (r : StaticRefusal) (s : State), i.staticRefusal = some r →
    decode (encode i) = .error (.static r) ∧ exec i s = .refused (staticOutcome r (encode i))

/-! ### The step -/

/-- R81, R86: on a machine that is not halted, with the pc a multiple of 4, at four valid bytes of a word no store has
touched, which decode to an instruction, the step is that instruction. -/
def Obligations.StepRunsTheDecodedInstruction : Prop :=
  ∀ (s : State) (i : Instr), s.halted = false → s.pc.toNat % 4 = 0 → s.pc.toNat ∉ s.dirty →
    s.isValid s.pc = true → s.isValid (s.pc + 1#32) = true → s.isValid (s.pc + 2#32) = true →
    s.isValid (s.pc + 3#32) = true →
    decode (wordOfBytes (s.readByte s.pc) (s.readByte (s.pc + 1#32)) (s.readByte (s.pc + 2#32))
      (s.readByte (s.pc + 3#32))) = .ok i →
    step s = exec i s

/-- R45: at a pc that is a multiple of 4 the fetch checks first whether the word was stored to, then whether its four
bytes are valid; else it reads the word, little-endian. -/
def Obligations.FetchChecksInOrder : Prop :=
  ∀ s : State, s.halted = false → s.pc.toNat % 4 = 0 →
    (s.pc.toNat ∈ s.dirty → step s = .refused (.fetchOfModifiedWord s.pc)) ∧
    (s.pc.toNat ∉ s.dirty →
      (s.isValid s.pc = false ∨ s.isValid (s.pc + 1#32) = false ∨ s.isValid (s.pc + 2#32) = false ∨
        s.isValid (s.pc + 3#32) = false) →
      step s = .fault (.memFault s.pc .fetch s.pc)) ∧
    (s.pc.toNat ∉ s.dirty →
      (s.isValid s.pc = true ∧ s.isValid (s.pc + 1#32) = true ∧ s.isValid (s.pc + 2#32) = true ∧
        s.isValid (s.pc + 3#32) = true) →
      fetch s = .ok (wordOfBytes (s.readByte s.pc) (s.readByte (s.pc + 1#32)) (s.readByte (s.pc + 2#32))
        (s.readByte (s.pc + 3#32))))

/-- R23: after the halt no state changes. That a halted machine's step answers its own state is the model's choice, log
entry 9. -/
def Obligations.HaltedMachineStandsStill : Prop :=
  ∀ s : State, s.halted = true → step s = .next s

/-! ### Conditions -/

/-- R82: the condition of each code, and the flags under which it passes; 1111 is no condition; each odd code is the
negation of the even code before it, for codes 0000 to 1101. -/
def Obligations.ConditionCodesFollowTheTable : Prop :=
  (Cond.ofBits 0b0000#4 = some .eq ∧ ∀ f, condPassed .eq f = true ↔ f.z = true) ∧
  (Cond.ofBits 0b0001#4 = some .ne ∧ ∀ f, condPassed .ne f = true ↔ f.z = false) ∧
  (Cond.ofBits 0b0010#4 = some .cs ∧ ∀ f, condPassed .cs f = true ↔ f.c = true) ∧
  (Cond.ofBits 0b0011#4 = some .cc ∧ ∀ f, condPassed .cc f = true ↔ f.c = false) ∧
  (Cond.ofBits 0b0100#4 = some .mi ∧ ∀ f, condPassed .mi f = true ↔ f.n = true) ∧
  (Cond.ofBits 0b0101#4 = some .pl ∧ ∀ f, condPassed .pl f = true ↔ f.n = false) ∧
  (Cond.ofBits 0b0110#4 = some .vs ∧ ∀ f, condPassed .vs f = true ↔ f.v = true) ∧
  (Cond.ofBits 0b0111#4 = some .vc ∧ ∀ f, condPassed .vc f = true ↔ f.v = false) ∧
  (Cond.ofBits 0b1000#4 = some .hi ∧ ∀ f, condPassed .hi f = true ↔ f.c = true ∧ f.z = false) ∧
  (Cond.ofBits 0b1001#4 = some .ls ∧ ∀ f, condPassed .ls f = true ↔ f.c = false ∨ f.z = true) ∧
  (Cond.ofBits 0b1010#4 = some .ge ∧ ∀ f, condPassed .ge f = true ↔ f.n = f.v) ∧
  (Cond.ofBits 0b1011#4 = some .lt ∧ ∀ f, condPassed .lt f = true ↔ f.n ≠ f.v) ∧
  (Cond.ofBits 0b1100#4 = some .gt ∧ ∀ f, condPassed .gt f = true ↔ f.z = false ∧ f.n = f.v) ∧
  (Cond.ofBits 0b1101#4 = some .le ∧ ∀ f, condPassed .le f = true ↔ f.z = true ∨ f.n ≠ f.v) ∧
  (Cond.ofBits 0b1110#4 = some .al ∧ ∀ f, condPassed .al f = true) ∧
  Cond.ofBits 0b1111#4 = none ∧
  ∀ (k : BitVec 4) (even odd : Cond) (f : Flags), k.toNat % 2 = 0 → k.toNat < 14 →
    Cond.ofBits k = some even → Cond.ofBits (k + 1#4) = some odd → condPassed odd f = !condPassed even f

/-- R83: an instruction, of any row, whose condition does not pass has no effect except that the pc advances: it
raises no fault, is not refused, and changes nothing else. -/
def Obligations.FailedConditionOnlyMovesThePc : Prop :=
  ∀ (i : Instr) (s : State), WellFormed i → condPassed i.cond s.flags = false →
    exec i s = .next { s with pc := s.pc + 4#32 }

/-! ### Operand 2 -/

/-- R101: the immediate of bits 7:0 rotated right by twice bits 11:8, bit by bit, and its carry-out. -/
def Obligations.RotatedImmediate : Prop :=
  ∀ (s : State) (w : Word) (rot : BitVec 4) (imm8 : BitVec 8), rot = w.extractLsb' 8 4 → imm8 = w.extractLsb' 0 8 →
    operand2Imm w = .imm rot imm8 ∧
    (∀ k, k < 32 → (shifterOperand s (.imm rot imm8)).value.getLsbD k =
      imm8.getLsbD ((k + 2 * rot.toNat) % 32)) ∧
    (shifterOperand s (.imm rot imm8)).carry =
      if rot = 0#4 then s.flags.c else (shifterOperand s (.imm rot imm8)).value.getLsbD 31

/-- R102, R103: every row of the table of shifts by an immediate length, for Rm in bits 3:0, the length `n` in bits 11:7
and the type in bits 6:5, in arithmetic; ROR by 0 is RRX. -/
def Obligations.ShiftsByAnImmediateLength : Prop :=
  ∀ (s : State) (w : Word) (rm : Reg) (n : BitVec 5), rm = regField w 0 → n = w.extractLsb' 7 5 →
    (w.extractLsb' 5 2 = 0b00#2 → operand2ShiftImm w = .shiftImm rm .lsl n) ∧
    (w.extractLsb' 5 2 = 0b01#2 → operand2ShiftImm w = .shiftImm rm .lsr n) ∧
    (w.extractLsb' 5 2 = 0b10#2 → operand2ShiftImm w = .shiftImm rm .asr n) ∧
    (w.extractLsb' 5 2 = 0b11#2 → operand2ShiftImm w = .shiftImm rm .ror n) ∧
    (n = 0#5 → shifterOperand s (.shiftImm rm .lsl n) = ⟨s.reg rm, s.flags.c⟩ ∧
      shifterOperand s (.shiftImm rm .lsr n) = ⟨0#32, (s.reg rm).getLsbD 31⟩ ∧
      shifterOperand s (.shiftImm rm .asr n) =
        ⟨if (s.reg rm).getLsbD 31 then 0xFFFFFFFF#32 else 0#32, (s.reg rm).getLsbD 31⟩ ∧
      (shifterOperand s (.shiftImm rm .ror n)).value.toNat = s.flags.c.toNat * 2 ^ 31 + (s.reg rm).toNat / 2 ∧
      (shifterOperand s (.shiftImm rm .ror n)).carry = (s.reg rm).getLsbD 0) ∧
    (n ≠ 0#5 →
      (shifterOperand s (.shiftImm rm .lsl n)).value.toNat = (s.reg rm).toNat * 2 ^ n.toNat % 2 ^ 32 ∧
      (shifterOperand s (.shiftImm rm .lsl n)).carry = (s.reg rm).getLsbD (32 - n.toNat) ∧
      (shifterOperand s (.shiftImm rm .lsr n)).value.toNat = (s.reg rm).toNat / 2 ^ n.toNat ∧
      (shifterOperand s (.shiftImm rm .lsr n)).carry = (s.reg rm).getLsbD (n.toNat - 1) ∧
      (∀ k, k < 32 → (shifterOperand s (.shiftImm rm .asr n)).value.getLsbD k =
        if k + n.toNat < 32 then (s.reg rm).getLsbD (k + n.toNat) else (s.reg rm).getLsbD 31) ∧
      (shifterOperand s (.shiftImm rm .asr n)).carry = (s.reg rm).getLsbD (n.toNat - 1) ∧
      (shifterOperand s (.shiftImm rm .ror n)).value.toNat =
        (s.reg rm).toNat / 2 ^ n.toNat + (s.reg rm).toNat * 2 ^ (32 - n.toNat) % 2 ^ 32 ∧
      (shifterOperand s (.shiftImm rm .ror n)).carry = (s.reg rm).getLsbD (n.toNat - 1))

/-- R105 (the length as R104 reads it): every row of the table of shifts by the bottom byte of Rs, `m` the value of Rm
and `n` the length, in arithmetic; a length of zero is no shift for all four types. -/
def Obligations.ShiftsByARegisterLength : Prop :=
  ∀ (s : State) (rm rs : Reg) (n : Nat) (m : Word), n = (s.reg rs).toNat % 2 ^ 8 → m = s.reg rm →
    (n = 0 → ∀ sh, shifterOperand s (.shiftReg rm sh rs) = ⟨m, s.flags.c⟩) ∧
    (1 ≤ n ∧ n ≤ 31 →
      (shifterOperand s (.shiftReg rm .lsl rs)).value.toNat = m.toNat * 2 ^ n % 2 ^ 32 ∧
      (shifterOperand s (.shiftReg rm .lsl rs)).carry = m.getLsbD (32 - n) ∧
      (shifterOperand s (.shiftReg rm .lsr rs)).value.toNat = m.toNat / 2 ^ n ∧
      (shifterOperand s (.shiftReg rm .lsr rs)).carry = m.getLsbD (n - 1) ∧
      (∀ k, k < 32 → (shifterOperand s (.shiftReg rm .asr rs)).value.getLsbD k =
        if k + n < 32 then m.getLsbD (k + n) else m.getLsbD 31) ∧
      (shifterOperand s (.shiftReg rm .asr rs)).carry = m.getLsbD (n - 1)) ∧
    (n = 32 → shifterOperand s (.shiftReg rm .lsl rs) = ⟨0#32, m.getLsbD 0⟩ ∧
      shifterOperand s (.shiftReg rm .lsr rs) = ⟨0#32, m.getLsbD 31⟩) ∧
    (33 ≤ n → shifterOperand s (.shiftReg rm .lsl rs) = ⟨0#32, false⟩ ∧
      shifterOperand s (.shiftReg rm .lsr rs) = ⟨0#32, false⟩) ∧
    (32 ≤ n → shifterOperand s (.shiftReg rm .asr rs) =
      ⟨if m.getLsbD 31 then 0xFFFFFFFF#32 else 0#32, m.getLsbD 31⟩) ∧
    (n ≠ 0 → n % 32 = 0 → shifterOperand s (.shiftReg rm .ror rs) = ⟨m, m.getLsbD 31⟩) ∧
    (n % 32 ≠ 0 →
      (shifterOperand s (.shiftReg rm .ror rs)).value.toNat =
        m.toNat / 2 ^ (n % 32) + m.toNat * 2 ^ (32 - n % 32) % 2 ^ 32 ∧
      (shifterOperand s (.shiftReg rm .ror rs)).carry = m.getLsbD (n % 32 - 1))

/-! ### Flags -/

/-- R8, R111: `AddWithCarry` is exact: with its carry the result is the unsigned sum, and V says exactly that the signed
sum does not fit in 32 bits; on the complement of `b` with carry-in 1 it subtracts, the carry saying that no borrow
occurred and V that the signed difference does not fit. -/
def Obligations.AddWithCarryIsExact : Prop :=
  ∀ (a b : Word),
    (∀ cin : Bool,
      (addWithCarry a b cin).result.toNat + 2 ^ 32 * (addWithCarry a b cin).c.toNat =
        a.toNat + b.toNat + cin.toNat ∧
      ((addWithCarry a b cin).v = true ↔
        a.toInt + b.toInt + cin.toNat < -2 ^ 31 ∨ 2 ^ 31 ≤ a.toInt + b.toInt + cin.toNat)) ∧
    (addWithCarry a (~~~b) true).result = a - b ∧
    ((addWithCarry a (~~~b) true).c = true ↔ b.toNat ≤ a.toNat) ∧
    ((addWithCarry a (~~~b) true).v = true ↔ a.toInt - b.toInt < -2 ^ 31 ∨ 2 ^ 31 ≤ a.toInt - b.toInt)

/-- R130: after CMP, in each of its three forms (`cmpImm`, `cmpShiftImm`, `cmpShiftReg`), the conditions hold as the
operands compare, unsigned and signed, also when the subtraction overflows. -/
def Obligations.CompareOrdersItsOperands : Prop :=
  ∀ (c : Cond) (rn : Reg) (o2 : Operand2) (s : State), WellFormed (Shape.instr (.test .cmp c rn o2)) →
    condPassed c s.flags = true →
    ∃ t, exec (Shape.instr (.test .cmp c rn o2)) s = .next t ∧
      ∀ a b : Word, a = s.reg rn → b = (shifterOperand s o2).value →
        (condPassed .eq t.flags = true ↔ a = b) ∧ (condPassed .ne t.flags = true ↔ a ≠ b) ∧
        (condPassed .cs t.flags = true ↔ b.toNat ≤ a.toNat) ∧ (condPassed .cc t.flags = true ↔ a.toNat < b.toNat) ∧
        (condPassed .hi t.flags = true ↔ b.toNat < a.toNat) ∧ (condPassed .ls t.flags = true ↔ a.toNat ≤ b.toNat) ∧
        (condPassed .ge t.flags = true ↔ b.toInt ≤ a.toInt) ∧ (condPassed .lt t.flags = true ↔ a.toInt < b.toInt) ∧
        (condPassed .gt t.flags = true ↔ b.toInt < a.toInt) ∧ (condPassed .le t.flags = true ↔ a.toInt ≤ b.toInt)

/-! ### Data processing -/

/-- R110, R113, R120, R121, R132, R134: AND, EOR, ORR and BIC with Rd one of R0 to R14 complete, in every form
(`andImm`, `andShiftImm`, `andShiftReg`, `eorImm`, `eorShiftImm`, `eorShiftReg`, `orrImm`, `orrShiftImm`, `orrShiftReg`,
`bicImm`, `bicShiftImm`, `bicShiftReg`): Rd is the Effect column's value, the flags are written only with S = 1, the pc
advances, and nothing else changes. -/
def Obligations.LogicalWritesComplete : Prop :=
  ∀ (op : WriteOp) (c : Cond) (sb : Bool) (rn rd : Reg) (o2 : Operand2) (s : State) (h : rd.val < 15),
    op.isLogical = true → WellFormed (Shape.instr (.write op c sb rn rd o2)) → condPassed c s.flags = true →
    exec (Shape.instr (.write op c sb rn rd o2)) s =
      .next { s with
        regs := s.regs.set rd.val (op.effect (s.reg rn) (shifterOperand s o2).value s.flags.c) h
        flags := if sb then op.flags (s.reg rn) (shifterOperand s o2).value (shifterOperand s o2).carry s.flags
          else s.flags
        pc := s.pc + 4#32 }

/-- R111, R113, R122 to R127: SUB, RSB, ADD, ADC, SBC and RSC with Rd one of R0 to R14 complete, in every form
(`subImm`, `subShiftImm`, `subShiftReg`, `rsbImm`, `rsbShiftImm`, `rsbShiftReg`, `addImm`, `addShiftImm`, `addShiftReg`,
`adcImm`, `adcShiftImm`, `adcShiftReg`, `sbcImm`, `sbcShiftImm`, `sbcShiftReg`, `rscImm`, `rscShiftImm`, `rscShiftReg`):
Rd is the Effect column's value, the flags are written only with S = 1, C and V as carry, borrow and signed overflow
say, the pc advances, and nothing else changes. -/
def Obligations.ArithmeticWritesComplete : Prop :=
  ∀ (op : WriteOp) (c : Cond) (sb : Bool) (rn rd : Reg) (o2 : Operand2) (s : State) (h : rd.val < 15),
    op.isLogical = false → WellFormed (Shape.instr (.write op c sb rn rd o2)) → condPassed c s.flags = true →
    exec (Shape.instr (.write op c sb rn rd o2)) s =
      .next { s with
        regs := s.regs.set rd.val (op.effect (s.reg rn) (shifterOperand s o2).value s.flags.c) h
        flags := if sb then op.flags (s.reg rn) (shifterOperand s o2).value (shifterOperand s o2).carry s.flags
          else s.flags
        pc := s.pc + 4#32 }

/-- R110, R113, R133, R135: MOV and MVN with Rd one of R0 to R14 complete, in every form (`movImm`, `movShiftImm`,
`movShiftReg`, `mvnImm`, `mvnShiftImm`, `mvnShiftReg`): Rd is operand 2 or its complement, the flags are written only
with S = 1, the pc advances, and nothing else changes. -/
def Obligations.MovesComplete : Prop :=
  ∀ (op : MoveOp) (c : Cond) (sb : Bool) (rd : Reg) (o2 : Operand2) (s : State) (h : rd.val < 15),
    WellFormed (Shape.instr (.move op c sb rd o2)) → condPassed c s.flags = true →
    exec (Shape.instr (.move op c sb rd o2)) s =
      .next { s with
        regs := s.regs.set rd.val (op.effect (shifterOperand s o2).value) h
        flags := if sb then logicalFlags (op.effect (shifterOperand s o2).value) (shifterOperand s o2).carry s.flags
          else s.flags
        pc := s.pc + 4#32 }

/-- R110, R113, R114, R128, R129: TST and TEQ complete, in every form (`tstImm`, `tstShiftImm`, `tstShiftReg`, `teqImm`,
`teqShiftImm`, `teqShiftReg`): they write the flags, the pc advances, and nothing else changes. -/
def Obligations.TestsComplete : Prop :=
  ∀ (op : TestOp) (c : Cond) (rn : Reg) (o2 : Operand2) (s : State), op = .tst ∨ op = .teq →
    WellFormed (Shape.instr (.test op c rn o2)) → condPassed c s.flags = true →
    exec (Shape.instr (.test op c rn o2)) s =
      .next { s with
        flags := logicalFlags (op.effect (s.reg rn) (shifterOperand s o2).value) (shifterOperand s o2).carry s.flags
        pc := s.pc + 4#32 }

/-- R111, R113, R114, R130, R131: CMP and CMN complete, in every form (`cmpImm`, `cmpShiftImm`, `cmpShiftReg`, `cmnImm`,
`cmnShiftImm`, `cmnShiftReg`): they write the flags of the difference and of the sum, the pc advances, and nothing else
changes. -/
def Obligations.ComparesComplete : Prop :=
  ∀ (c : Cond) (rn : Reg) (o2 : Operand2) (s : State) (a b : Word), a = s.reg rn → b = (shifterOperand s o2).value →
    condPassed c s.flags = true →
    (WellFormed (Shape.instr (.test .cmp c rn o2)) →
      exec (Shape.instr (.test .cmp c rn o2)) s =
        .next { s with flags := differenceFlags (a - b) a b true, pc := s.pc + 4#32 }) ∧
    (WellFormed (Shape.instr (.test .cmn c rn o2)) →
      exec (Shape.instr (.test .cmn c rn o2)) s =
        .next { s with flags := sumFlags (a + b) a b false, pc := s.pc + 4#32 })

/-- R109, R14: with Rd = 15 (and S = 0) each of the twelve instructions that write Rd is a jump to its result, refused
when the result is no multiple of 4; nothing else changes. -/
def Obligations.DataProcessingJumps : Prop :=
  (∀ (op : WriteOp) (c : Cond) (rn : Reg) (o2 : Operand2) (s : State) (r : Word),
    WellFormed (Shape.instr (.write op c false rn pcReg o2)) → condPassed c s.flags = true →
    r = op.effect (s.reg rn) (shifterOperand s o2).value s.flags.c →
    exec (Shape.instr (.write op c false rn pcReg o2)) s =
      if r.toNat % 4 = 0 then .next { s with pc := r } else .refused (.pcMisaligned r)) ∧
  (∀ (op : MoveOp) (c : Cond) (o2 : Operand2) (s : State) (r : Word),
    WellFormed (Shape.instr (.move op c false pcReg o2)) → condPassed c s.flags = true →
    r = op.effect (shifterOperand s o2).value →
    exec (Shape.instr (.move op c false pcReg o2)) s =
      if r.toNat % 4 = 0 then .next { s with pc := r } else .refused (.pcMisaligned r))

/-- R13, R108, R124: a read of R15 is the pc plus 8, so `ADD R0, PC, #4` gives the pc plus 12. -/
def Obligations.PcReadsEightAhead : Prop :=
  ∀ s : State, (s.reg 15).toNat = (s.pc.toNat + 8) % 2 ^ 32 ∧
    exec (.addImm .al false 15 0 0 4) s = .next { s with regs := s.regs.set 0 (s.pc + 12#32), pc := s.pc + 4#32 }

/-- R136: `ADD R0, R0, R0, LSL #2` is the word E0800100 and multiplies R0 by 5, modulo 2^32. -/
def Obligations.AddShiftedMultipliesByFive : Prop :=
  encode (.addShiftImm .al false 0 0 0 .lsl 2) = 0xE0800100#32 ∧
  ∀ s : State, ∃ t, exec (.addShiftImm .al false 0 0 0 .lsl 2) s = .next t ∧
    (t.reg 0).toNat = 5 * (s.reg 0).toNat % 2 ^ 32 ∧ t.flags = s.flags

/-! ### Multiply -/

/-- R211, R213, R214, R215: MUL and MLA (`mul`, `mla`) complete: Rd is the low 32 bits of the product, plus Rn for MLA;
with S = 1 N and Z are those of the result, V is unchanged and C is a value no rule fixes (the free value of log entry
5, drawn at `draws`); the pc advances, and nothing else changes. -/
def Obligations.MultipliesComplete : Prop :=
  ∀ (c : Cond) (sb : Bool) (rd rn rs rm : Reg) (s : State) (h : rd.val < 15), condPassed c s.flags = true →
    (WellFormed (.mul c sb rd rs rm) → ∀ r : Word, r.toNat = (s.reg rm).toNat * (s.reg rs).toNat % 2 ^ 32 →
      exec (.mul c sb rd rs rm) s =
        .next { s with
          regs := s.regs.set rd.val r h
          flags := if sb then { n := r.msb, z := decide (r = 0#32), c := Config.mulCarry s.draws, v := s.flags.v }
            else s.flags
          draws := if sb then s.draws + 1 else s.draws
          pc := s.pc + 4#32 }) ∧
    (WellFormed (.mla c sb rd rn rs rm) →
      ∀ r : Word, r.toNat = ((s.reg rm).toNat * (s.reg rs).toNat + (s.reg rn).toNat) % 2 ^ 32 →
      exec (.mla c sb rd rn rs rm) s =
        .next { s with
          regs := s.regs.set rd.val r h
          flags := if sb then { n := r.msb, z := decide (r = 0#32), c := Config.mulCarry s.draws, v := s.flags.v }
            else s.flags
          draws := if sb then s.draws + 1 else s.draws
          pc := s.pc + 4#32 })

/-! ### Loads and stores -/

/-- R181, R182, R183 and the third column of R184: the offset, the indexed address, and the address used for the
access. -/
def Obligations.TransferAddresses : Prop :=
  ∀ (s : State) (rn : Reg) (off : Offset),
    (∀ imm12, off = .imm imm12 → (offsetValue s off).toNat = imm12.toNat) ∧
    (∀ rm sh n, off = .reg rm sh n → offsetValue s off = (shifterOperand s (.shiftImm rm sh n)).value) ∧
    (indexedAddress s true rn off).toNat = ((s.reg rn).toNat + (offsetValue s off).toNat) % 2 ^ 32 ∧
    ((indexedAddress s false rn off).toNat : Int) =
      ((s.reg rn).toNat - (offsetValue s off).toNat : Int) % 2 ^ 32 ∧
    ∀ up, accessAddress s .offset up rn off = indexedAddress s up rn off ∧
      accessAddress s .preWriteback up rn off = indexedAddress s up rn off ∧
      accessAddress s .postIndexed up rn off = s.reg rn

/-- R184, R185, R190: LDR (`ldrImm`, `ldrReg`) with Rd one of R0 to R14, at a valid multiple of 4, completes in every
addressing mode: Rd is the word at the address, little-endian; the base is the indexed address where the mode writes it
back; no other register, no flag and no byte of memory changes, and nothing else does but the pc, which advances. -/
def Obligations.LdrCompletes : Prop :=
  ∀ (c : Cond) (ix : Indexing) (up : Bool) (rn rd : Reg) (off : Offset) (s : State) (a : Word), rd ≠ pcReg →
    WellFormed (Shape.instr (.transfer .ldr c ix up rn rd off)) → condPassed c s.flags = true →
    a = accessAddress s ix up rn off → a.toNat % 4 = 0 →
    s.isValid a = true → s.isValid (a + 1#32) = true → s.isValid (a + 2#32) = true → s.isValid (a + 3#32) = true →
    ∃ t, exec (Shape.instr (.transfer .ldr c ix up rn rd off)) s = .next t ∧
      t.reg rd = wordOfBytes (s.readByte a) (s.readByte (a + 1#32)) (s.readByte (a + 2#32)) (s.readByte (a + 3#32)) ∧
      (ix.writesBase = true → t.reg rn = indexedAddress s up rn off) ∧
      (∀ r : Reg, r ≠ pcReg → r ≠ rd → (ix.writesBase = true → r ≠ rn) → t.reg r = s.reg r) ∧
      t = { s with regs := t.regs, pc := s.pc + 4#32 }

/-- R188, R190: LDR with Rd = 15 (`ldrImm`, `ldrReg`) is a jump to the word loaded, refused, with no write-back, when
that word is no multiple of 4. -/
def Obligations.LdrToThePcJumps : Prop :=
  ∀ (c : Cond) (ix : Indexing) (up : Bool) (rn : Reg) (off : Offset) (s : State) (a data : Word),
    WellFormed (Shape.instr (.transfer .ldr c ix up rn pcReg off)) → condPassed c s.flags = true →
    a = accessAddress s ix up rn off → a.toNat % 4 = 0 →
    s.isValid a = true → s.isValid (a + 1#32) = true → s.isValid (a + 2#32) = true → s.isValid (a + 3#32) = true →
    data = wordOfBytes (s.readByte a) (s.readByte (a + 1#32)) (s.readByte (a + 2#32)) (s.readByte (a + 3#32)) →
    (data.toNat % 4 = 0 →
      ∃ t, exec (Shape.instr (.transfer .ldr c ix up rn pcReg off)) s = .next t ∧ t.pc = data ∧
        (ix.writesBase = true → t.reg rn = indexedAddress s up rn off) ∧
        (∀ r : Reg, r ≠ pcReg → (ix.writesBase = true → r ≠ rn) → t.reg r = s.reg r) ∧
        t = { s with regs := t.regs, pc := data }) ∧
    (data.toNat % 4 ≠ 0 →
      exec (Shape.instr (.transfer .ldr c ix up rn pcReg off)) s = .refused (.pcMisaligned data))

/-- R184, R185, R191: LDRB (`ldrbImm`, `ldrbReg`) at a valid address completes in every addressing mode: Rd is the byte
with zeros above it; the base is the indexed address where the mode writes it back; nothing else changes but the pc,
which advances. -/
def Obligations.LdrbCompletes : Prop :=
  ∀ (c : Cond) (ix : Indexing) (up : Bool) (rn rd : Reg) (off : Offset) (s : State) (a : Word),
    WellFormed (Shape.instr (.transfer .ldrb c ix up rn rd off)) → condPassed c s.flags = true →
    a = accessAddress s ix up rn off → s.isValid a = true →
    ∃ t, exec (Shape.instr (.transfer .ldrb c ix up rn rd off)) s = .next t ∧
      (t.reg rd).toNat = (s.readByte a).toNat ∧
      (ix.writesBase = true → t.reg rn = indexedAddress s up rn off) ∧
      (∀ r : Reg, r ≠ pcReg → r ≠ rd → (ix.writesBase = true → r ≠ rn) → t.reg r = s.reg r) ∧
      t = { s with regs := t.regs, pc := s.pc + 4#32 }

/-- R184, R185, R192: STR (`strImm`, `strReg`) at a valid multiple of 4 completes in every addressing mode: the four
bytes at the address are those of Rd, little-endian, every other byte reads as before; the word is marked as stored to;
the base is the indexed address where the mode writes it back; nothing else changes but the pc, which advances. -/
def Obligations.StrCompletes : Prop :=
  ∀ (c : Cond) (ix : Indexing) (up : Bool) (rn rd : Reg) (off : Offset) (s : State) (a : Word),
    WellFormed (Shape.instr (.transfer .str c ix up rn rd off)) → condPassed c s.flags = true →
    a = accessAddress s ix up rn off → a.toNat % 4 = 0 →
    s.isValid a = true → s.isValid (a + 1#32) = true → s.isValid (a + 2#32) = true → s.isValid (a + 3#32) = true →
    ∃ t, exec (Shape.instr (.transfer .str c ix up rn rd off)) s = .next t ∧
      t.readByte a = (s.reg rd).extractLsb' 0 8 ∧ t.readByte (a + 1#32) = (s.reg rd).extractLsb' 8 8 ∧
      t.readByte (a + 2#32) = (s.reg rd).extractLsb' 16 8 ∧ t.readByte (a + 3#32) = (s.reg rd).extractLsb' 24 8 ∧
      (∀ q : Word, q ≠ a → q ≠ a + 1#32 → q ≠ a + 2#32 → q ≠ a + 3#32 → t.readByte q = s.readByte q) ∧
      (∀ x : Nat, x ∈ t.dirty ↔ x = a.toNat ∨ x ∈ s.dirty) ∧
      (ix.writesBase = true → t.reg rn = indexedAddress s up rn off) ∧
      (∀ r : Reg, r ≠ pcReg → (ix.writesBase = true → r ≠ rn) → t.reg r = s.reg r) ∧
      t = { s with regs := t.regs, mem := t.mem, dirty := t.dirty, pc := s.pc + 4#32 }

/-- R184, R185, R193: STRB (`strbImm`, `strbReg`) at a valid address completes in every addressing mode: the byte at the
address is bits 7:0 of Rd, every other byte reads as before; its word is marked as stored to; the base is the indexed
address where the mode writes it back; nothing else changes but the pc, which advances. -/
def Obligations.StrbCompletes : Prop :=
  ∀ (c : Cond) (ix : Indexing) (up : Bool) (rn rd : Reg) (off : Offset) (s : State) (a : Word),
    WellFormed (Shape.instr (.transfer .strb c ix up rn rd off)) → condPassed c s.flags = true →
    a = accessAddress s ix up rn off → s.isValid a = true →
    ∃ t, exec (Shape.instr (.transfer .strb c ix up rn rd off)) s = .next t ∧
      t.readByte a = (s.reg rd).extractLsb' 0 8 ∧
      (∀ q : Word, q ≠ a → t.readByte q = s.readByte q) ∧
      (∀ x : Nat, x ∈ t.dirty ↔ x = a.toNat - a.toNat % 4 ∨ x ∈ s.dirty) ∧
      (ix.writesBase = true → t.reg rn = indexedAddress s up rn off) ∧
      (∀ r : Reg, r ≠ pcReg → (ix.writesBase = true → r ≠ rn) → t.reg r = s.reg r) ∧
      t = { s with regs := t.regs, mem := t.mem, dirty := t.dirty, pc := s.pc + 4#32 }

/-- R32, R189: LDR and STR, in every form, at an address that is no multiple of 4 are refused, wherever the address
lies. -/
def Obligations.MisalignedWordAccessesAreRefused : Prop :=
  ∀ (op : TransferOp) (c : Cond) (ix : Indexing) (up : Bool) (rn rd : Reg) (off : Offset) (s : State) (a : Word),
    op = .ldr ∨ op = .str → WellFormed (Shape.instr (.transfer op c ix up rn rd off)) →
    condPassed c s.flags = true → a = accessAddress s ix up rn off → a.toNat % 4 ≠ 0 →
    exec (Shape.instr (.transfer op c ix up rn rd off)) s = .refused (.misalignedWord a)

/-- R38, R189, R223: a load or store, in every form, of which some byte is outside MEM_VALID (for LDR and STR at a
multiple of 4) faults with the first such address, and so changes nothing. -/
def Obligations.AbsentMemoryFaults : Prop :=
  ∀ (op : TransferOp) (c : Cond) (ix : Indexing) (up : Bool) (rn rd : Reg) (off : Offset) (s : State) (a : Word)
    (k : Nat), WellFormed (Shape.instr (.transfer op c ix up rn rd off)) → condPassed c s.flags = true →
    a = accessAddress s ix up rn off →
    (∀ j, j < k → s.isValid (a + BitVec.ofNat 32 j) = true) → s.isValid (a + BitVec.ofNat 32 k) = false →
    ((op = .ldr ∧ k < 4 ∧ a.toNat % 4 = 0) ∨ (op = .ldrb ∧ k = 0) →
      exec (Shape.instr (.transfer op c ix up rn rd off)) s =
        .fault (.memFault (a + BitVec.ofNat 32 k) .load s.pc)) ∧
    ((op = .str ∧ k < 4 ∧ a.toNat % 4 = 0) ∨ (op = .strb ∧ k = 0) →
      exec (Shape.instr (.transfer op c ix up rn rd off)) s =
        .fault (.memFault (a + BitVec.ofNat 32 k) .store s.pc))

/-- R31, R33: a word put into memory is its four bytes, the lowest address holding bits 7:0; the word is read back, and
every other byte reads as before. -/
def Obligations.WordsAreLittleEndian : Prop :=
  ∀ (s : State) (a w : Word),
    (s.putWord a w).readByte a = w.extractLsb' 0 8 ∧ (s.putWord a w).readByte (a + 1#32) = w.extractLsb' 8 8 ∧
    (s.putWord a w).readByte (a + 2#32) = w.extractLsb' 16 8 ∧
    (s.putWord a w).readByte (a + 3#32) = w.extractLsb' 24 8 ∧
    (s.putWord a w).readWord a = w ∧
    (s.readWord a).toNat = (s.readByte a).toNat + 2 ^ 8 * (s.readByte (a + 1#32)).toNat +
      2 ^ 16 * (s.readByte (a + 2#32)).toNat + 2 ^ 24 * (s.readByte (a + 3#32)).toNat ∧
    ∀ q : Word, q ≠ a → q ≠ a + 1#32 → q ≠ a + 2#32 → q ≠ a + 3#32 → (s.putWord a w).readByte q = s.readByte q

/-! ### Branches -/

/-- R151, R153: B (`b`) and BL (`bl`) whose condition passes go to their own address plus 8 plus four times the signed
offset, modulo 2^32, a multiple of 4 if the pc is one, whether or not memory is there; B changes nothing else. -/
def Obligations.BranchGoesToItsTarget : Prop :=
  ∀ (c : Cond) (off : BitVec 24) (s : State), condPassed c s.flags = true →
    (∃ t, exec (.b c off) s = .next t ∧ (t.pc.toNat : Int) = (s.pc.toNat + 8 + off.toInt * 4) % 2 ^ 32 ∧
      (s.pc.toNat % 4 = 0 → t.pc.toNat % 4 = 0) ∧ t = { s with pc := t.pc }) ∧
    (∃ t, exec (.bl c off) s = .next t ∧ (t.pc.toNat : Int) = (s.pc.toNat + 8 + off.toInt * 4) % 2 ^ 32 ∧
      (s.pc.toNat % 4 = 0 → t.pc.toNat % 4 = 0))

/-- R151, R152, R154: BL (`bl`) whose condition passes puts the address of the next instruction into R14 and goes to the
target that B would, computed from its own address; nothing else changes. -/
def Obligations.BranchWithLinkCompletes : Prop :=
  ∀ (c : Cond) (off : BitVec 24) (s : State), condPassed c s.flags = true →
    ∃ t, exec (.bl c off) s = .next t ∧ (t.pc.toNat : Int) = (s.pc.toNat + 8 + off.toInt * 4) % 2 ^ 32 ∧
      (s.pc.toNat % 4 = 0 → t.pc.toNat % 4 = 0) ∧
      t = { s with regs := s.regs.set 14 (s.pc + 4#32), pc := t.pc }

/-- R155: a branch reaches every label within its range: for two multiples of 4 whose distance from `A + 8` is between
-2^25 and 2^25 - 4, the assembler's offset leads from `A` to `T`; a label outside that range is rejected; and no offset
leads outside it. The distance is taken as a difference of integers, without the wrap modulo 2^32: the model's choice,
log entry 24. -/
def Obligations.BranchesReachTheirRange : Prop :=
  (∀ A T : Word, A.toNat % 4 = 0 → T.toNat % 4 = 0 →
    (-2 ^ 25 ≤ (T.toNat : Int) - (A.toNat + 8) → (T.toNat : Int) - (A.toNat + 8) ≤ 2 ^ 25 - 4 →
      branchOffset A T = some (BitVec.ofInt 24 (((T.toNat : Int) - (A.toNat + 8)) / 4)) ∧
      branchTarget A (BitVec.ofInt 24 (((T.toNat : Int) - (A.toNat + 8)) / 4)) = T) ∧
    ((T.toNat : Int) - (A.toNat + 8) < -2 ^ 25 ∨ 2 ^ 25 - 4 < (T.toNat : Int) - (A.toNat + 8) →
      branchOffset A T = none)) ∧
  ∀ off : BitVec 24, -2 ^ 25 ≤ off.toInt * 4 ∧ off.toInt * 4 ≤ 2 ^ 25 - 4

/-- R156: after a BL at a multiple of 4, `MOV PC, LR`, executed in any state whose R14 is still what the BL left,
returns to the instruction after the BL. -/
def Obligations.MovPcLrReturnsFromACall : Prop :=
  ∀ (c : Cond) (off : BitVec 24) (s t u : State), s.pc.toNat % 4 = 0 → condPassed c s.flags = true →
    exec (.bl c off) s = .next t → u.reg linkReg = t.reg linkReg →
    decode 0xE1A0F00E#32 = .ok (.movShiftImm .al false pcReg linkReg .lsl 0) ∧
      exec (.movShiftImm .al false pcReg linkReg .lsl 0) u = .next { u with pc := s.pc + 4#32 }

/-! ### SWI -/

/-- R162: SWI 0 appends the low byte of R0 to the output and moves on; nothing else changes. -/
def Obligations.SwiZeroPrintsACharacter : Prop :=
  ∀ (c : Cond) (s : State), condPassed c s.flags = true →
    exec (.swi c 0) s = .next { s with out := s.out ++ [(s.reg 0).extractLsb' 0 8], pc := s.pc + 4#32 }

/-- R164: SWI 1, with a character left, puts it into bits 7:0 of R0 (the bits above are a value no rule fixes, log entry
4), consumes it and moves on; R1 to R14 and all else are unchanged, but for the model's count of draws. -/
def Obligations.SwiOneReadsACharacter : Prop :=
  ∀ (c : Cond) (s : State) (ch : Byte), condPassed c s.flags = true → s.input[s.inpos]? = some ch →
    ∃ t, exec (.swi c 1) s = .next t ∧ (t.reg 0).extractLsb' 0 8 = ch ∧ t.inpos = s.inpos + 1 ∧
      (∀ r : Reg, r ≠ 0 → r ≠ pcReg → t.reg r = s.reg r) ∧
      t = { s with regs := t.regs, inpos := s.inpos + 1, draws := s.draws + 1, pc := s.pc + 4#32 }

/-- R164: SWI 1 with no character left waits. That waiting is a step which changes nothing, the pc included, is the
model's choice, log entry 8. -/
def Obligations.SwiOneWaitsForInput : Prop :=
  ∀ (c : Cond) (s : State), condPassed c s.flags = true → s.waits → exec (.swi c 1) s = .next s

/-- R165: SWI 2 halts: `halted` becomes true, and nothing else changes, the pc included. -/
def Obligations.SwiTwoHalts : Prop :=
  ∀ (c : Cond) (s : State), condPassed c s.flags = true → exec (.swi c 2) s = .next { s with halted := true }

/-- R166, R38: SWI 3 prints the bytes from address R0 up to the first zero byte, which is not printed; when an address
outside MEM_VALID comes first, it faults with that address and prints nothing. -/
def Obligations.SwiThreePrintsAString : Prop :=
  ∀ (c : Cond) (s : State) (k : Nat), condPassed c s.flags = true → k < 2 ^ 32 →
    (∀ j, j < k → s.isValid (s.reg 0 + BitVec.ofNat 32 j) = true ∧ s.readByte (s.reg 0 + BitVec.ofNat 32 j) ≠ 0#8) →
    (s.isValid (s.reg 0 + BitVec.ofNat 32 k) = true → s.readByte (s.reg 0 + BitVec.ofNat 32 k) = 0#8 →
      exec (.swi c 3) s = .next { s with
        out := s.out ++ (List.range k).map (fun j => s.readByte (s.reg 0 + BitVec.ofNat 32 j))
        pc := s.pc + 4#32 }) ∧
    (s.isValid (s.reg 0 + BitVec.ofNat 32 k) = false →
      exec (.swi c 3) s = .fault (.memFault (s.reg 0 + BitVec.ofNat 32 k) .load s.pc))

/-- R166, R170: when every byte of the whole address space is valid and not zero, the loop never ends, and nothing is
printed. That this never ending run is a step which changes nothing, the pc included, is the model's choice, log entry
12. -/
def Obligations.SwiThreeWithoutAnEndIsStuck : Prop :=
  ∀ (c : Cond) (s : State), condPassed c s.flags = true →
    (∀ a : Word, s.isValid a = true ∧ s.readByte a ≠ 0#8) →
    exec (.swi c 3) s = .next s

/-- R167: SWI 4 appends `SWI4_FORMAT(R0)` and moves on; nothing else changes. Under the signed format, which the spec
suggests (log entry 7), what is printed is a minus sign for a negative value and then a numeral of its magnitude: ASCII
digits, of that value, without a leading zero unless it is the one digit 0. -/
def Obligations.SwiFourPrintsANumber : Prop :=
  (∀ (c : Cond) (s : State), condPassed c s.flags = true →
    exec (.swi c 4) s = .next { s with
      out := s.out ++ formatNumber s.swi4Format (s.reg 0), pc := s.pc + 4#32 }) ∧
  ∀ v : Word, ∃ digits : List Byte,
    formatNumber .signedDecimal v = (if v.toInt < 0 then [0x2D#8] else []) ++ digits ∧
    (∀ d ∈ digits, 0x30 ≤ d.toNat ∧ d.toNat ≤ 0x39) ∧
    digits.foldl (fun n d => 10 * n + (d.toNat - 0x30)) 0 = v.toInt.natAbs ∧
    (digits.head? = some 0x30#8 → digits = [0x30#8]) ∧ digits ≠ []

/-- R168: SWI with any other number raises SwiError with that number. -/
def Obligations.SwiOfAnyOtherNumberTraps : Prop :=
  ∀ (c : Cond) (imm24 : BitVec 24) (s : State), condPassed c s.flags = true → 5 ≤ imm24.toNat →
    exec (.swi c imm24) s = .fault (.swiError imm24 s.pc)

/-! ### The whole machine -/

/-- R16: an instruction of any row that is not one of those with the S bit leaves all four flags. -/
def Obligations.FlagsChangeOnlyWithTheSBit : Prop :=
  ∀ (i : Instr) (s t : State), exec i s = .next t → i.setsFlags = false → t.flags = s.flags

/-- R12, R152, R161, R185: an instruction of any row leaves every one of R0 to R14 but its destination, the base that it
writes back, R14 for BL, and R0 for SWI 1. -/
def Obligations.RegistersChangeOnlyWhereNamed : Prop :=
  ∀ (i : Instr) (s t : State) (r : Reg), exec i s = .next t → r ≠ pcReg → r ∉ i.writesRegs → t.reg r = s.reg r

/-- R36, R39: an instruction of any row but STR and STRB leaves every byte of memory and the set of modified words. -/
def Obligations.MemoryChangesOnlyByStores : Prop :=
  ∀ (i : Instr) (s t : State), exec i s = .next t → i.stores = false →
    (∀ a : Word, t.readByte a = s.readByte a) ∧ t.dirty = s.dirty

/-- R5, R19, R40, R163: a step changes none of the parameters MEM_VALID, INPUT and SWI4_FORMAT, only appends to the
output, gives no character back, takes no word out of `dirty`, and never ends a halt. -/
def Obligations.StepKeepsParametersAndHistory : Prop :=
  ∀ s t : State, step s = .next t →
    t.memValid = s.memValid ∧ t.input = s.input ∧ t.swi4Format = s.swi4Format ∧ (∃ b, t.out = s.out ++ b) ∧
      s.inpos ≤ t.inpos ∧ (∀ a ∈ s.dirty, a ∈ t.dirty) ∧ (s.halted = true → t.halted = true)

/-- R14, R19, R20, R22: after reset the output is empty, no input is consumed, the machine is not halted and no word is
dirty; and the state is good: the pc is a multiple of 4, the listings are in canonical form, every listed byte is valid,
no more input is consumed than there is. (The values the model names for reset, log entries 1 to 3 and 6 to 8, enter the
second part.) -/
def Obligations.ResetStateIsGood : Prop :=
  (State.reset.out = [] ∧ State.reset.inpos = 0 ∧ State.reset.halted = false ∧ State.reset.dirty = []) ∧
    State.reset.Good

/-- R14, R19, R20, R32: every step from a good state leads to a good state: the pc stays a multiple of 4 through
branches, jumps and loads to R15, the memory listing stays in canonical form and inside MEM_VALID, `dirty` stays a set
of word addresses, and no more input is consumed than there is. -/
def Obligations.StepKeepsTheStateGood : Prop :=
  ∀ s t : State, s.Good → step s = .next t → t.Good

/-- R39, R40: along any run from a good state, whatever it stores, each word fetched is the word that memory held at that
address at the start of the run: a run executes no word that it has modified. -/
def Obligations.RunsExecuteUnmodifiedWords : Prop :=
  ∀ (s t : State) (w : Word), s.Good → Reaches s t → fetch t = .ok w → w = s.readWord t.pc
end

