-- ==== Sys2Proof/Laws/Encoding.lean ====
section
/-! SUPPORT. The two views of an instruction, and what is read from a packed word: the arithmetic that the round trip
of decoder and encoder rests on. What the assembler can answer. -/

namespace Sys2Proof

/-- The family and operands of the instruction of a family and operands are those. -/
@[simp] theorem Shape.shape_instr (x : Shape) : x.instr.shape = x := by
  cases x with
  | write op c sb rn rd o2 => cases op <;> cases o2 <;> rfl
  | move op c sb rd o2 => cases op <;> cases o2 <;> rfl
  | test op c rn o2 => cases op <;> cases o2 <;> rfl
  | mul c sb rd rs rm => rfl
  | mla c sb rd rn rs rm => rfl
  | transfer op c ix up rn rd off => cases op <;> cases off <;> rfl
  | branch op c off => cases op <;> rfl
  | swi c imm24 => rfl

/-- Every instruction is the instruction of its family and operands. -/
@[simp] theorem Instr.instr_shape (i : Instr) : i.shape.instr = i := by cases i <;> rfl

@[simp] theorem Shape.cond_instr (x : Shape) : x.instr.cond = x.cond := by simp [Instr.cond]

@[simp] theorem Shape.staticRefusal_instr (x : Shape) : x.instr.staticRefusal = x.staticRefusal := by
  simp [Instr.staticRefusal]

@[simp] theorem Shape.encode_instr (x : Shape) : encode x.instr = pack x.fields := by simp [encode]

/-- A well-formed instruction passes the check. -/
theorem checked_ok {i : Instr} (h : WellFormed i) : checked i = .ok i := by simp [checked, h]

/-- What the check can answer: the instruction itself, well formed, or its static refusal. -/
theorem checked_cases (i : Instr) :
    (checked i = .ok i ∧ WellFormed i) ∨ ∃ r, i.staticRefusal = some r ∧ checked i = .error (.static r) := by
  unfold checked
  cases h : i.staticRefusal with
  | none => exact .inl ⟨rfl, h⟩
  | some r => exact .inr ⟨r, rfl, rfl⟩

/-! ### Fields of packed words -/

/-- Packing puts the first field above all others. -/
theorem foldl_pack (fs : List (Nat × Nat)) (hf : ∀ f ∈ fs, f.2 < 2 ^ f.1) (acc : Nat) :
    ∃ x, x < 2 ^ (fs.map Prod.fst).sum ∧
      fs.foldl (fun a f => a * 2 ^ f.1 + f.2) acc = acc * 2 ^ (fs.map Prod.fst).sum + x := by
  induction fs generalizing acc with
  | nil => exact ⟨0, by simp, by simp⟩
  | cons f rest ih =>
    obtain ⟨x, hx, e⟩ := ih (fun g hg => hf g (List.mem_cons_of_mem _ hg)) (acc * 2 ^ f.1 + f.2)
    have hf' := hf f (List.mem_cons_self ..)
    refine ⟨f.2 * 2 ^ (rest.map Prod.fst).sum + x, ?_, ?_⟩
    · rw [List.map_cons, List.sum_cons, Nat.pow_add]
      calc f.2 * 2 ^ (rest.map Prod.fst).sum + x < (f.2 + 1) * 2 ^ (rest.map Prod.fst).sum := by
            rw [Nat.add_mul]; omega
        _ ≤ 2 ^ f.1 * 2 ^ (rest.map Prod.fst).sum := Nat.mul_le_mul_right _ hf'
    · rw [List.foldl_cons, e, List.map_cons, List.sum_cons, Nat.pow_add]; ring

/-- THE FIELD LEMMA. In a packed row of 32 bits, the field that has `post` to its right is read back: its value, at the
place that the widths of `post` give. -/
theorem extract_field (pre : List (Nat × Nat)) (n v : Nat) (post : List (Nat × Nat))
    (hf : ∀ f ∈ post, f.2 < 2 ^ f.1) (hw : n + (post.map Prod.fst).sum ≤ 32) :
    (pack (pre ++ (n, v) :: post)).extractLsb' (post.map Prod.fst).sum n = BitVec.ofNat n v := by
  obtain ⟨x, hx, e⟩ := foldl_pack post hf
    (pre.foldl (fun acc f => acc * 2 ^ f.1 + f.2) 0 * 2 ^ n + v)
  unfold pack
  rw [List.foldl_append, List.foldl_cons, e]
  generalize (post.map Prod.fst).sum = lo at *
  generalize pre.foldl (fun acc f => acc * 2 ^ f.1 + f.2) 0 = p at *
  apply BitVec.eq_of_toNat_eq
  obtain ⟨k, hk⟩ : ∃ k, 32 = lo + n + k := ⟨32 - lo - n, by omega⟩
  simp only [BitVec.extractLsb'_toNat, BitVec.toNat_ofNat, Nat.shiftRight_eq_div_pow]
  rw [hk, Nat.add_assoc, Nat.pow_add, Nat.mod_mul_right_div_self, Nat.mod_mod_of_dvd _ ⟨2 ^ k, by rw [Nat.pow_add]⟩,
    Nat.add_comm ((p * 2 ^ n + v) * 2 ^ lo) x, Nat.add_mul_div_right _ _ (Nat.two_pow_pos lo),
    Nat.div_eq_of_lt hx, Nat.zero_add, Nat.add_comm, Nat.add_mul_mod_self_right]

/-- The field lemma for a register field. -/
theorem regField_field (pre : List (Nat × Nat)) (r : Reg) (post : List (Nat × Nat))
    (hf : ∀ f ∈ post, f.2 < 2 ^ f.1) (hw : 4 + (post.map Prod.fst).sum ≤ 32) :
    regField (pack (pre ++ (4, r.val) :: post)) (post.map Prod.fst).sum = r := by
  apply Fin.ext
  show ((pack (pre ++ (4, r.val) :: post)).extractLsb' (post.map Prod.fst).sum 4).toNat = r.val
  rw [extract_field pre 4 r.val post hf hw]
  have := r.isLt
  simp only [BitVec.toNat_ofNat]
  omega

/-- The field lemma for a single bit. -/
theorem bitField_field (pre : List (Nat × Nat)) (b : Bool) (post : List (Nat × Nat))
    (hf : ∀ f ∈ post, f.2 < 2 ^ f.1) (hw : 1 + (post.map Prod.fst).sum ≤ 32) :
    bitField (pack (pre ++ (1, b.toNat) :: post)) (post.map Prod.fst).sum = b := by
  have h := extract_field pre 1 b.toNat post hf hw
  have hb : ∀ (w : Word) (i : Nat), bitField w i = (w.extractLsb' i 1).getLsbD 0 := by
    intro w i; simp [bitField]
  rw [hb, h]
  cases b <;> rfl

/-- The other way: a word's bits from `lo` up are its bits from `lo + n` up, followed by its field of `n` bits at
`lo`. -/
theorem shift_step (w : Word) (lo n : Nat) :
    w.toNat / 2 ^ (lo + n) * 2 ^ n + (w.extractLsb' lo n).toNat = w.toNat / 2 ^ lo := by
  rw [BitVec.extractLsb'_toNat, Nat.shiftRight_eq_div_pow, Nat.pow_add, ← Nat.div_div_eq_div_mul]
  exact Nat.div_add_mod' _ _

/-- The fields of operand 2 fit their places. -/
theorem operand2_fields (o2 : Operand2) :
    (o2.fields.map Prod.fst).sum = 12 ∧ ∀ f ∈ o2.fields, f.2 < 2 ^ f.1 := by
  cases o2 with
  | imm rot imm8 =>
    refine ⟨rfl, ?_⟩
    have h1 := rot.isLt
    have h2 := imm8.isLt
    simp [Operand2.fields, h1, h2]
  | shiftImm rm sh n =>
    refine ⟨rfl, ?_⟩
    have h1 := n.isLt
    have h2 := sh.bits.isLt
    have h3 := rm.isLt
    simp [Operand2.fields, h1, h2, h3]
  | shiftReg rm sh rs =>
    refine ⟨rfl, ?_⟩
    have h1 := rs.isLt
    have h2 := sh.bits.isLt
    have h3 := rm.isLt
    simp [Operand2.fields, h1, h2, h3]

/-- The fields of an offset fit their places. -/
theorem offset_fields (off : Offset) :
    (off.fields.map Prod.fst).sum = 12 ∧ ∀ f ∈ off.fields, f.2 < 2 ^ f.1 := by
  cases off with
  | imm imm12 =>
    refine ⟨rfl, ?_⟩
    have h1 := imm12.isLt
    simp [Offset.fields, h1]
  | reg rm sh n =>
    refine ⟨rfl, ?_⟩
    have h1 := n.isLt
    have h2 := sh.bits.isLt
    have h3 := rm.isLt
    simp [Offset.fields, h1, h2, h3]

/-- Bits 27:25 fit three places. -/
theorem operand2_group (o2 : Operand2) : o2.group < 2 ^ 3 := by cases o2 <;> simp [Operand2.group]

theorem offset_group (off : Offset) : off.group < 2 ^ 3 := by cases off <;> simp [Offset.group]

/-- A bit fits one place. -/
theorem bool_fits (b : Bool) : b.toNat < 2 := by cases b <;> decide

/-! ### Codes -/

@[simp] theorem Cond.ofBits_bits (c : Cond) : Cond.ofBits c.bits = some c := by cases c <;> rfl

/-- A code is a condition's exactly when the condition has that code. -/
theorem Cond.ofBits_eq_some {b : BitVec 4} {c : Cond} : Cond.ofBits b = some c ↔ b = c.bits := by
  constructor
  · revert b c; decide
  · rintro rfl; simp

/-- Only 1111 is no condition. -/
theorem Cond.ofBits_eq_none {b : BitVec 4} : Cond.ofBits b = none ↔ b = 0xF#4 := by revert b; decide

@[simp] theorem ShiftType.ofBits_bits (sh : ShiftType) : ShiftType.ofBits sh.bits = sh := by cases sh <;> rfl

@[simp] theorem ShiftType.bits_ofBits (b : BitVec 2) : (ShiftType.ofBits b).bits = b := by revert b; decide

@[simp] theorem DpOp.ofBits_write (op : WriteOp) : DpOp.ofBits op.opcode = .write op := by cases op <;> rfl

@[simp] theorem DpOp.ofBits_move (op : MoveOp) : DpOp.ofBits op.opcode = .move op := by cases op <;> rfl

@[simp] theorem DpOp.ofBits_test (op : TestOp) : DpOp.ofBits op.opcode = .test op := by cases op <;> rfl

/-- The bits 24:21 of an operation. -/
def DpOp.opcode : DpOp → BitVec 4
  | .write op => op.opcode
  | .move op => op.opcode
  | .test op => op.opcode

@[simp] theorem DpOp.opcode_ofBits (b : BitVec 4) : (DpOp.ofBits b).opcode = b := by revert b; decide

@[simp] theorem TransferOp.ofBits_bits (op : TransferOp) : TransferOp.ofBits op.lBit op.bBit = op := by
  cases op <;> rfl

@[simp] theorem TransferOp.lBit_ofBits (l b : Bool) : (TransferOp.ofBits l b).lBit = l := by cases l <;> cases b <;> rfl

@[simp] theorem TransferOp.bBit_ofBits (l b : Bool) : (TransferOp.ofBits l b).bBit = b := by cases l <;> cases b <;> rfl

@[simp] theorem Indexing.ofBits_bits (ix : Indexing) : Indexing.ofBits ix.pBit ix.wBit = some ix := by
  cases ix <;> rfl

/-- The bits P and W of an addressing mode. -/
theorem Indexing.ofBits_eq_some {p w : Bool} {ix : Indexing} (h : Indexing.ofBits p w = some ix) :
    ix.pBit = p ∧ ix.wBit = w := by
  revert h; revert p w ix; decide

/-! ### The assembler -/

/-- Rotating left and rotating right by one amount undo each other. -/
theorem rotateRight_rotateLeft (v : Word) {n : Nat} (h : n < 32) : (v.rotateLeft n).rotateRight n = v := by
  apply BitVec.eq_of_getLsbD_eq
  intro i hi
  have e : n % 32 = n := Nat.mod_eq_of_lt h
  by_cases h1 : i < 32 - n
  · simp [e, h1, hi, BitVec.getLsbD_eq_getElem]
  · simp [e, h1, hi, show i - (32 - n) < n by omega, show 32 - n + (i - (32 - n)) = i by omega,
      BitVec.getLsbD_eq_getElem]

theorem rotateLeft_rotateRight (v : Word) {n : Nat} (h : n < 32) : (v.rotateRight n).rotateLeft n = v := by
  apply BitVec.eq_of_getLsbD_eq
  intro i hi
  have e : n % 32 = n := Nat.mod_eq_of_lt h
  by_cases h1 : i < n
  · simp [e, h1, hi, BitVec.getLsbD_eq_getElem]
  · simp [e, h1, hi, show i - n < 32 - n by omega, show n + (i - n) = i by omega, BitVec.getLsbD_eq_getElem]

/-- An immediate found for a rotation is the one that stands for the constant with it. -/
theorem immediateFor_eq_some {v : Word} {rot : BitVec 4} {imm8 : BitVec 8} :
    immediateFor v rot.toNat = some imm8 ↔ fieldConstant rot imm8 = v := by
  have hr : 2 * rot.toNat < 32 := by have := rot.isLt; omega
  have hi := imm8.isLt
  constructor
  · intro h
    rw [← rotateRight_rotateLeft v hr]
    unfold immediateFor at h
    unfold fieldConstant
    generalize v.rotateLeft (2 * rot.toNat) = u at h ⊢
    split at h
    · injection h with h
      rw [← h, show (u.setWidth 8).setWidth 32 = u from BitVec.eq_of_toNat_eq (by simp; omega)]
    · cases h
  · rintro rfl
    unfold immediateFor fieldConstant
    rw [rotateLeft_rotateRight _ hr]
    simp
    omega

/-- What `smallestRotation` can answer: fields that stand for the constant, with no smaller `rot` that does, or none,
and then no fields stand for it. -/
theorem smallestRotation_cases (v : Word) :
    (∃ rot imm8, smallestRotation v = some (rot, imm8) ∧ fieldConstant rot imm8 = v ∧
      ∀ rot' imm8', fieldConstant rot' imm8' = v → rot.toNat ≤ rot'.toNat) ∨
    (smallestRotation v = none ∧ ∀ rot imm8, fieldConstant rot imm8 ≠ v) := by
  cases h : smallestRotation v with
  | none =>
    refine .inr ⟨rfl, fun rot imm8 e => ?_⟩
    have := List.findSome?_eq_none_iff.1 h rot.toNat (List.mem_range.2 rot.isLt)
    rw [immediateFor_eq_some.2 e] at this
    cases this
  | some p =>
    obtain ⟨l, r, l', hl, hp, hb⟩ := List.findSome?_eq_some_iff.1 h
    obtain ⟨imm8, hi, rfl⟩ := Option.map_eq_some_iff.1 hp
    have hr : r < 16 := List.mem_range.1 (hl ▸ List.mem_append_right _ (List.mem_cons_self ..))
    have e : (BitVec.ofNat 4 r).toNat = r := by simp; omega
    refine .inl ⟨_, imm8, rfl, immediateFor_eq_some.1 (e.symm ▸ hi), fun rot' imm8' h' => ?_⟩
    rw [e]
    by_contra hlt
    have hm : rot'.toNat ∈ l := by
      have hs : (List.range 16).Pairwise (· < ·) := List.pairwise_lt_range
      have hx : rot'.toNat ∈ List.range 16 := List.mem_range.2 rot'.isLt
      rw [hl] at hs hx
      rcases List.mem_append.1 hx with hx | hx
      · exact hx
      · rcases List.mem_cons.1 hx with hx | hx
        · omega
        · have := (List.pairwise_cons.1 (List.pairwise_append.1 hs).2.1).1 _ hx
          omega
    have := hb _ hm
    rw [immediateFor_eq_some.2 h'] at this
    cases this

end Sys2Proof
end

