-- ==== Sys2Proof/Laws/State.lean ====
section
/-! SUPPORT. One lemma per field per update of State, so that no proof unfolds a record update; then reading a register
after writing one. -/

namespace Sys2Proof.Machine

variable (s : State)

@[simp] theorem State.advance_regs : (s.advance).regs = s.regs := rfl
@[simp] theorem State.advance_pc : (s.advance).pc = s.pc + 4#32 := rfl
@[simp] theorem State.advance_flags : (s.advance).flags = s.flags := rfl
@[simp] theorem State.advance_mem : (s.advance).mem = s.mem := rfl
@[simp] theorem State.advance_out : (s.advance).out = s.out := rfl
@[simp] theorem State.advance_inpos : (s.advance).inpos = s.inpos := rfl
@[simp] theorem State.advance_halted : (s.advance).halted = s.halted := rfl
@[simp] theorem State.advance_dirty : (s.advance).dirty = s.dirty := rfl
@[simp] theorem State.advance_memValid : (s.advance).memValid = s.memValid := rfl
@[simp] theorem State.advance_input : (s.advance).input = s.input := rfl
@[simp] theorem State.advance_swi4Format : (s.advance).swi4Format = s.swi4Format := rfl
@[simp] theorem State.advance_draws : (s.advance).draws = s.draws := rfl

@[simp] theorem State.setFlagsIf_true_regs (f : Flags) : (s.setFlagsIf true f).regs = s.regs := rfl
@[simp] theorem State.setFlagsIf_true_pc (f : Flags) : (s.setFlagsIf true f).pc = s.pc := rfl
@[simp] theorem State.setFlagsIf_true_flags (f : Flags) : (s.setFlagsIf true f).flags = f := rfl
@[simp] theorem State.setFlagsIf_true_mem (f : Flags) : (s.setFlagsIf true f).mem = s.mem := rfl
@[simp] theorem State.setFlagsIf_true_out (f : Flags) : (s.setFlagsIf true f).out = s.out := rfl
@[simp] theorem State.setFlagsIf_true_inpos (f : Flags) : (s.setFlagsIf true f).inpos = s.inpos := rfl
@[simp] theorem State.setFlagsIf_true_halted (f : Flags) : (s.setFlagsIf true f).halted = s.halted := rfl
@[simp] theorem State.setFlagsIf_true_dirty (f : Flags) : (s.setFlagsIf true f).dirty = s.dirty := rfl
@[simp] theorem State.setFlagsIf_true_memValid (f : Flags) : (s.setFlagsIf true f).memValid = s.memValid := rfl
@[simp] theorem State.setFlagsIf_true_input (f : Flags) : (s.setFlagsIf true f).input = s.input := rfl
@[simp] theorem State.setFlagsIf_true_swi4Format (f : Flags) : (s.setFlagsIf true f).swi4Format = s.swi4Format := rfl
@[simp] theorem State.setFlagsIf_true_draws (f : Flags) : (s.setFlagsIf true f).draws = s.draws := rfl

@[simp] theorem State.print_regs (b : List Byte) : (s.print b).regs = s.regs := rfl
@[simp] theorem State.print_pc (b : List Byte) : (s.print b).pc = s.pc := rfl
@[simp] theorem State.print_flags (b : List Byte) : (s.print b).flags = s.flags := rfl
@[simp] theorem State.print_mem (b : List Byte) : (s.print b).mem = s.mem := rfl
@[simp] theorem State.print_out (b : List Byte) : (s.print b).out = s.out ++ b := rfl
@[simp] theorem State.print_inpos (b : List Byte) : (s.print b).inpos = s.inpos := rfl
@[simp] theorem State.print_halted (b : List Byte) : (s.print b).halted = s.halted := rfl
@[simp] theorem State.print_dirty (b : List Byte) : (s.print b).dirty = s.dirty := rfl
@[simp] theorem State.print_memValid (b : List Byte) : (s.print b).memValid = s.memValid := rfl
@[simp] theorem State.print_input (b : List Byte) : (s.print b).input = s.input := rfl
@[simp] theorem State.print_swi4Format (b : List Byte) : (s.print b).swi4Format = s.swi4Format := rfl
@[simp] theorem State.print_draws (b : List Byte) : (s.print b).draws = s.draws := rfl

@[simp] theorem State.putByte_regs (a : Word) (b : Byte) : (s.putByte a b).regs = s.regs := rfl
@[simp] theorem State.putByte_pc (a : Word) (b : Byte) : (s.putByte a b).pc = s.pc := rfl
@[simp] theorem State.putByte_flags (a : Word) (b : Byte) : (s.putByte a b).flags = s.flags := rfl
@[simp] theorem State.putByte_mem (a : Word) (b : Byte) : (s.putByte a b).mem = Memory.insert s.mem a.toNat b := rfl
@[simp] theorem State.putByte_out (a : Word) (b : Byte) : (s.putByte a b).out = s.out := rfl
@[simp] theorem State.putByte_inpos (a : Word) (b : Byte) : (s.putByte a b).inpos = s.inpos := rfl
@[simp] theorem State.putByte_halted (a : Word) (b : Byte) : (s.putByte a b).halted = s.halted := rfl
@[simp] theorem State.putByte_dirty (a : Word) (b : Byte) : (s.putByte a b).dirty = s.dirty := rfl
@[simp] theorem State.putByte_memValid (a : Word) (b : Byte) : (s.putByte a b).memValid = s.memValid := rfl
@[simp] theorem State.putByte_input (a : Word) (b : Byte) : (s.putByte a b).input = s.input := rfl
@[simp] theorem State.putByte_swi4Format (a : Word) (b : Byte) : (s.putByte a b).swi4Format = s.swi4Format := rfl
@[simp] theorem State.putByte_draws (a : Word) (b : Byte) : (s.putByte a b).draws = s.draws := rfl

@[simp] theorem State.markDirty_regs (a : Word) : (s.markDirty a).regs = s.regs := rfl
@[simp] theorem State.markDirty_pc (a : Word) : (s.markDirty a).pc = s.pc := rfl
@[simp] theorem State.markDirty_flags (a : Word) : (s.markDirty a).flags = s.flags := rfl
@[simp] theorem State.markDirty_mem (a : Word) : (s.markDirty a).mem = s.mem := rfl
@[simp] theorem State.markDirty_out (a : Word) : (s.markDirty a).out = s.out := rfl
@[simp] theorem State.markDirty_inpos (a : Word) : (s.markDirty a).inpos = s.inpos := rfl
@[simp] theorem State.markDirty_halted (a : Word) : (s.markDirty a).halted = s.halted := rfl
@[simp] theorem State.markDirty_dirty (a : Word) : (s.markDirty a).dirty = insertAddress s.dirty (wordAddress a) := rfl
@[simp] theorem State.markDirty_memValid (a : Word) : (s.markDirty a).memValid = s.memValid := rfl
@[simp] theorem State.markDirty_input (a : Word) : (s.markDirty a).input = s.input := rfl
@[simp] theorem State.markDirty_swi4Format (a : Word) : (s.markDirty a).swi4Format = s.swi4Format := rfl
@[simp] theorem State.markDirty_draws (a : Word) : (s.markDirty a).draws = s.draws := rfl

@[simp] theorem State.putWord_regs (a w : Word) : (s.putWord a w).regs = s.regs := rfl
@[simp] theorem State.putWord_pc (a w : Word) : (s.putWord a w).pc = s.pc := rfl
@[simp] theorem State.putWord_flags (a w : Word) : (s.putWord a w).flags = s.flags := rfl
@[simp] theorem State.putWord_out (a w : Word) : (s.putWord a w).out = s.out := rfl
@[simp] theorem State.putWord_inpos (a w : Word) : (s.putWord a w).inpos = s.inpos := rfl
@[simp] theorem State.putWord_halted (a w : Word) : (s.putWord a w).halted = s.halted := rfl
@[simp] theorem State.putWord_dirty (a w : Word) : (s.putWord a w).dirty = s.dirty := rfl
@[simp] theorem State.putWord_memValid (a w : Word) : (s.putWord a w).memValid = s.memValid := rfl
@[simp] theorem State.putWord_input (a w : Word) : (s.putWord a w).input = s.input := rfl
@[simp] theorem State.putWord_swi4Format (a w : Word) : (s.putWord a w).swi4Format = s.swi4Format := rfl
@[simp] theorem State.putWord_draws (a w : Word) : (s.putWord a w).draws = s.draws := rfl

@[simp] theorem State.loadImage_regs (image : List Host.Cell) : (s.loadImage image).regs = s.regs := rfl
@[simp] theorem State.loadImage_pc (image : List Host.Cell) : (s.loadImage image).pc = s.pc := rfl
@[simp] theorem State.loadImage_flags (image : List Host.Cell) : (s.loadImage image).flags = s.flags := rfl
@[simp] theorem State.loadImage_out (image : List Host.Cell) : (s.loadImage image).out = s.out := rfl
@[simp] theorem State.loadImage_inpos (image : List Host.Cell) : (s.loadImage image).inpos = s.inpos := rfl
@[simp] theorem State.loadImage_halted (image : List Host.Cell) : (s.loadImage image).halted = s.halted := rfl
@[simp] theorem State.loadImage_dirty (image : List Host.Cell) : (s.loadImage image).dirty = s.dirty := rfl
@[simp] theorem State.loadImage_input (image : List Host.Cell) : (s.loadImage image).input = s.input := rfl
@[simp] theorem State.loadImage_swi4Format (image : List Host.Cell) : (s.loadImage image).swi4Format = s.swi4Format := rfl
@[simp] theorem State.loadImage_draws (image : List Host.Cell) : (s.loadImage image).draws = s.draws := rfl

@[simp] theorem State.setFlagsIf_false (f : Flags) : s.setFlagsIf false f = s := rfl

@[simp] theorem State.setReg_pc (r : Reg) (v : Word) : (s.setReg r v).pc = s.pc := by
  unfold State.setReg; split <;> rfl
@[simp] theorem State.setReg_flags (r : Reg) (v : Word) : (s.setReg r v).flags = s.flags := by
  unfold State.setReg; split <;> rfl
@[simp] theorem State.setReg_mem (r : Reg) (v : Word) : (s.setReg r v).mem = s.mem := by
  unfold State.setReg; split <;> rfl
@[simp] theorem State.setReg_out (r : Reg) (v : Word) : (s.setReg r v).out = s.out := by
  unfold State.setReg; split <;> rfl
@[simp] theorem State.setReg_inpos (r : Reg) (v : Word) : (s.setReg r v).inpos = s.inpos := by
  unfold State.setReg; split <;> rfl
@[simp] theorem State.setReg_halted (r : Reg) (v : Word) : (s.setReg r v).halted = s.halted := by
  unfold State.setReg; split <;> rfl
@[simp] theorem State.setReg_dirty (r : Reg) (v : Word) : (s.setReg r v).dirty = s.dirty := by
  unfold State.setReg; split <;> rfl
@[simp] theorem State.setReg_memValid (r : Reg) (v : Word) : (s.setReg r v).memValid = s.memValid := by
  unfold State.setReg; split <;> rfl
@[simp] theorem State.setReg_input (r : Reg) (v : Word) : (s.setReg r v).input = s.input := by
  unfold State.setReg; split <;> rfl
@[simp] theorem State.setReg_swi4Format (r : Reg) (v : Word) : (s.setReg r v).swi4Format = s.swi4Format := by
  unfold State.setReg; split <;> rfl
@[simp] theorem State.setReg_draws (r : Reg) (v : Word) : (s.setReg r v).draws = s.draws := by
  unfold State.setReg; split <;> rfl

@[simp] theorem State.setFlagsIf_regs (sb : Bool) (f : Flags) : (s.setFlagsIf sb f).regs = s.regs := by
  cases sb <;> rfl
@[simp] theorem State.setFlagsIf_pc (sb : Bool) (f : Flags) : (s.setFlagsIf sb f).pc = s.pc := by
  cases sb <;> rfl
@[simp] theorem State.setFlagsIf_mem (sb : Bool) (f : Flags) : (s.setFlagsIf sb f).mem = s.mem := by
  cases sb <;> rfl
@[simp] theorem State.setFlagsIf_out (sb : Bool) (f : Flags) : (s.setFlagsIf sb f).out = s.out := by
  cases sb <;> rfl
@[simp] theorem State.setFlagsIf_inpos (sb : Bool) (f : Flags) : (s.setFlagsIf sb f).inpos = s.inpos := by
  cases sb <;> rfl
@[simp] theorem State.setFlagsIf_halted (sb : Bool) (f : Flags) : (s.setFlagsIf sb f).halted = s.halted := by
  cases sb <;> rfl
@[simp] theorem State.setFlagsIf_dirty (sb : Bool) (f : Flags) : (s.setFlagsIf sb f).dirty = s.dirty := by
  cases sb <;> rfl
@[simp] theorem State.setFlagsIf_memValid (sb : Bool) (f : Flags) : (s.setFlagsIf sb f).memValid = s.memValid := by
  cases sb <;> rfl
@[simp] theorem State.setFlagsIf_input (sb : Bool) (f : Flags) : (s.setFlagsIf sb f).input = s.input := by
  cases sb <;> rfl
@[simp] theorem State.setFlagsIf_swi4Format (sb : Bool) (f : Flags) : (s.setFlagsIf sb f).swi4Format = s.swi4Format := by
  cases sb <;> rfl
@[simp] theorem State.setFlagsIf_draws (sb : Bool) (f : Flags) : (s.setFlagsIf sb f).draws = s.draws := by
  cases sb <;> rfl

@[simp] theorem State.setFlagsIf_flags (sb : Bool) (f : Flags) :
    (s.setFlagsIf sb f).flags = if sb then f else s.flags := by
  cases sb <;> rfl

/-- The registers after a write of one of R0 to R14. -/
theorem State.setReg_regs (r : Reg) (v : Word) (h : r.val < 15) : (s.setReg r v).regs = s.regs.set r.val v := by
  simp [State.setReg, h]

/-- R15 is not written by `setReg`. -/
@[simp] theorem State.setReg_pcReg (v : Word) : s.setReg pcReg v = s := by
  simp [State.setReg, pcReg]

/-- A register other than R15 is below 15. -/
theorem Reg.lt_of_ne_pc {r : Reg} (h : r ≠ pcReg) : r.val < 15 := by
  have h15 : r.val ≠ 15 := fun e => h (Fin.ext e)
  have := r.isLt
  omega

/-- R15 reads the pc plus 8 (R13). -/
@[simp] theorem State.reg_pc : s.reg pcReg = s.pc + 8#32 := by simp [State.reg, pcReg]

/-- One of R0 to R14 reads its place in the register file. -/
theorem State.reg_of_lt (r : Reg) (h : r.val < 15) : s.reg r = s.regs[r.val] := by simp [State.reg, h]

/-- A read of a register depends on the register file and the pc only. -/
theorem State.reg_congr {t : State} (hr : t.regs = s.regs) (hp : t.pc = s.pc) (r : Reg) : t.reg r = s.reg r := by
  unfold State.reg; simp only [hr, hp]

/-- A register just written reads the value (R0 to R14). -/
theorem State.reg_setReg_same (r : Reg) (v : Word) (h : r ≠ pcReg) : (s.setReg r v).reg r = v := by
  have hr := Reg.lt_of_ne_pc h
  simp [State.reg, State.setReg, hr]

/-- A write of one register leaves every other. -/
theorem State.reg_setReg_ne (r q : Reg) (v : Word) (h : q ≠ r) : (s.setReg r v).reg q = s.reg q := by
  unfold State.reg State.setReg
  have hv : r.val ≠ q.val := fun e => h (Fin.ext e.symm)
  split <;> split <;> simp_all

@[simp] theorem State.reg_setFlagsIf_true (f : Flags) (r : Reg) : (s.setFlagsIf true f).reg r = s.reg r := rfl
@[simp] theorem State.reg_print (b : List Byte) (r : Reg) : (s.print b).reg r = s.reg r := rfl
@[simp] theorem State.reg_putByte (a : Word) (b : Byte) (r : Reg) : (s.putByte a b).reg r = s.reg r := rfl
@[simp] theorem State.reg_markDirty (a : Word) (r : Reg) : (s.markDirty a).reg r = s.reg r := rfl
@[simp] theorem State.reg_putWord (a w : Word) (r : Reg) : (s.putWord a w).reg r = s.reg r := rfl
@[simp] theorem State.reg_loadImage (image : List Host.Cell) (r : Reg) : (s.loadImage image).reg r = s.reg r := rfl

/-- Moving the pc leaves R0 to R14. -/
theorem State.reg_advance (r : Reg) (h : r ≠ pcReg) : s.advance.reg r = s.reg r := by
  simp [State.reg, Reg.lt_of_ne_pc h]

/-- Writing the flags leaves the registers. -/
@[simp] theorem State.reg_setFlagsIf (sb : Bool) (f : Flags) (r : Reg) : (s.setFlagsIf sb f).reg r = s.reg r := by
  cases sb <;> rfl

end Sys2Proof.Machine
end

