-- ==== Sys2Proof/Laws/Memory.lean ====
section
/-! SUPPORT. Memory: read after write, and every operation keeps the canonical form (of the listing and of `dirty`). -/

namespace Sys2Proof.Machine

/-! ### The listing -/

theorem Memory.lookup_insert_same (m : Memory) (a : Nat) (b : Byte) : (m.insert a b).lookup a = some b := by
  induction m with
  | nil => simp [Memory.insert, Memory.lookup]
  | cons x rest ih =>
    obtain ⟨k, v⟩ := x
    simp only [Memory.insert]
    split
    · simp [Memory.lookup]
    · split
      · simp [Memory.lookup]
      · simp only [Memory.lookup, ih]; split <;> simp_all

theorem Memory.lookup_insert_ne (m : Memory) (a q : Nat) (b : Byte) (h : q ≠ a) :
    (m.insert a b).lookup q = m.lookup q := by
  induction m with
  | nil => simp [Memory.insert, Memory.lookup, Ne.symm h]
  | cons x rest ih =>
    obtain ⟨k, v⟩ := x
    simp only [Memory.insert]
    split
    · simp [Memory.lookup, Ne.symm h]
    · split
      · subst_vars; simp [Memory.lookup, Ne.symm h]
      · simp [Memory.lookup, ih]

/-- An entry after an insertion is the new one or an old one. -/
theorem Memory.mem_insert (m : Memory) (a : Nat) (b : Byte) (x : Host.Cell) (hx : x ∈ m.insert a b) :
    x = (a, b) ∨ x ∈ m := by
  induction m with
  | nil => simpa [Memory.insert] using hx
  | cons y rest ih =>
    obtain ⟨k, v⟩ := y
    simp only [Memory.insert] at hx
    split at hx
    · simpa using hx
    · split at hx
      · simp only [List.mem_cons] at hx ⊢; tauto
      · simp only [List.mem_cons] at hx ⊢; tauto

/-- An insertion keeps the addresses strictly rising. -/
theorem Memory.insert_pairwise (m : Memory) (a : Nat) (b : Byte) (h : m.Pairwise (fun x y => x.1 < y.1)) :
    (m.insert a b).Pairwise (fun x y => x.1 < y.1) := by
  induction m with
  | nil => simp [Memory.insert]
  | cons y rest ih =>
    obtain ⟨k, v⟩ := y
    rw [List.pairwise_cons] at h
    simp only [Memory.insert]
    split
    · next hlt =>
      refine List.pairwise_cons.2 ⟨?_, List.pairwise_cons.2 h⟩
      intro x hx
      rcases List.mem_cons.1 hx with rfl | hx
      · exact hlt
      · exact lt_trans hlt (h.1 x hx)
    · split
      · next heq => subst heq; exact List.pairwise_cons.2 h
      · next hle hne =>
        refine List.pairwise_cons.2 ⟨?_, ih h.2⟩
        intro x hx
        rcases Memory.mem_insert rest a b x hx with rfl | hx
        · have : k < a := by omega
          exact this
        · exact h.1 x hx

/-- An insertion keeps the canonical form. -/
theorem Memory.insert_wf (m : Memory) (a : Nat) (b : Byte) (h : m.wf) (ha : a < 2 ^ 32) : (m.insert a b).wf := by
  refine ⟨Memory.insert_pairwise m a b h.1, fun x hx => ?_⟩
  rcases Memory.mem_insert m a b x hx with rfl | hx
  · exact ha
  · exact h.2 x hx

/-! ### The set of modified words -/

theorem mem_insertAddress (d : List Nat) (a q : Nat) : q ∈ insertAddress d a ↔ q = a ∨ q ∈ d := by
  induction d with
  | nil => simp [insertAddress]
  | cons k rest ih =>
    simp only [insertAddress]
    split
    · simp
    · split
      · next h => subst h; simp
      · simp only [List.mem_cons, ih]; tauto

theorem insertAddress_pairwise (d : List Nat) (a : Nat) (h : d.Pairwise (· < ·)) :
    (insertAddress d a).Pairwise (· < ·) := by
  induction d with
  | nil => simp [insertAddress]
  | cons k rest ih =>
    rw [List.pairwise_cons] at h
    simp only [insertAddress]
    split
    · next hlt =>
      refine List.pairwise_cons.2 ⟨?_, List.pairwise_cons.2 h⟩
      intro x hx
      rcases List.mem_cons.1 hx with rfl | hx
      · exact hlt
      · exact lt_trans hlt (h.1 x hx)
    · split
      · exact List.pairwise_cons.2 h
      · next hle hne =>
        refine List.pairwise_cons.2 ⟨?_, ih h.2⟩
        intro x hx
        rcases (mem_insertAddress rest a x).1 hx with rfl | hx
        · omega
        · exact h.1 x hx

/-- The word address of an address is a multiple of 4, below 2^32. -/
theorem wordAddress_spec (a : Word) : wordAddress a % 4 = 0 ∧ wordAddress a < 2 ^ 32 := by
  have := a.isLt
  simp only [wordAddress]
  omega

/-- Marking a word keeps the canonical form of `dirty`. -/
theorem insertAddress_wf (d : List Nat) (a : Word) (h : dirtyWf d) : dirtyWf (insertAddress d (wordAddress a)) := by
  refine ⟨insertAddress_pairwise d _ h.1, fun x hx => ?_⟩
  rcases (mem_insertAddress d _ x).1 hx with rfl | hx
  · exact wordAddress_spec a
  · exact h.2 x hx

/-! ### Bytes of the state -/

variable (s : State)

/-- A byte read depends on memory only. -/
theorem State.readByte_congr {t : State} (h : t.mem = s.mem) (a : Word) : t.readByte a = s.readByte a := by
  simp only [State.readByte, h]

/-- A word read depends on memory only. -/
theorem State.readWord_congr {t : State} (h : t.mem = s.mem) (a : Word) : t.readWord a = s.readWord a := by
  simp only [State.readWord, State.readByte_congr s h]

/-- Validity depends on MEM_VALID only. -/
theorem State.isValid_congr {t : State} (h : t.memValid = s.memValid) (a : Word) : t.isValid a = s.isValid a := by
  simp only [State.isValid, h]

@[simp] theorem State.readByte_putByte_same (a : Word) (b : Byte) : (s.putByte a b).readByte a = b := by
  simp [State.readByte, State.putByte, Memory.lookup_insert_same]

theorem State.readByte_putByte_ne (a q : Word) (b : Byte) (h : q ≠ a) :
    (s.putByte a b).readByte q = s.readByte q := by
  have : q.toNat ≠ a.toNat := fun e => h (BitVec.eq_of_toNat_eq e)
  simp [State.readByte, State.putByte, Memory.lookup_insert_ne _ _ _ _ this]

@[simp] theorem State.readByte_markDirty (a q : Word) : (s.markDirty a).readByte q = s.readByte q := rfl

@[simp] theorem State.readWord_markDirty (a q : Word) : (s.markDirty a).readWord q = s.readWord q := rfl

@[simp] theorem State.isValid_putByte (a q : Word) (b : Byte) : (s.putByte a b).isValid q = s.isValid q := rfl

/-- The byte at each address after a word is put: the word's own byte at the four addresses, the old one elsewhere. -/
theorem State.readByte_putWord (a w q : Word) :
    (s.putWord a w).readByte q =
      if q = a + 3#32 then byteOfWord w 3
      else if q = a + 2#32 then byteOfWord w 2
      else if q = a + 1#32 then byteOfWord w 1
      else if q = a then byteOfWord w 0
      else s.readByte q := by
  unfold State.putWord
  split
  · next h => subst h; simp
  · next h3 =>
    rw [State.readByte_putByte_ne _ _ _ _ h3]
    split
    · next h => subst h; simp
    · next h2 =>
      rw [State.readByte_putByte_ne _ _ _ _ h2]
      split
      · next h => subst h; simp
      · next h1 =>
        rw [State.readByte_putByte_ne _ _ _ _ h1]
        split
        · next h => subst h; simp
        · next h0 => rw [State.readByte_putByte_ne _ _ _ _ h0]

/-- A word is the word of its four bytes. -/
theorem wordOfBytes_byteOfWord (w : Word) :
    wordOfBytes (byteOfWord w 0) (byteOfWord w 1) (byteOfWord w 2) (byteOfWord w 3) = w := by
  apply BitVec.eq_of_toNat_eq
  have := w.isLt
  simp [wordOfBytes, byteOfWord, BitVec.extractLsb'_toNat, Nat.shiftRight_eq_div_pow]
  omega

/-- A word put into memory is read back. -/
theorem State.readWord_putWord_same (a w : Word) : (s.putWord a w).readWord a = w := by
  simp only [State.readWord, State.readByte_putWord]
  simp [wordOfBytes_byteOfWord]

/-- A word put into memory leaves every other byte. -/
theorem State.readByte_putWord_ne (a w q : Word) (h0 : q ≠ a) (h1 : q ≠ a + 1#32) (h2 : q ≠ a + 2#32)
    (h3 : q ≠ a + 3#32) : (s.putWord a w).readByte q = s.readByte q := by
  simp [State.readByte_putWord, h0, h1, h2, h3]

/-- Putting a byte keeps the canonical form. -/
theorem State.putByte_wf (a : Word) (b : Byte) (h : s.mem.wf) : (s.putByte a b).mem.wf :=
  Memory.insert_wf _ _ _ h a.isLt

/-- Putting a word keeps the canonical form. -/
theorem State.putWord_wf (a w : Word) (h : s.mem.wf) : (s.putWord a w).mem.wf := by
  unfold State.putWord
  exact State.putByte_wf _ _ _ (State.putByte_wf _ _ _ (State.putByte_wf _ _ _ (State.putByte_wf _ _ _ h)))

/-- Marking a word keeps the canonical form of memory, which it does not touch. -/
theorem State.markDirty_wf (a : Word) (h : s.mem.wf) : (s.markDirty a).mem.wf := h

/-- Loading bytes from outside keeps the canonical form. -/
theorem State.loadImage_wf (image : List Host.Cell) (h : s.mem.wf) (hi : ∀ x ∈ image, x.1 < 2 ^ 32) :
    (s.loadImage image).mem.wf := by
  show (image.foldl (fun m x => Memory.insert m x.1 x.2) s.mem).wf
  generalize s.mem = m at h
  induction image generalizing m with
  | nil => exact h
  | cons x rest ih =>
    exact ih (fun y hy => hi y (List.mem_cons_of_mem _ hy)) _
      (Memory.insert_wf _ _ _ h (hi x (List.mem_cons_self ..)))

/-- Placing an instruction keeps the canonical form. -/
theorem State.placeInstruction_wf (w : Word) (h : s.mem.wf) : (s.placeInstruction w).mem.wf :=
  State.putWord_wf _ _ _ h

/-- Every listed byte stays at a valid address when a valid byte is put. -/
theorem State.putByte_listedValid (a : Word) (b : Byte)
    (h : ∀ x ∈ s.mem, s.isValid (BitVec.ofNat 32 x.1) = true) (ha : s.isValid a = true) :
    ∀ x ∈ (s.putByte a b).mem, s.isValid (BitVec.ofNat 32 x.1) = true := by
  intro x hx
  rcases Memory.mem_insert _ _ _ x hx with rfl | hx
  · simpa using ha
  · exact h x hx

/-- The memory of the state after reset is in its canonical form. -/
theorem reset_mem_wf : State.reset.mem.wf := by decide

/-- No address of an access is invalid, read off one by one. -/
theorem State.firstInvalid_four (a : Word) :
    s.firstInvalid 4 a = none ↔
      s.isValid a = true ∧ s.isValid (a + 1#32) = true ∧ s.isValid (a + 2#32) = true ∧
        s.isValid (a + 3#32) = true := by
  have e2 : a + 1#32 + 1#32 = a + 2#32 := by bv_omega
  have e3 : a + 2#32 + 1#32 = a + 3#32 := by bv_omega
  simp only [State.firstInvalid, e2, e3]
  cases s.isValid a <;> cases s.isValid (a + 1#32) <;> cases s.isValid (a + 2#32) <;>
    cases s.isValid (a + 3#32) <;> simp

theorem State.firstInvalid_one (a : Word) : s.firstInvalid 1 a = none ↔ s.isValid a = true := by
  simp only [State.firstInvalid]
  cases s.isValid a <;> simp

/-- The first invalid address of an access, when the `k` addresses before it are valid. -/
theorem State.firstInvalid_at (n k : Nat) (a : Word) (hk : k < n)
    (hv : ∀ j, j < k → s.isValid (a + BitVec.ofNat 32 j) = true) (hi : s.isValid (a + BitVec.ofNat 32 k) = false) :
    s.firstInvalid n a = some (a + BitVec.ofNat 32 k) := by
  induction n generalizing a k with
  | zero => omega
  | succ n ih =>
    have shift : ∀ j, a + 1#32 + BitVec.ofNat 32 j = a + BitVec.ofNat 32 (j + 1) := by
      intro j
      apply BitVec.eq_of_toNat_eq
      simp
      omega
    cases k with
    | zero => simp at hi; simp [State.firstInvalid, hi]
    | succ k =>
      have h0 := hv 0 (by omega)
      simp only [BitVec.add_zero] at h0
      rw [State.firstInvalid, if_pos h0, ih k (a + 1#32) (by omega)
        (fun j hj => by rw [shift]; exact hv _ (by omega)) (by rw [shift]; exact hi), shift]

/-- A byte put into one word leaves every other word. -/
theorem State.readWord_putByte_ne (a q : Word) (b : Byte) (hq : q.toNat % 4 = 0) (h : q.toNat ≠ wordAddress a) :
    (s.putByte a b).readWord q = s.readWord q := by
  have hne : a ≠ q ∧ a ≠ q + 1#32 ∧ a ≠ q + 2#32 ∧ a ≠ q + 3#32 := by
    simp only [wordAddress] at h
    refine ⟨?_, ?_, ?_, ?_⟩ <;>
      (rintro rfl; apply h; first | omega | (simp only [BitVec.toNat_add, BitVec.toNat_ofNat] at *; omega))
  obtain ⟨h0, h1, h2, h3⟩ := hne
  simp only [State.readWord, State.readByte_putByte_ne s _ _ _ h0.symm, State.readByte_putByte_ne s _ _ _ h1.symm,
    State.readByte_putByte_ne s _ _ _ h2.symm, State.readByte_putByte_ne s _ _ _ h3.symm]

/-- A word put at a multiple of 4 leaves every other word. -/
theorem State.readWord_putWord_ne (a q w : Word) (hq : q.toNat % 4 = 0) (ha : a.toNat % 4 = 0) (h : q ≠ a) :
    (s.putWord a w).readWord q = s.readWord q := by
  have hn : q.toNat ≠ a.toNat := fun e => h (BitVec.eq_of_toNat_eq e)
  unfold State.putWord
  rw [State.readWord_putByte_ne _ _ _ _ hq, State.readWord_putByte_ne _ _ _ _ hq,
    State.readWord_putByte_ne _ _ _ _ hq, State.readWord_putByte_ne _ _ _ _ hq] <;>
    simp only [wordAddress, BitVec.toNat_add, BitVec.toNat_ofNat] <;> omega

end Sys2Proof.Machine
end

