-- ==== Sys2Proof/Laws/Ops.lean ====
section
/-! SUPPORT. For each shared operation one lemma that says once everything it can do; then `exec` by families: the
effect of an instruction as a function of its shape. -/

namespace Sys2Proof.Machine

variable {s t : State}

/-! ### Control and results -/

/-- What a jump can do: a next state whose pc is the target, a multiple of 4, or the refusal. -/
theorem State.jump_cases (s : State) (v : Word) :
    (v.toNat % 4 = 0 ∧ s.jump v = .next { s with pc := v }) ∨
      (v.toNat % 4 ≠ 0 ∧ s.jump v = .refused (.pcMisaligned v)) := by
  unfold State.jump
  split
  · next h => exact .inl ⟨h, rfl⟩
  · next h => exact .inr ⟨h, rfl⟩

/-- What the write of a result can do: write one of R0 to R14 and move on, or jump, or refuse. -/
theorem State.writeRd_cases (s : State) (rd : Reg) (v : Word) :
    (rd ≠ pcReg ∧ s.writeRd rd v = .next (s.setReg rd v).advance) ∨
      (rd = pcReg ∧ v.toNat % 4 = 0 ∧ s.writeRd rd v = .next { s with pc := v }) ∨
      (rd = pcReg ∧ v.toNat % 4 ≠ 0 ∧ s.writeRd rd v = .refused (.pcMisaligned v)) := by
  unfold State.writeRd
  split
  · next h =>
    rcases s.jump_cases v with ⟨ha, hj⟩ | ⟨ha, hj⟩
    · exact .inr (.inl ⟨h, ha, hj⟩)
    · exact .inr (.inr ⟨h, ha, hj⟩)
  · next h => exact .inl ⟨h, rfl⟩

/-- A write of a result that answers a next state: one of two. -/
theorem State.writeRd_next {rd : Reg} {v : Word} (h : s.writeRd rd v = .next t) :
    (rd ≠ pcReg ∧ t = (s.setReg rd v).advance) ∨ (rd = pcReg ∧ v.toNat % 4 = 0 ∧ t = { s with pc := v }) := by
  rcases s.writeRd_cases rd v with ⟨hr, e⟩ | ⟨hr, ha, e⟩ | ⟨_, _, e⟩
  · rw [e] at h; injection h with h; exact .inl ⟨hr, h.symm⟩
  · rw [e] at h; injection h with h; exact .inr ⟨hr, ha, h.symm⟩
  · rw [e] at h; cases h

/-- What an instruction can do once decoded: its static refusal, the move of the pc alone, or its effect. -/
theorem perform_cases (i : Instr) (s : State) (effect : Result) :
    (∃ r, i.staticRefusal = some r ∧ perform i s effect = .refused (staticOutcome r (encode i))) ∨
      (WellFormed i ∧ condPassed i.cond s.flags = false ∧ perform i s effect = .next s.advance) ∨
      (WellFormed i ∧ condPassed i.cond s.flags = true ∧ perform i s effect = effect) := by
  unfold perform
  cases h : i.staticRefusal with
  | some r => exact .inl ⟨r, rfl, rfl⟩
  | none =>
    cases hc : condPassed i.cond s.flags with
    | false => exact .inr (.inl ⟨h, rfl, rfl⟩)
    | true => exact .inr (.inr ⟨h, rfl, rfl⟩)

/-- A well-formed instruction whose condition passes has its effect. -/
theorem perform_passed {i : Instr} {effect : Result} (hw : WellFormed i) (hc : condPassed i.cond s.flags = true) :
    perform i s effect = effect := by
  simp [perform, hw, hc]

/-- A well-formed instruction whose condition fails only moves the pc. -/
theorem perform_failed {i : Instr} {effect : Result} (hw : WellFormed i) (hc : condPassed i.cond s.flags = false) :
    perform i s effect = .next s.advance := by
  simp [perform, hw, hc]

/-! ### Accesses -/

/-- No byte of the access is outside MEM_VALID exactly when there is no fault. -/
theorem State.accessFault_none {a : Word} {n : Nat} {k : AccessKind} :
    s.accessFault a n k = none ↔ s.firstInvalid n a = none := by
  simp [State.accessFault]

/-- A byte load that completes reads a valid byte. -/
theorem State.loadByte_ok {a : Word} {b : Byte} : s.loadByte a = .ok b ↔ s.isValid a = true ∧ b = s.readByte a := by
  unfold State.loadByte
  cases h : s.accessFault a 1 .load with
  | none =>
    rw [State.accessFault_none, State.firstInvalid_one] at h
    simp [h, eq_comm]
  | some f =>
    have : ¬ s.isValid a = true := fun hv => by
      rw [← State.firstInvalid_one, ← State.accessFault_none (k := .load)] at hv
      simp [hv] at h
    simp [this]

/-- An aligned word load that completes reads a valid word. -/
theorem State.loadAligned_ok {a w : Word} :
    s.loadAligned a = .ok w ↔ s.firstInvalid 4 a = none ∧ w = s.readWord a := by
  unfold State.loadAligned
  cases h : s.accessFault a 4 .load with
  | none =>
    rw [State.accessFault_none] at h
    simp [h, eq_comm]
  | some f =>
    have : ¬ s.firstInvalid 4 a = none := fun hv => by
      rw [← State.accessFault_none (k := .load)] at hv
      simp [hv] at h
    simp [this]

/-- A byte store that completes puts one valid byte and marks its word. -/
theorem State.storeByte_ok {a : Word} {b : Byte} :
    s.storeByte a b = .ok t ↔ s.isValid a = true ∧ t = (s.putByte a b).markDirty a := by
  unfold State.storeByte
  cases h : s.accessFault a 1 .store with
  | none =>
    rw [State.accessFault_none, State.firstInvalid_one] at h
    simp [h, eq_comm]
  | some f =>
    have : ¬ s.isValid a = true := fun hv => by
      rw [← State.firstInvalid_one, ← State.accessFault_none (k := .store)] at hv
      simp [hv] at h
    simp [this]

/-- An aligned word store that completes puts one valid word and marks it. -/
theorem State.storeAligned_ok {a w : Word} :
    s.storeAligned a w = .ok t ↔ s.firstInvalid 4 a = none ∧ t = (s.putWord a w).markDirty a := by
  unfold State.storeAligned
  cases h : s.accessFault a 4 .store with
  | none =>
    rw [State.accessFault_none] at h
    simp [h, eq_comm]
  | some f =>
    have : ¬ s.firstInvalid 4 a = none := fun hv => by
      rw [← State.accessFault_none (k := .store)] at hv
      simp [hv] at h
    simp [this]

/-- The word access of LDR completes exactly at a valid multiple of 4. -/
theorem State.loadWord_ok {a w : Word} :
    s.loadWord a = .ok w ↔ a.toNat % 4 = 0 ∧ s.firstInvalid 4 a = none ∧ w = s.readWord a := by
  unfold State.loadWord
  split
  · next h => simp [h, State.loadAligned_ok]
  · next h => simp [h, misalignedWord]

/-- The word access of STR completes exactly at a valid multiple of 4. -/
theorem State.storeWord_ok {a w : Word} :
    s.storeWord a w = .ok t ↔
      a.toNat % 4 = 0 ∧ s.firstInvalid 4 a = none ∧ t = (s.putWord a w).markDirty a := by
  unfold State.storeWord
  split
  · next h => simp [h, State.storeAligned_ok]
  · next h => simp [h, misalignedWord]

/-- A word access at an address that is no multiple of 4 is refused, a load or a store. -/
theorem State.misaligned_refused {a : Word} (h : a.toNat % 4 ≠ 0) (v : Word) :
    s.loadWord a = .error (.refusal (.misalignedWord a)) ∧
      s.storeWord a v = .error (.refusal (.misalignedWord a)) := by
  simp [State.loadWord, State.storeWord, h, misalignedWord]

/-- A fetch that completes reads a valid, unmodified word at a multiple of 4. -/
theorem fetch_ok {w : Word} :
    fetch s = .ok w ↔
      s.pc.toNat % 4 = 0 ∧ wordAddress s.pc ∉ s.dirty ∧ s.firstInvalid 4 s.pc = none ∧ w = s.readWord s.pc := by
  unfold fetch
  split
  · next ha =>
    split
    · next hd => simp_all
    · next hd =>
      have hd' : wordAddress s.pc ∉ s.dirty := by simpa using hd
      cases hv : s.firstInvalid 4 s.pc with
      | none => simp [ha, hd', eq_comm]
      | some x => simp
  · next ha => simp [ha]

/-- A stop of an access is never a next state. -/
theorem Stop.outcome_ne_next (e : Stop) : e.outcome ≠ .next t := by cases e <;> simp [Stop.outcome, raise]

/-! ### The templates -/

/-- The write-back of the base: the register write or nothing. -/
theorem writeBack_eq (u : State) (ix : Indexing) (rn : Reg) (v : Word) :
    writeBack u ix rn v = if ix.writesBase then u.setReg rn v else u := rfl

/-- A write-back changes the register file alone. -/
theorem writeBack_frame (u : State) (ix : Indexing) (rn : Reg) (v : Word) :
    writeBack u ix rn v = { u with regs := (writeBack u ix rn v).regs } := by
  unfold writeBack State.setReg
  split <;> [split; skip] <;> rfl

/-- A write-back leaves memory. -/
@[simp] theorem writeBack_mem (u : State) (ix : Indexing) (rn : Reg) (v : Word) : (writeBack u ix rn v).mem = u.mem := by
  rw [writeBack_frame]

/-- A write-back leaves the marks. -/
@[simp] theorem writeBack_dirty (u : State) (ix : Indexing) (rn : Reg) (v : Word) :
    (writeBack u ix rn v).dirty = u.dirty := by
  rw [writeBack_frame]

/-- A write-back leaves the pc. -/
@[simp] theorem writeBack_pc (u : State) (ix : Indexing) (rn : Reg) (v : Word) : (writeBack u ix rn v).pc = u.pc := by
  rw [writeBack_frame]

/-- The base register after a write-back. -/
theorem writeBack_reg_base (u : State) (ix : Indexing) (rn : Reg) (v : Word) (hb : ix.writesBase = true)
    (hn : rn ≠ pcReg) : (writeBack u ix rn v).reg rn = v := by
  rw [writeBack_eq, if_pos hb, State.reg_setReg_same _ _ _ hn]

/-- Every other register after a write-back. -/
theorem writeBack_reg_ne (u : State) (ix : Indexing) (rn r : Reg) (v : Word) (h : ix.writesBase = true → r ≠ rn) :
    (writeBack u ix rn v).reg r = u.reg r := by
  rw [writeBack_eq]
  split
  · next hb => exact State.reg_setReg_ne _ _ _ _ (h hb)
  · rfl

/-- The registers of a well-formed load or store: a base that is written back is none of R15 and Rd, and only LDR has
Rd = 15. -/
theorem transfer_registers {op : TransferOp} {c : Cond} {ix : Indexing} {up : Bool} {rn rd : Reg} {off : Offset}
    (hw : WellFormed (Shape.instr (.transfer op c ix up rn rd off))) :
    (ix.writesBase = true → rn ≠ pcReg ∧ rd ≠ rn) ∧ (op ≠ .ldr → rd ≠ pcReg) := by
  simp only [WellFormed, Shape.staticRefusal_instr, Shape.staticRefusal, transferRefusal] at hw
  split at hw
  · cases hw
  · next h1 =>
    split at hw
    · cases hw
    · next h2 =>
      simp only [Bool.or_eq_true, Bool.and_eq_true, beq_iff_eq, not_or, not_and] at h1 h2
      refine ⟨fun hb => ⟨h1.1.1 hb, fun e => (h2 hb).1 e⟩, fun ho => h1.2 ?_⟩
      cases op <;> simp [TransferOp.mayTargetPc] at ho ⊢

/-- The end of the data processing template: the cases of the write of Rd, after the flags. -/
theorem dpFinish_next {sb : Bool} {rd : Reg} {o : AluOut} (h : dpFinish sb rd o s = .next t) :
    (rd ≠ pcReg ∧ t = ((s.setFlagsIf sb (flagsOf o)).setReg rd o.result).advance) ∨
      (rd = pcReg ∧ o.result.toNat % 4 = 0 ∧ t = { s.setFlagsIf sb (flagsOf o) with pc := o.result }) :=
  State.writeRd_next h

/-- A load that completes: its access did, and then the write-back and the write of Rd. -/
theorem transferLoad_next {access : State → Word → Except Stop Word} {ix : Indexing} {up : Bool} {rn rd : Reg}
    {off : Offset} (h : transferLoad access ix up rn rd off s = .next t) :
    ∃ data, access s (accessAddress s ix up rn off) = .ok data ∧
      (writeBack s ix rn (indexedAddress s up rn off)).writeRd rd data = .next t := by
  unfold transferLoad at h
  split at h
  · exact absurd h (Stop.outcome_ne_next _)
  · next data hd => exact ⟨data, hd, h⟩

/-- A store that completes: its access did, and then the write-back and the move of the pc. -/
theorem transferStore_next {access : State → Word → Word → Except Stop State} {ix : Indexing} {up : Bool} {rn rd : Reg}
    {off : Offset} (h : transferStore access ix up rn rd off s = .next t) :
    ∃ u, access s (accessAddress s ix up rn off) (s.reg rd) = .ok u ∧
      t = (writeBack u ix rn (indexedAddress s up rn off)).advance := by
  unfold transferStore at h
  split at h
  · exact absurd h (Stop.outcome_ne_next _)
  · next u hu => injection h with h; exact ⟨u, hu, h.symm⟩

/-- The byte access of LDRB that completes. -/
theorem accessLdrb_ok {a w : Word} :
    accessLdrb s a = .ok w ↔ s.isValid a = true ∧ w = (s.readByte a).setWidth 32 := by
  unfold accessLdrb
  cases h : s.loadByte a with
  | ok b =>
    obtain ⟨hv, rfl⟩ := State.loadByte_ok.1 h
    simp [hv, eq_comm]
  | error e =>
    have : ¬ s.isValid a = true := fun hv => by
      rw [State.loadByte_ok.2 ⟨hv, rfl⟩] at h; cases h
    simp [this]

/-- What the loop of SWI 3 can find within its fuel: a string that the first zero byte ends, `fuel` valid bytes of which
none is zero, or an address outside MEM_VALID after bytes of which none is zero. -/
theorem readString_cases (s : State) (fuel : Nat) (a : Word) :
    (∃ k, k < fuel ∧ (∀ j, j < k → s.isValid (a + BitVec.ofNat 32 j) = true ∧ s.readByte (a + BitVec.ofNat 32 j) ≠ 0#8) ∧
      ((s.isValid (a + BitVec.ofNat 32 k) = true ∧ s.readByte (a + BitVec.ofNat 32 k) = 0#8 ∧
          readString s fuel a = .ok (some ((List.range k).map fun j => s.readByte (a + BitVec.ofNat 32 j)))) ∨
        (s.isValid (a + BitVec.ofNat 32 k) = false ∧
          readString s fuel a = .error (.memFault (a + BitVec.ofNat 32 k) .load s.pc)))) ∨
    ((∀ j, j < fuel → s.isValid (a + BitVec.ofNat 32 j) = true ∧ s.readByte (a + BitVec.ofNat 32 j) ≠ 0#8) ∧
      readString s fuel a = .ok none) := by
  induction fuel generalizing a with
  | zero => exact .inr ⟨fun j h => by omega, rfl⟩
  | succ fuel ih =>
    have shift (j : Nat) : a + 1#32 + BitVec.ofNat 32 j = a + BitVec.ofNat 32 (j + 1) := by
      apply BitVec.eq_of_toNat_eq; simp; omega
    by_cases hv : s.isValid a = true
    · by_cases hz : s.readByte a = 0#8
      · exact .inl ⟨0, by omega, fun j h => by omega, .inl (by simp [readString, hv, hz])⟩
      · have here {k : Nat} (h : ∀ j, j < k → s.isValid (a + 1#32 + BitVec.ofNat 32 j) = true ∧
            s.readByte (a + 1#32 + BitVec.ofNat 32 j) ≠ 0#8) (j : Nat) (hj : j < k + 1) :
            s.isValid (a + BitVec.ofNat 32 j) = true ∧ s.readByte (a + BitVec.ofNat 32 j) ≠ 0#8 := by
          cases j with
          | zero => simpa using ⟨hv, hz⟩
          | succ j => rw [← shift]; exact h j (by omega)
        rcases ih (a + 1#32) with ⟨k, hk, hb, ⟨h1, h2, e⟩ | ⟨h1, e⟩⟩ | ⟨hb, e⟩
        · refine .inl ⟨k + 1, by omega, here hb, .inl ⟨shift k ▸ h1, shift k ▸ h2, ?_⟩⟩
          simp [readString, hv, hz, e, List.range_succ_eq_map, Function.comp_def, shift]
        · exact .inl ⟨k + 1, by omega, here hb, .inr ⟨shift k ▸ h1, by simp [readString, hv, hz, e, shift]⟩⟩
        · exact .inr ⟨here hb, by simp [readString, hv, hz, e]⟩
    · exact .inl ⟨0, by omega, fun j h => by omega, .inr (by simp [readString, hv])⟩

/-- What a service of SWI that answers a next state can be. -/
theorem swiService_next {imm24 : BitVec 24} (h : swiService imm24 s = .next t) :
    (imm24.toNat = 0 ∧ t = (s.print [byteOfWord (s.reg r0) 0]).advance) ∨
    (imm24.toNat = 1 ∧ s.input[s.inpos]? = none ∧ t = s) ∨
    (imm24.toNat = 1 ∧ ∃ ch, s.input[s.inpos]? = some ch ∧
      t = { s.setReg r0 (inputWord (Config.swi1Upper s.draws) ch) with
            inpos := s.inpos + 1, draws := s.draws + 1 }.advance) ∨
    (imm24.toNat = 2 ∧ t = { s with halted := true }) ∨
    (imm24.toNat = 3 ∧ readString s (2 ^ 32) (s.reg r0) = .ok none ∧ t = s) ∨
    (imm24.toNat = 3 ∧ ∃ str, readString s (2 ^ 32) (s.reg r0) = .ok (some str) ∧ t = (s.print str).advance) ∨
    (imm24.toNat = 4 ∧ t = (s.print (formatNumber s.swi4Format (s.reg r0))).advance) := by
  unfold swiService at h
  split at h
  · next e => injection h with h; exact .inl ⟨e, h.symm⟩
  · next e =>
    unfold swiGetChar at h
    split at h
    · next ch hc => injection h with h; exact .inr (.inr (.inl ⟨e, ch, hc, h.symm⟩))
    · next hc => injection h with h; exact .inr (.inl ⟨e, hc, h.symm⟩)
  · next e => injection h with h; exact .inr (.inr (.inr (.inl ⟨e, h.symm⟩)))
  · next e =>
    unfold swiPutString at h
    split at h
    · next str hs => injection h with h; exact .inr (.inr (.inr (.inr (.inr (.inl ⟨e, str, hs, h.symm⟩)))))
    · next hs => injection h with h; exact .inr (.inr (.inr (.inr (.inl ⟨e, hs, h.symm⟩))))
    · simp [raise] at h
  · next e => injection h with h; exact .inr (.inr (.inr (.inr (.inr (.inr ⟨e, h.symm⟩)))))
  · simp [raise] at h

/-! ### exec, by families -/

/-- The line (*) of R113 of an operation with operands Rd, Rn and Op2. -/
def writeAlu : WriteOp → Word → Word → Bool → Flags → AluOut
  | .and => aluAnd | .eor => aluEor | .sub => aluSub | .rsb => aluRsb | .add => aluAdd
  | .adc => aluAdc | .sbc => aluSbc | .rsc => aluRsc | .orr => aluOrr | .bic => aluBic

/-- The line (*) of R113 of MOV and MVN. -/
def moveAlu : MoveOp → Word → Bool → Flags → AluOut
  | .mov => aluMov | .mvn => aluMvn

/-- The line (*) of R113 of the compares. -/
def testAlu : TestOp → Word → Word → Bool → Flags → AluOut
  | .tst => aluTst | .teq => aluTeq | .cmp => aluCmp | .cmn => aluCmn

/-- The effect of an instruction once its condition has passed. -/
def shapeEffect (s : State) : Shape → Result
  | .write op _ sb rn rd o2 => dpWrite (writeAlu op) sb rn rd o2 s
  | .move op _ sb rd o2 => dpMove (moveAlu op) sb rd o2 s
  | .test op _ rn o2 => dpTest (testAlu op) rn o2 s
  | .mul _ sb rd rs rm => multiplyFinish sb rd (s.reg rm * s.reg rs) s
  | .mla _ sb rd rn rs rm => multiplyFinish sb rd (s.reg rm * s.reg rs + s.reg rn) s
  | .transfer .ldr _ ix up rn rd off => transferLoad accessLdr ix up rn rd off s
  | .transfer .ldrb _ ix up rn rd off => transferLoad accessLdrb ix up rn rd off s
  | .transfer .str _ ix up rn rd off => transferStore accessStr ix up rn rd off s
  | .transfer .strb _ ix up rn rd off => transferStore accessStrb ix up rn rd off s
  | .branch .b _ off => branchTo off s.pc s
  | .branch .bl _ off => branchTo off s.pc (s.setReg linkReg (s.pc + 4#32))
  | .swi _ imm24 => swiService imm24 s

/-- Every instruction runs as its family does: one lemma for all 61 arms. -/
theorem exec_eq_shapeEffect (i : Instr) (s : State) : exec i s = perform i s (shapeEffect s i.shape) := by
  cases i <;> rfl

/-- The same for an instruction given by its shape. -/
theorem exec_instr (x : Shape) (s : State) : exec x.instr s = perform x.instr s (shapeEffect s x) := by
  rw [exec_eq_shapeEffect, Shape.shape_instr]

/-- A well-formed instruction whose condition passes has the effect of its shape. -/
theorem exec_instr_passed {x : Shape} (hw : WellFormed x.instr) (hc : condPassed x.cond s.flags = true) :
    exec x.instr s = shapeEffect s x := by
  rw [exec_instr, perform_passed hw (by simpa using hc)]

/-- What `exec` can do when it answers a next state: the pc moved past a well-formed instruction whose condition
failed, or the effect of a well-formed instruction. -/
theorem exec_next {i : Instr} (h : exec i s = .next t) :
    WellFormed i ∧ ((condPassed i.cond s.flags = false ∧ t = s.advance) ∨
      (condPassed i.cond s.flags = true ∧ shapeEffect s i.shape = .next t)) := by
  rw [exec_eq_shapeEffect] at h
  rcases perform_cases i s (shapeEffect s i.shape) with ⟨r, _, e⟩ | ⟨hw, hc, e⟩ | ⟨hw, hc, e⟩
  · rw [e] at h; cases h
  · rw [e] at h; injection h with h; exact ⟨hw, .inl ⟨hc, h.symm⟩⟩
  · rw [e] at h; exact ⟨hw, .inr ⟨hc, h⟩⟩

/-- What a step can do when it answers a next state: nothing, on a halted machine, or the instruction fetched. -/
theorem step_next (h : step s = .next t) :
    (s.halted = true ∧ t = s) ∨
      (s.halted = false ∧ ∃ w i, fetch s = .ok w ∧ decode w = .ok i ∧ exec i s = .next t) := by
  unfold step at h
  split at h
  · next hh => injection h with h; exact .inl ⟨hh, h.symm⟩
  · next hh =>
    split at h
    · exact absurd h (Stop.outcome_ne_next _)
    · next w hw =>
      split at h
      · cases h
      · next i hi => exact .inr ⟨by simpa using hh, w, i, hw, hi, h⟩

end Sys2Proof.Machine
end

