-- ==== Sys2Proof/Laws/PerInstr.lean ====
section
/-! SUPPORT. The statements about every instruction as syntax, one lemma per constructor: the condition field occupies
bits 31:28 of every instruction (R51, R80). -/

namespace Sys2Proof.Laws.CondField

/-- The instruction's condition is what bits 31:28 of its word say. -/
def Statement (i : Instr) : Prop := Cond.ofBits ((encode i).extractLsb' 28 4) = some i.cond

/-- A row that begins with the condition, of which the rest fills 28 bits, has the condition in bits 31:28. -/
theorem cond_of_fields (c : Cond) (fs : List (Nat × Nat)) (hs : (fs.map Prod.fst).sum = 28)
    (hf : ∀ f ∈ fs, f.2 < 2 ^ f.1) :
    Cond.ofBits ((pack ((4, c.bits.toNat) :: fs)).extractLsb' 28 4) = some c := by
  have h := extract_field [] 4 c.bits.toNat fs hf (by simp [hs])
  rw [hs, List.nil_append] at h
  simp [h]

/-- Data processing rows have the condition in bits 31:28 (R53, R54, R55). -/
theorem of_dp (c : Cond) (opcode : BitVec 4) (sb : Bool) (rn rd : Nat) (o2 : Operand2) (hn : rn < 16) (hd : rd < 16) :
    Cond.ofBits ((pack (dpFields c opcode sb rn rd o2)).extractLsb' 28 4) = some c := by
  refine cond_of_fields c _ ?_ ?_
  · show ((([(3, o2.group), (4, opcode.toNat), (1, sb.toNat), (4, rn), (4, rd)] :
      List (Nat × Nat)) ++ o2.fields).map Prod.fst).sum = 28
    simp [(operand2_fields o2).1]
  · intro f hf
    replace hf : f ∈ ([(3, o2.group), (4, opcode.toNat), (1, sb.toNat), (4, rn), (4, rd)] :
      List (Nat × Nat)) ++ o2.fields := hf
    simp only [List.cons_append, List.nil_append, List.mem_cons] at hf
    have h1 := opcode.isLt
    have h2 := bool_fits sb
    have h3 := operand2_group o2
    rcases hf with rfl | rfl | rfl | rfl | rfl | hf
    · exact h3
    · exact h1
    · exact h2
    · exact hn
    · exact hd
    · exact (operand2_fields o2).2 f hf

/-- Every row has the condition in bits 31:28. -/
theorem of_shape (x : Shape) : Cond.ofBits ((pack x.fields).extractLsb' 28 4) = some x.cond := by
  cases x with
  | write op c sb rn rd o2 => exact of_dp c _ _ _ _ _ rn.isLt rd.isLt
  | move op c sb rd o2 => exact of_dp c _ _ _ _ _ (by decide) rd.isLt
  | test op c rn o2 => exact of_dp c _ _ _ _ _ rn.isLt (by decide)
  | mul c sb rd rs rm =>
    refine cond_of_fields c _ rfl ?_
    have h1 := bool_fits sb
    have h2 := rd.isLt
    have h3 := rs.isLt
    have h4 := rm.isLt
    simp [h1, h2, h3, h4]
  | mla c sb rd rn rs rm =>
    refine cond_of_fields c _ rfl ?_
    have h1 := bool_fits sb
    have h2 := rd.isLt
    have h3 := rs.isLt
    have h4 := rm.isLt
    have h5 := rn.isLt
    simp [h1, h2, h3, h4, h5]
  | transfer op c ix up rn rd off =>
    refine cond_of_fields c _ ?_ ?_
    · show ((([(3, off.group), (1, ix.pBit.toNat), (1, up.toNat), (1, op.bBit.toNat),
        (1, ix.wBit.toNat), (1, op.lBit.toNat), (4, rn.val), (4, rd.val)] : List (Nat × Nat)) ++ off.fields).map
          Prod.fst).sum = 28
      simp [(offset_fields off).1]
    · intro f hf
      replace hf : f ∈ ([(3, off.group), (1, ix.pBit.toNat), (1, up.toNat), (1, op.bBit.toNat),
        (1, ix.wBit.toNat), (1, op.lBit.toNat), (4, rn.val), (4, rd.val)] : List (Nat × Nat)) ++ off.fields := hf
      simp only [List.cons_append, List.nil_append, List.mem_cons] at hf
      have h1 := offset_group off
      have h2 := bool_fits ix.pBit
      have h3 := bool_fits up
      have h4 := bool_fits op.bBit
      have h5 := bool_fits ix.wBit
      have h6 := bool_fits op.lBit
      have h7 := rn.isLt
      have h8 := rd.isLt
      rcases hf with rfl | rfl | rfl | rfl | rfl | rfl | rfl | rfl | hf <;>
        first
        | exact (offset_fields off).2 f hf
        | assumption
  | branch op c off =>
    refine cond_of_fields c _ rfl ?_
    have h1 := bool_fits op.lBit
    have h2 := off.isLt
    simp [h1, h2]
  | swi c imm24 =>
    refine cond_of_fields c _ rfl ?_
    have h1 := imm24.isLt
    simp [h1]

theorem andImm (c : Cond) (sb : Bool) (rn rd : Reg) (rot : BitVec 4) (imm8 : BitVec 8) : Statement (.andImm c sb rn rd rot imm8) := of_shape _
theorem andShiftImm (c : Cond) (sb : Bool) (rn rd : Reg) (rm : Reg) (sh : ShiftType) (n : BitVec 5) : Statement (.andShiftImm c sb rn rd rm sh n) := of_shape _
theorem andShiftReg (c : Cond) (sb : Bool) (rn rd : Reg) (rm : Reg) (sh : ShiftType) (rs : Reg) : Statement (.andShiftReg c sb rn rd rm sh rs) := of_shape _
theorem eorImm (c : Cond) (sb : Bool) (rn rd : Reg) (rot : BitVec 4) (imm8 : BitVec 8) : Statement (.eorImm c sb rn rd rot imm8) := of_shape _
theorem eorShiftImm (c : Cond) (sb : Bool) (rn rd : Reg) (rm : Reg) (sh : ShiftType) (n : BitVec 5) : Statement (.eorShiftImm c sb rn rd rm sh n) := of_shape _
theorem eorShiftReg (c : Cond) (sb : Bool) (rn rd : Reg) (rm : Reg) (sh : ShiftType) (rs : Reg) : Statement (.eorShiftReg c sb rn rd rm sh rs) := of_shape _
theorem subImm (c : Cond) (sb : Bool) (rn rd : Reg) (rot : BitVec 4) (imm8 : BitVec 8) : Statement (.subImm c sb rn rd rot imm8) := of_shape _
theorem subShiftImm (c : Cond) (sb : Bool) (rn rd : Reg) (rm : Reg) (sh : ShiftType) (n : BitVec 5) : Statement (.subShiftImm c sb rn rd rm sh n) := of_shape _
theorem subShiftReg (c : Cond) (sb : Bool) (rn rd : Reg) (rm : Reg) (sh : ShiftType) (rs : Reg) : Statement (.subShiftReg c sb rn rd rm sh rs) := of_shape _
theorem rsbImm (c : Cond) (sb : Bool) (rn rd : Reg) (rot : BitVec 4) (imm8 : BitVec 8) : Statement (.rsbImm c sb rn rd rot imm8) := of_shape _
theorem rsbShiftImm (c : Cond) (sb : Bool) (rn rd : Reg) (rm : Reg) (sh : ShiftType) (n : BitVec 5) : Statement (.rsbShiftImm c sb rn rd rm sh n) := of_shape _
theorem rsbShiftReg (c : Cond) (sb : Bool) (rn rd : Reg) (rm : Reg) (sh : ShiftType) (rs : Reg) : Statement (.rsbShiftReg c sb rn rd rm sh rs) := of_shape _
theorem addImm (c : Cond) (sb : Bool) (rn rd : Reg) (rot : BitVec 4) (imm8 : BitVec 8) : Statement (.addImm c sb rn rd rot imm8) := of_shape _
theorem addShiftImm (c : Cond) (sb : Bool) (rn rd : Reg) (rm : Reg) (sh : ShiftType) (n : BitVec 5) : Statement (.addShiftImm c sb rn rd rm sh n) := of_shape _
theorem addShiftReg (c : Cond) (sb : Bool) (rn rd : Reg) (rm : Reg) (sh : ShiftType) (rs : Reg) : Statement (.addShiftReg c sb rn rd rm sh rs) := of_shape _
theorem adcImm (c : Cond) (sb : Bool) (rn rd : Reg) (rot : BitVec 4) (imm8 : BitVec 8) : Statement (.adcImm c sb rn rd rot imm8) := of_shape _
theorem adcShiftImm (c : Cond) (sb : Bool) (rn rd : Reg) (rm : Reg) (sh : ShiftType) (n : BitVec 5) : Statement (.adcShiftImm c sb rn rd rm sh n) := of_shape _
theorem adcShiftReg (c : Cond) (sb : Bool) (rn rd : Reg) (rm : Reg) (sh : ShiftType) (rs : Reg) : Statement (.adcShiftReg c sb rn rd rm sh rs) := of_shape _
theorem sbcImm (c : Cond) (sb : Bool) (rn rd : Reg) (rot : BitVec 4) (imm8 : BitVec 8) : Statement (.sbcImm c sb rn rd rot imm8) := of_shape _
theorem sbcShiftImm (c : Cond) (sb : Bool) (rn rd : Reg) (rm : Reg) (sh : ShiftType) (n : BitVec 5) : Statement (.sbcShiftImm c sb rn rd rm sh n) := of_shape _
theorem sbcShiftReg (c : Cond) (sb : Bool) (rn rd : Reg) (rm : Reg) (sh : ShiftType) (rs : Reg) : Statement (.sbcShiftReg c sb rn rd rm sh rs) := of_shape _
theorem rscImm (c : Cond) (sb : Bool) (rn rd : Reg) (rot : BitVec 4) (imm8 : BitVec 8) : Statement (.rscImm c sb rn rd rot imm8) := of_shape _
theorem rscShiftImm (c : Cond) (sb : Bool) (rn rd : Reg) (rm : Reg) (sh : ShiftType) (n : BitVec 5) : Statement (.rscShiftImm c sb rn rd rm sh n) := of_shape _
theorem rscShiftReg (c : Cond) (sb : Bool) (rn rd : Reg) (rm : Reg) (sh : ShiftType) (rs : Reg) : Statement (.rscShiftReg c sb rn rd rm sh rs) := of_shape _
theorem tstImm (c : Cond) (rn : Reg) (rot : BitVec 4) (imm8 : BitVec 8) : Statement (.tstImm c rn rot imm8) := of_shape _
theorem tstShiftImm (c : Cond) (rn : Reg) (rm : Reg) (sh : ShiftType) (n : BitVec 5) : Statement (.tstShiftImm c rn rm sh n) := of_shape _
theorem tstShiftReg (c : Cond) (rn : Reg) (rm : Reg) (sh : ShiftType) (rs : Reg) : Statement (.tstShiftReg c rn rm sh rs) := of_shape _
theorem teqImm (c : Cond) (rn : Reg) (rot : BitVec 4) (imm8 : BitVec 8) : Statement (.teqImm c rn rot imm8) := of_shape _
theorem teqShiftImm (c : Cond) (rn : Reg) (rm : Reg) (sh : ShiftType) (n : BitVec 5) : Statement (.teqShiftImm c rn rm sh n) := of_shape _
theorem teqShiftReg (c : Cond) (rn : Reg) (rm : Reg) (sh : ShiftType) (rs : Reg) : Statement (.teqShiftReg c rn rm sh rs) := of_shape _
theorem cmpImm (c : Cond) (rn : Reg) (rot : BitVec 4) (imm8 : BitVec 8) : Statement (.cmpImm c rn rot imm8) := of_shape _
theorem cmpShiftImm (c : Cond) (rn : Reg) (rm : Reg) (sh : ShiftType) (n : BitVec 5) : Statement (.cmpShiftImm c rn rm sh n) := of_shape _
theorem cmpShiftReg (c : Cond) (rn : Reg) (rm : Reg) (sh : ShiftType) (rs : Reg) : Statement (.cmpShiftReg c rn rm sh rs) := of_shape _
theorem cmnImm (c : Cond) (rn : Reg) (rot : BitVec 4) (imm8 : BitVec 8) : Statement (.cmnImm c rn rot imm8) := of_shape _
theorem cmnShiftImm (c : Cond) (rn : Reg) (rm : Reg) (sh : ShiftType) (n : BitVec 5) : Statement (.cmnShiftImm c rn rm sh n) := of_shape _
theorem cmnShiftReg (c : Cond) (rn : Reg) (rm : Reg) (sh : ShiftType) (rs : Reg) : Statement (.cmnShiftReg c rn rm sh rs) := of_shape _
theorem orrImm (c : Cond) (sb : Bool) (rn rd : Reg) (rot : BitVec 4) (imm8 : BitVec 8) : Statement (.orrImm c sb rn rd rot imm8) := of_shape _
theorem orrShiftImm (c : Cond) (sb : Bool) (rn rd : Reg) (rm : Reg) (sh : ShiftType) (n : BitVec 5) : Statement (.orrShiftImm c sb rn rd rm sh n) := of_shape _
theorem orrShiftReg (c : Cond) (sb : Bool) (rn rd : Reg) (rm : Reg) (sh : ShiftType) (rs : Reg) : Statement (.orrShiftReg c sb rn rd rm sh rs) := of_shape _
theorem movImm (c : Cond) (sb : Bool) (rd : Reg) (rot : BitVec 4) (imm8 : BitVec 8) : Statement (.movImm c sb rd rot imm8) := of_shape _
theorem movShiftImm (c : Cond) (sb : Bool) (rd : Reg) (rm : Reg) (sh : ShiftType) (n : BitVec 5) : Statement (.movShiftImm c sb rd rm sh n) := of_shape _
theorem movShiftReg (c : Cond) (sb : Bool) (rd : Reg) (rm : Reg) (sh : ShiftType) (rs : Reg) : Statement (.movShiftReg c sb rd rm sh rs) := of_shape _
theorem bicImm (c : Cond) (sb : Bool) (rn rd : Reg) (rot : BitVec 4) (imm8 : BitVec 8) : Statement (.bicImm c sb rn rd rot imm8) := of_shape _
theorem bicShiftImm (c : Cond) (sb : Bool) (rn rd : Reg) (rm : Reg) (sh : ShiftType) (n : BitVec 5) : Statement (.bicShiftImm c sb rn rd rm sh n) := of_shape _
theorem bicShiftReg (c : Cond) (sb : Bool) (rn rd : Reg) (rm : Reg) (sh : ShiftType) (rs : Reg) : Statement (.bicShiftReg c sb rn rd rm sh rs) := of_shape _
theorem mvnImm (c : Cond) (sb : Bool) (rd : Reg) (rot : BitVec 4) (imm8 : BitVec 8) : Statement (.mvnImm c sb rd rot imm8) := of_shape _
theorem mvnShiftImm (c : Cond) (sb : Bool) (rd : Reg) (rm : Reg) (sh : ShiftType) (n : BitVec 5) : Statement (.mvnShiftImm c sb rd rm sh n) := of_shape _
theorem mvnShiftReg (c : Cond) (sb : Bool) (rd : Reg) (rm : Reg) (sh : ShiftType) (rs : Reg) : Statement (.mvnShiftReg c sb rd rm sh rs) := of_shape _
theorem mul (c : Cond) (sb : Bool) (rd rs rm : Reg) : Statement (.mul c sb rd rs rm) := of_shape _
theorem mla (c : Cond) (sb : Bool) (rd rn rs rm : Reg) : Statement (.mla c sb rd rn rs rm) := of_shape _
theorem ldrImm (c : Cond) (ix : Indexing) (up : Bool) (rn rd : Reg) (imm12 : BitVec 12) : Statement (.ldrImm c ix up rn rd imm12) := of_shape _
theorem ldrReg (c : Cond) (ix : Indexing) (up : Bool) (rn rd : Reg) (rm : Reg) (sh : ShiftType) (n : BitVec 5) : Statement (.ldrReg c ix up rn rd rm sh n) := of_shape _
theorem ldrbImm (c : Cond) (ix : Indexing) (up : Bool) (rn rd : Reg) (imm12 : BitVec 12) : Statement (.ldrbImm c ix up rn rd imm12) := of_shape _
theorem ldrbReg (c : Cond) (ix : Indexing) (up : Bool) (rn rd : Reg) (rm : Reg) (sh : ShiftType) (n : BitVec 5) : Statement (.ldrbReg c ix up rn rd rm sh n) := of_shape _
theorem strImm (c : Cond) (ix : Indexing) (up : Bool) (rn rd : Reg) (imm12 : BitVec 12) : Statement (.strImm c ix up rn rd imm12) := of_shape _
theorem strReg (c : Cond) (ix : Indexing) (up : Bool) (rn rd : Reg) (rm : Reg) (sh : ShiftType) (n : BitVec 5) : Statement (.strReg c ix up rn rd rm sh n) := of_shape _
theorem strbImm (c : Cond) (ix : Indexing) (up : Bool) (rn rd : Reg) (imm12 : BitVec 12) : Statement (.strbImm c ix up rn rd imm12) := of_shape _
theorem strbReg (c : Cond) (ix : Indexing) (up : Bool) (rn rd : Reg) (rm : Reg) (sh : ShiftType) (n : BitVec 5) : Statement (.strbReg c ix up rn rd rm sh n) := of_shape _
theorem b (c : Cond) (off : BitVec 24) : Statement (.b c off) := of_shape _
theorem bl (c : Cond) (off : BitVec 24) : Statement (.bl c off) := of_shape _
theorem swi (c : Cond) (imm24 : BitVec 24) : Statement (.swi c imm24) := of_shape _

end Sys2Proof.Laws.CondField
end

