-- ==== Sys2Proof/Tests/Slice0.lean ====
section
/-! SUPPORT. Tests. The words and the expected results are those of spec/95_test_vectors.md (S1 to S8, sections 2 to 4
and 6), or are written out bit by bit from the layouts of R53 to R60. At the end, for each statement with hypotheses, a
state and operands that meet them. -/

open Sys2Proof Sys2Proof.Machine

namespace Sys2Proof.Tests

/-! ### Well-formedness: an ill-formed term for each check, refused, and its well-formed neighbour -/

/-- R108, operands Rd, Rn, Rm, Rs. -/
theorem test_wf_write_regshift :
    (Instr.andShiftReg .al false 15 0 0 .lsl 0).staticRefusal = some .r15InRegShiftForm ∧
    (Instr.addShiftReg .al false 0 15 0 .lsl 0).staticRefusal = some .r15InRegShiftForm ∧
    (Instr.rscShiftReg .al true 0 0 15 .ror 0).staticRefusal = some .r15InRegShiftForm ∧
    (Instr.bicShiftReg .al false 0 0 0 .asr 15).staticRefusal = some .r15InRegShiftForm ∧
    WellFormed (.bicShiftReg .al true 14 14 14 .asr 14) := by decide

/-- R109. -/
theorem test_wf_write_s :
    (Instr.subImm .al true 0 15 0 0).staticRefusal = some .r15DestWithS ∧
    (Instr.orrShiftImm .al true 0 15 0 .lsl 0).staticRefusal = some .r15DestWithS ∧
    WellFormed (.subImm .al false 15 15 0 0) ∧
    WellFormed (.subImm .al true 15 14 0 0) := by decide

/-- R108, R109 for MOV and MVN. -/
theorem test_wf_move :
    (Instr.movShiftReg .al false 15 0 .lsl 0).staticRefusal = some .r15InRegShiftForm ∧
    (Instr.mvnShiftReg .al false 0 15 .lsl 0).staticRefusal = some .r15InRegShiftForm ∧
    (Instr.movShiftReg .al false 0 0 .lsl 15).staticRefusal = some .r15InRegShiftForm ∧
    (Instr.movShiftImm .al true 15 14 .lsl 0).staticRefusal = some .r15DestWithS ∧
    WellFormed (.movShiftImm .al false 15 14 .lsl 0) := by decide

/-- R108 for the compares. -/
theorem test_wf_test :
    (Instr.cmpShiftReg .al 15 0 .lsl 0).staticRefusal = some .r15InRegShiftForm ∧
    (Instr.tstShiftReg .al 0 15 .lsl 0).staticRefusal = some .r15InRegShiftForm ∧
    (Instr.teqShiftReg .al 0 0 .lsl 15).staticRefusal = some .r15InRegShiftForm ∧
    WellFormed (.cmnImm .al 15 0 0) := by decide

/-- R212: Rd, Rs, Rm, Rd = Rm of MUL; Rd, Rn, Rs, Rm, Rd = Rm of MLA. -/
theorem test_wf_multiply :
    (Instr.mul .al false 15 1 2).staticRefusal = some .multiplyRegister ∧
    (Instr.mul .al false 0 15 2).staticRefusal = some .multiplyRegister ∧
    (Instr.mul .al false 0 1 15).staticRefusal = some .multiplyRegister ∧
    (Instr.mul .al false 3 1 3).staticRefusal = some .multiplyRegister ∧
    (Instr.mla .al false 15 1 2 3).staticRefusal = some .multiplyRegister ∧
    (Instr.mla .al false 0 15 2 3).staticRefusal = some .multiplyRegister ∧
    (Instr.mla .al false 0 1 15 3).staticRefusal = some .multiplyRegister ∧
    (Instr.mla .al false 0 1 2 15).staticRefusal = some .multiplyRegister ∧
    (Instr.mla .al false 4 1 2 4).staticRefusal = some .multiplyRegister ∧
    WellFormed (.mul .al true 14 14 0) ∧
    WellFormed (.mla .al true 14 14 14 0) := by decide

/-- R188. -/
theorem test_wf_transfer_pc :
    (Instr.ldrImm .al .preWriteback true 15 0 4).staticRefusal = some .r15InLoadStore ∧
    (Instr.strImm .al .postIndexed true 15 0 4).staticRefusal = some .r15InLoadStore ∧
    (Instr.ldrReg .al .offset true 0 1 15 .lsl 0).staticRefusal = some .r15InLoadStore ∧
    (Instr.ldrbImm .al .offset true 0 15 0).staticRefusal = some .r15InLoadStore ∧
    (Instr.strImm .al .offset true 0 15 0).staticRefusal = some .r15InLoadStore ∧
    (Instr.strbReg .al .offset true 0 15 1 .lsl 0).staticRefusal = some .r15InLoadStore ∧
    WellFormed (.ldrImm .al .offset true 15 15 0) := by decide

/-- R187. -/
theorem test_wf_transfer_clash :
    (Instr.strImm .al .postIndexed true 1 1 4).staticRefusal = some .writebackRegisterClash ∧
    (Instr.ldrbImm .al .preWriteback true 2 2 4).staticRefusal = some .writebackRegisterClash ∧
    (Instr.ldrReg .al .postIndexed true 1 0 1 .lsl 0).staticRefusal = some .writebackRegisterClash ∧
    (Instr.strbReg .al .preWriteback true 1 0 1 .ror 3).staticRefusal = some .writebackRegisterClash ∧
    WellFormed (.strImm .al .offset true 1 1 4) ∧
    WellFormed (.ldrReg .al .offset true 1 1 1 .lsl 0) := by decide

/-! ### Decoding: a word for every constructor (spec/95_test_vectors.md S2, S6, S7, S8, section 4) -/

theorem test_decode_and :
    decode 0xE20210FF#32 = .ok (.andImm .al false 2 1 0 0xFF) ∧
    decode 0xE0021203#32 = .ok (.andShiftImm .al false 2 1 3 .lsl 4) ∧
    decode 0xE0021433#32 = .ok (.andShiftReg .al false 2 1 3 .lsr 4) := by decide

theorem test_decode_eor :
    decode 0xE22210FF#32 = .ok (.eorImm .al false 2 1 0 0xFF) ∧
    decode 0xE0221203#32 = .ok (.eorShiftImm .al false 2 1 3 .lsl 4) ∧
    decode 0xE0221433#32 = .ok (.eorShiftReg .al false 2 1 3 .lsr 4) := by decide

theorem test_decode_sub :
    decode 0xE24210FF#32 = .ok (.subImm .al false 2 1 0 0xFF) ∧
    decode 0xE0421203#32 = .ok (.subShiftImm .al false 2 1 3 .lsl 4) ∧
    decode 0xE0421433#32 = .ok (.subShiftReg .al false 2 1 3 .lsr 4) := by decide

theorem test_decode_rsb :
    decode 0xE26210FF#32 = .ok (.rsbImm .al false 2 1 0 0xFF) ∧
    decode 0xE0621203#32 = .ok (.rsbShiftImm .al false 2 1 3 .lsl 4) ∧
    decode 0xE0621433#32 = .ok (.rsbShiftReg .al false 2 1 3 .lsr 4) := by decide

theorem test_decode_add :
    decode 0xE28210FF#32 = .ok (.addImm .al false 2 1 0 0xFF) ∧
    decode 0xE0821203#32 = .ok (.addShiftImm .al false 2 1 3 .lsl 4) ∧
    decode 0xE0821433#32 = .ok (.addShiftReg .al false 2 1 3 .lsr 4) := by decide

theorem test_decode_adc :
    decode 0xE2A210FF#32 = .ok (.adcImm .al false 2 1 0 0xFF) ∧
    decode 0xE0A21203#32 = .ok (.adcShiftImm .al false 2 1 3 .lsl 4) ∧
    decode 0xE0A21433#32 = .ok (.adcShiftReg .al false 2 1 3 .lsr 4) := by decide

theorem test_decode_sbc :
    decode 0xE2C210FF#32 = .ok (.sbcImm .al false 2 1 0 0xFF) ∧
    decode 0xE0C21203#32 = .ok (.sbcShiftImm .al false 2 1 3 .lsl 4) ∧
    decode 0xE0C21433#32 = .ok (.sbcShiftReg .al false 2 1 3 .lsr 4) := by decide

theorem test_decode_rsc :
    decode 0xE2E210FF#32 = .ok (.rscImm .al false 2 1 0 0xFF) ∧
    decode 0xE0E21203#32 = .ok (.rscShiftImm .al false 2 1 3 .lsl 4) ∧
    decode 0xE0E21433#32 = .ok (.rscShiftReg .al false 2 1 3 .lsr 4) := by decide

theorem test_decode_tst :
    decode 0xE31200FF#32 = .ok (.tstImm .al 2 0 0xFF) ∧
    decode 0xE1120203#32 = .ok (.tstShiftImm .al 2 3 .lsl 4) ∧
    decode 0xE1120433#32 = .ok (.tstShiftReg .al 2 3 .lsr 4) := by decide

theorem test_decode_teq :
    decode 0xE33200FF#32 = .ok (.teqImm .al 2 0 0xFF) ∧
    decode 0xE1320203#32 = .ok (.teqShiftImm .al 2 3 .lsl 4) ∧
    decode 0xE1320433#32 = .ok (.teqShiftReg .al 2 3 .lsr 4) := by decide

theorem test_decode_cmp :
    decode 0xE35200FF#32 = .ok (.cmpImm .al 2 0 0xFF) ∧
    decode 0xE1520203#32 = .ok (.cmpShiftImm .al 2 3 .lsl 4) ∧
    decode 0xE1520433#32 = .ok (.cmpShiftReg .al 2 3 .lsr 4) := by decide

theorem test_decode_cmn :
    decode 0xE37200FF#32 = .ok (.cmnImm .al 2 0 0xFF) ∧
    decode 0xE1720203#32 = .ok (.cmnShiftImm .al 2 3 .lsl 4) ∧
    decode 0xE1720433#32 = .ok (.cmnShiftReg .al 2 3 .lsr 4) := by decide

theorem test_decode_orr :
    decode 0xE38210FF#32 = .ok (.orrImm .al false 2 1 0 0xFF) ∧
    decode 0xE1821203#32 = .ok (.orrShiftImm .al false 2 1 3 .lsl 4) ∧
    decode 0xE1821433#32 = .ok (.orrShiftReg .al false 2 1 3 .lsr 4) := by decide

theorem test_decode_mov :
    decode 0xE3A010FF#32 = .ok (.movImm .al false 1 0 0xFF) ∧
    decode 0xE1A01203#32 = .ok (.movShiftImm .al false 1 3 .lsl 4) ∧
    decode 0xE1A01433#32 = .ok (.movShiftReg .al false 1 3 .lsr 4) := by decide

theorem test_decode_bic :
    decode 0xE3C210FF#32 = .ok (.bicImm .al false 2 1 0 0xFF) ∧
    decode 0xE1C21203#32 = .ok (.bicShiftImm .al false 2 1 3 .lsl 4) ∧
    decode 0xE1C21433#32 = .ok (.bicShiftReg .al false 2 1 3 .lsr 4) := by decide

theorem test_decode_mvn :
    decode 0xE3E010FF#32 = .ok (.mvnImm .al false 1 0 0xFF) ∧
    decode 0xE1E01203#32 = .ok (.mvnShiftImm .al false 1 3 .lsl 4) ∧
    decode 0xE1E01433#32 = .ok (.mvnShiftReg .al false 1 3 .lsr 4) := by decide

theorem test_decode_multiply :
    decode 0xE0100291#32 = .ok (.mul .al true 0 2 1) ∧ decode 0xE0007291#32 = .ok (.mul .al false 0 2 1) ∧
    decode 0xE0203291#32 = .ok (.mla .al false 0 3 2 1) ∧ decode 0xE0303291#32 = .ok (.mla .al true 0 3 2 1) := by decide

theorem test_decode_ldr :
    decode 0xE5110004#32 = .ok (.ldrImm .al .offset false 1 0 4) ∧
    decode 0xE5B10004#32 = .ok (.ldrImm .al .preWriteback true 1 0 4) ∧
    decode 0xE4910004#32 = .ok (.ldrImm .al .postIndexed true 1 0 4) ∧
    decode 0xE7910102#32 = .ok (.ldrReg .al .offset true 1 0 2 .lsl 2) ∧
    decode 0xE7910022#32 = .ok (.ldrReg .al .offset true 1 0 2 .lsr 0) := by decide

theorem test_decode_ldrb :
    decode 0xE5510001#32 = .ok (.ldrbImm .al .offset false 1 0 1) ∧
    decode 0xE4D32001#32 = .ok (.ldrbImm .al .postIndexed true 3 2 1) ∧
    decode 0b1110_011_1_1_1_1_1_0001_0010_00011_10_0_0100#32 = .ok (.ldrbReg .al .preWriteback true 1 2 4 .asr 3) := by decide

theorem test_decode_str :
    decode 0xE5A21004#32 = .ok (.strImm .al .preWriteback true 2 1 4) ∧
    decode 0xE7010002#32 = .ok (.strReg .al .offset false 1 0 2 .lsl 0) := by decide

theorem test_decode_strb :
    decode 0xE5C10001#32 = .ok (.strbImm .al .offset true 1 0 1) ∧
    decode 0b0001_011_0_0_1_0_0_1110_0111_11111_11_0_0101#32 = .ok (.strbReg .ne .postIndexed false 14 7 5 .ror 31) := by decide

theorem test_decode_branch :
    decode 0x1AFFFFFC#32 = .ok (.b .ne 0xFFFFFC) ∧ decode 0xEA800000#32 = .ok (.b .al 0x800000) ∧
    decode 0xEB000003#32 = .ok (.bl .al 3) := by decide

theorem test_decode_swi :
    decode 0xEF000004#32 = .ok (.swi .al 4) ∧ decode 0x0F000002#32 = .ok (.swi .eq 2) ∧
    decode 0xEFFFFFFF#32 = .ok (.swi .al 0xFFFFFF) := by decide

/-- R53 to R60, bit by bit, from bit 31 down. -/
theorem test_decode_bits :
    decode 0b1110_001_0100_1_0101_0110_0111_10000001#32 = .ok (.addImm .al true 5 6 7 0x81) ∧
    decode 0b1011_000_1101_1_0000_1001_10101_10_0_1100#32 = .ok (.movShiftImm .lt true 9 12 .asr 21) ∧
    decode 0b0110_000_1010_1_0011_0000_0100_0_11_1_1000#32 = .ok (.cmpShiftReg .vs 3 8 .ror 4) ∧
    decode 0b1100_000_000_1_1_0001_0010_0011_1001_0100#32 = .ok (.mla .gt true 1 2 3 4) ∧
    decode 0b1001_010_0_0_1_0_1_1010_1011_110000000011#32 = .ok (.ldrbImm .ls .postIndexed false 10 11 0xC03) ∧
    decode 0b0101_101_1_100000000000000000000001#32 = .ok (.bl .pl 0x800001) ∧
    decode 0b1000_1111_000000000000000000000011#32 = .ok (.swi .hi 3) := by decide

/-- Section 6 of the vectors. -/
theorem test_decode_refused :
    decode 0xF0000000#32 = .error .condReserved ∧
    decode 0xE8BD8000#32 = .error .notInHandout ∧
    decode 0xE1000000#32 = .error .notInHandout ∧
    decode 0xE00000B0#32 = .error .notInHandout ∧
    decode 0xE0400090#32 = .error .notInHandout ∧
    decode 0xE7910112#32 = .error .notInHandout ∧
    decode 0xEE000000#32 = .error .notInHandout ∧
    decode 0xE4B10004#32 = .error .notInHandout ∧
    decode 0xE0000090#32 = .error (.static .multiplyRegister) ∧
    decode 0xE0000190#32 = .error (.static .multiplyRegister) ∧
    decode 0xE4811004#32 = .error (.static .writebackRegisterClash) ∧
    decode 0xE6910001#32 = .error (.static .writebackRegisterClash) ∧
    decode 0xE5BF0004#32 = .error (.static .r15InLoadStore) ∧
    decode 0xE581F000#32 = .error (.static .r15InLoadStore) ∧
    decode 0xE1B0F00E#32 = .error (.static .r15DestWithS) ∧
    decode 0xE1A00F11#32 = .error (.static .r15InRegShiftForm) := by decide

theorem test_decode_table_word :
    decodeTableWord 32 0xE0800100 = some (.addShiftImm .al false 0 0 0 .lsl 2) ∧
    decodeTableWord 32 0xF0000000 = none ∧
    decodeBytes [0x00, 0x01, 0x80, 0xE0, 0xAA] = .ok (.addShiftImm .al false 0 0 0 .lsl 2, [0xAA]) := by decide

/-! ### The canonical words of assembly lines (R69; spec/95_test_vectors.md S1 to S8, section 4) -/

/-- S5, R107; 80000000H is written there with rot 1 and with rot 4. -/
theorem test_smallest_rotation :
    smallestRotation 0xFF0#32 = some (14, 0xFF) ∧
    smallestRotation 0x104#32 = some (15, 0x41) ∧
    smallestRotation 0xF000000F#32 = some (2, 0xFF) ∧
    smallestRotation 1#32 = some (0, 1) ∧
    smallestRotation 0x80000000#32 = some (1, 2) ∧
    smallestRotation 0xFF#32 = some (0, 0xFF) ∧
    smallestRotation 0x101#32 = none ∧
    smallestRotation 0x102#32 = none ∧
    smallestRotation 0x1FE#32 = none ∧
    smallestRotation 0xFFFFFFFF#32 = none := by decide

/-- The word of a line at address 10H. -/
def word (l : SourceLine) : Option Word := l.canonicalWord 0x10#32

/-- S1 to S4, R107, R67. -/
theorem test_line_data_processing :
    word (.move .mov none false 0 (.constant 7#32)) = some 0xE3A00007#32 ∧
    word (.move .mov none true 0 (.constant 0#32)) = some 0xE3B00000#32 ∧
    word (.write .add none false 0 0 (.shifted 0 .lsl 2)) = some 0xE0800100#32 ∧
    word (.test .cmp none 2 (.constant 0#32)) = some 0xE3520000#32 ∧
    word (.write .and none false 1 2 (.byRegister 3 .lsr 4)) = some 0xE0021433#32 ∧
    word (.move .mov none false 15 (.register 14)) = some 0xE1A0F00E#32 ∧
    word (.test .tst (some .al) 2 (.shifted 3 .lsl 4)) = some 0xE1120203#32 ∧
    word (.write .add none false 0 0 (.constant 0x101#32)) = none ∧
    word (.write .add none false 0 0 (.shifted 0 .lsl 32)) = none ∧
    word (.move .mov none false 0 (.shifted 0 .ror 0)) = none := by decide

/-- Section 4, R67. -/
theorem test_line_transfer :
    word (.transfer .ldr none 0 (.base 1)) = some 0xE5910000#32 ∧
    word (.transfer .ldr none 0 (.indexed .offset 1 false (.constant 4))) = some 0xE5110004#32 ∧
    word (.transfer .ldr none 0 (.indexed .preWriteback 1 true (.constant 4))) = some 0xE5B10004#32 ∧
    word (.transfer .ldr none 0 (.indexed .postIndexed 1 true (.register 2))) = some 0xE6910002#32 ∧
    word (.transfer .ldr none 0 (.indexed .offset 1 true (.shifted 2 .lsl 2))) = some 0xE7910102#32 ∧
    word (.transfer .ldr none 0 (.indexed .offset 1 true (.shifted 2 .lsr 32))) = some 0xE7910022#32 ∧
    word (.transfer .strb none 0 (.indexed .offset 1 true (.constant 1))) = some 0xE5C10001#32 ∧
    word (.transfer .str none 0 (.indexed .offset 1 true (.constant 4096))) = none := by decide

/-- S6 to S8, R155; the branch to FE000018H is the choice of log entry 24. -/
theorem test_line_other :
    word (.mul none false 0 1 2) = some 0xE0000291#32 ∧
    word (.mla none true 0 1 2 3) = some 0xE0303291#32 ∧
    word (.branch .b (some .ne) 0x8#32) = some 0x1AFFFFFC#32 ∧
    word (.swi none 3) = some 0xEF000003#32 ∧
    word (.swi (some .eq) 2) = some 0x0F000002#32 ∧
    word (.branch .bl none 0x0A#32) = none ∧
    word (.branch .b none 0x20000018#32) = none ∧
    word (.branch .b none 0xFE000018#32) = none ∧
    word (.swi none 16777216) = none := by decide

/-! ### One step (spec/95_test_vectors.md S3 to S8, sections 2 to 4) -/

/-- The memory of section 4 of the vectors; addresses 0 to FFFH are there, the pc is 20H, C is set. -/
def vectors : State :=
  { State.reset with
    pc := 0x20#32
    flags := { n := false, z := false, c := true, v := true }
    memValid := [{ base := 0, size := 0x1000 }]
    mem := (List.range 16).map (fun k => (0x100 + k, BitVec.ofNat 8 (0x11 * k))) }

/-- The machine of the vectors with R0, R1, R2, R3 set. -/
def given (a b c d : Word) : State := (((vectors.setReg 0 a).setReg 1 b).setReg 2 c).setReg 3 d

/-- The step that fetches the word at the pc answers a next state of which `p` holds. -/
def runs (w : Nat) (s : State) (p : State → Bool) : Bool :=
  match step (s.withFetchWord 32 w) with
  | .next t => p t
  | _ => false

/-- The outcome of the step that fetches the word is this fault. -/
def faults (w : Nat) (s : State) (f : Fault) : Bool :=
  match step (s.withFetchWord 32 w) with
  | .fault g => g == f
  | _ => false

/-- The outcome of the step that fetches the word is this refusal. -/
def refuses (w : Nat) (s : State) (r : Refusal) : Bool :=
  match step (s.withFetchWord 32 w) with
  | .refused q => q == r
  | _ => false

/-- Four flags. -/
def nzcv (n z c v : Nat) : Flags := { n := n == 1, z := z == 1, c := c == 1, v := v == 1 }

theorem test_ands :
    runs 0xE0110002 { given 0x77#32 0xF0F0F0F0#32 0x0FF00FF0#32 0x0#32 with flags := nzcv 0 0 0 1 } (fun t =>
      t.reg 0 == 0x00F000F0#32 && t.flags == nzcv 0 0 0 1 && t.pc == 0x24#32) = true := by decide

theorem test_eors :
    runs 0xE0310002 { given 0x77#32 0x12345678#32 0x12345678#32 0x0#32 with flags := nzcv 0 0 0 0 } (fun t =>
      t.reg 0 == 0x00000000#32 && t.flags == nzcv 0 1 0 0 && t.pc == 0x24#32) = true := by decide

theorem test_subs :
    runs 0xE0510002 { given 0x77#32 0x80000000#32 0x00000001#32 0x0#32 with flags := nzcv 0 0 1 0 } (fun t =>
      t.reg 0 == 0x7FFFFFFF#32 && t.flags == nzcv 0 0 1 1 && t.pc == 0x24#32) = true := by decide

theorem test_subs_by_register :
    runs 0xE0510312 { given 0x77#32 0x3#32 0x5#32 0x0#32 with flags := nzcv 0 0 1 0 } (fun t =>
      t.reg 0 == 0xFFFFFFFE#32 && t.flags == nzcv 1 0 0 0 && t.pc == 0x24#32) = true := by decide

theorem test_rsbs :
    runs 0xE0710002 { given 0x77#32 0x5#32 0x0#32 0x0#32 with flags := nzcv 0 0 1 0 } (fun t =>
      t.reg 0 == 0xFFFFFFFB#32 && t.flags == nzcv 1 0 0 0 && t.pc == 0x24#32) = true := by decide

theorem test_rsbs_by_register :
    runs 0xE0710312 { given 0x77#32 0x80000000#32 0x0#32 0x0#32 with flags := nzcv 0 0 1 0 } (fun t =>
      t.reg 0 == 0x80000000#32 && t.flags == nzcv 1 0 0 1 && t.pc == 0x24#32) = true := by decide

theorem test_adds :
    runs 0xE0910002 { given 0x77#32 0x80000000#32 0x80000000#32 0x0#32 with flags := nzcv 0 0 0 0 } (fun t =>
      t.reg 0 == 0x00000000#32 && t.flags == nzcv 0 1 1 1 && t.pc == 0x24#32) = true := by decide

theorem test_adds_by_register :
    runs 0xE0910312 { given 0x77#32 0x7FFFFFFF#32 0x1#32 0x0#32 with flags := nzcv 0 0 0 0 } (fun t =>
      t.reg 0 == 0x80000000#32 && t.flags == nzcv 1 0 0 1 && t.pc == 0x24#32) = true := by decide

theorem test_adcs :
    runs 0xE0B10002 { given 0x77#32 0x7FFFFFFF#32 0x0#32 0x0#32 with flags := nzcv 0 0 1 0 } (fun t =>
      t.reg 0 == 0x80000000#32 && t.flags == nzcv 1 0 0 1 && t.pc == 0x24#32) = true := by decide

theorem test_adcs_by_register :
    runs 0xE0B10312 { given 0x77#32 0xFFFFFFFF#32 0xFFFFFFFF#32 0x0#32 with flags := nzcv 0 0 1 0 } (fun t =>
      t.reg 0 == 0xFFFFFFFF#32 && t.flags == nzcv 1 0 1 0 && t.pc == 0x24#32) = true := by decide

theorem test_sbcs :
    runs 0xE0D10002 { given 0x77#32 0x80000000#32 0x0#32 0x0#32 with flags := nzcv 0 0 0 0 } (fun t =>
      t.reg 0 == 0x7FFFFFFF#32 && t.flags == nzcv 0 0 1 1 && t.pc == 0x24#32) = true := by decide

theorem test_sbcs_by_register :
    runs 0xE0D10312 { given 0x77#32 0x5#32 0x5#32 0x0#32 with flags := nzcv 0 0 1 0 } (fun t =>
      t.reg 0 == 0x00000000#32 && t.flags == nzcv 0 1 1 0 && t.pc == 0x24#32) = true := by decide

theorem test_rscs :
    runs 0xE0F10002 { given 0x77#32 0x3#32 0x5#32 0x0#32 with flags := nzcv 0 0 0 0 } (fun t =>
      t.reg 0 == 0x00000001#32 && t.flags == nzcv 0 0 1 0 && t.pc == 0x24#32) = true := by decide

theorem test_rscs_by_register :
    runs 0xE0F10312 { given 0x77#32 0x0#32 0x0#32 0x0#32 with flags := nzcv 0 0 0 0 } (fun t =>
      t.reg 0 == 0xFFFFFFFF#32 && t.flags == nzcv 1 0 0 0 && t.pc == 0x24#32) = true := by decide

theorem test_orrs :
    runs 0xE1910002 { given 0x77#32 0xF0#32 0x0F#32 0x0#32 with flags := nzcv 0 0 0 1 } (fun t =>
      t.reg 0 == 0x000000FF#32 && t.flags == nzcv 0 0 0 1 && t.pc == 0x24#32) = true := by decide

theorem test_bics :
    runs 0xE1D10002 { given 0x77#32 0xFFFFFFFF#32 0xFF#32 0x0#32 with flags := nzcv 0 0 0 0 } (fun t =>
      t.reg 0 == 0xFFFFFF00#32 && t.flags == nzcv 1 0 0 0 && t.pc == 0x24#32) = true := by decide

theorem test_movs :
    runs 0xE1B00002 { given 0x77#32 0x0#32 0x0#32 0x0#32 with flags := nzcv 0 0 1 1 } (fun t =>
      t.reg 0 == 0x00000000#32 && t.flags == nzcv 0 1 1 1 && t.pc == 0x24#32) = true := by decide

theorem test_mvns :
    runs 0xE1F00002 { given 0x77#32 0x0#32 0x0#32 0x0#32 with flags := nzcv 0 0 0 0 } (fun t =>
      t.reg 0 == 0xFFFFFFFF#32 && t.flags == nzcv 1 0 0 0 && t.pc == 0x24#32) = true := by decide

theorem test_tsts :
    runs 0xE1110002 { given 0x77#32 0x80000001#32 0x80000000#32 0x0#32 with flags := nzcv 0 0 0 1 } (fun t =>
      t.reg 0 == 0x77#32 && t.flags == nzcv 1 0 0 1 && t.pc == 0x24#32) = true := by decide

theorem test_teqs :
    runs 0xE1310002 { given 0x77#32 0x80000000#32 0x0#32 0x0#32 with flags := nzcv 0 0 0 0 } (fun t =>
      t.reg 0 == 0x77#32 && t.flags == nzcv 1 0 0 0 && t.pc == 0x24#32) = true := by decide

theorem test_cmns :
    runs 0xE1710002 { given 0x77#32 0x7FFFFFFF#32 0x1#32 0x0#32 with flags := nzcv 0 0 0 0 } (fun t =>
      t.reg 0 == 0x77#32 && t.flags == nzcv 1 0 0 1 && t.pc == 0x24#32) = true := by decide

theorem test_cmns_by_register :
    runs 0xE1710312 { given 0x77#32 0x1#32 0xFFFFFFFF#32 0x0#32 with flags := nzcv 0 0 0 0 } (fun t =>
      t.reg 0 == 0x77#32 && t.flags == nzcv 0 1 1 0 && t.pc == 0x24#32) = true := by decide

theorem test_cmps :
    runs 0xE1510002 { given 0x77#32 0x0#32 0x80000000#32 0x0#32 with flags := nzcv 0 0 0 0 } (fun t =>
      t.reg 0 == 0x77#32 && t.flags == nzcv 1 0 0 1 && t.pc == 0x24#32) = true := by decide

theorem test_cmps_by_register :
    runs 0xE1510312 { given 0x77#32 0xFFFFFFFF#32 0x8E#32 0x0#32 with flags := nzcv 0 0 0 0 } (fun t =>
      t.reg 0 == 0x77#32 && t.flags == nzcv 1 0 1 0 && t.pc == 0x24#32) = true := by decide

/-- S3. -/
theorem test_mov_without_s :
    runs 0xE3A00000 (given 0x77#32 0#32 0#32 0#32) (fun t =>
      t.reg 0 == 0#32 && t.flags == nzcv 0 0 1 1) = true := by decide

/-- S4. -/
theorem test_multiply_by_five :
    runs 0xE0800100 (given 0x33333334#32 0#32 0#32 0#32) (fun t =>
      t.reg 0 == 4#32 && t.flags == nzcv 0 0 1 1) = true := by decide

/-- R156; section 6. -/
theorem test_mov_pc_lr :
    runs 0xE1A0F00E (vectors.setReg 14 0x44#32) (fun t => t.pc == 0x44#32) = true ∧
      refuses 0xE3A0F002 vectors (.pcMisaligned 2#32) = true := by decide

/-- Op2 of the immediate `rot`, `imm8` (S5), with C set. -/
def op2 (rot : BitVec 4) (imm8 : BitVec 8) : Shifted := rotatedImmediate rot imm8 true

/-- S5. -/
theorem test_rotated_immediates :
    op2 0 0xFF = ⟨0xFF#32, true⟩ ∧ op2 1 0xFF = ⟨0xC000003F#32, true⟩ ∧ op2 15 0xFF = ⟨0x3FC#32, false⟩ ∧
    op2 12 0x3F = ⟨0x3F00#32, false⟩ ∧ op2 14 0x01 = ⟨0x10#32, false⟩ ∧ op2 2 0x81 = ⟨0x10000008#32, false⟩ := by decide

/-- Section 3a. -/
theorem test_shift_by_immediate :
    shiftByImmediate .lsl 0 0x80000001#32 true = ⟨0x80000001#32, true⟩ ∧
    shiftByImmediate .lsl 1 0x80000001#32 false = ⟨0x00000002#32, true⟩ ∧
    shiftByImmediate .lsl 31 0x80000001#32 false = ⟨0x80000000#32, false⟩ ∧
    shiftByImmediate .lsr 0 0x80000001#32 false = ⟨0x00000000#32, true⟩ ∧
    shiftByImmediate .lsr 31 0x80000001#32 true = ⟨0x00000001#32, false⟩ ∧
    shiftByImmediate .asr 0 0x80000001#32 false = ⟨0xFFFFFFFF#32, true⟩ ∧
    shiftByImmediate .asr 0 0x7FFFFFFF#32 true = ⟨0x00000000#32, false⟩ ∧
    shiftByImmediate .asr 2 0x80000004#32 false = ⟨0xE0000001#32, false⟩ ∧
    shiftByImmediate .ror 0 0x80000001#32 false = ⟨0x40000000#32, true⟩ ∧
    shiftByImmediate .ror 0 0x00000002#32 true = ⟨0x80000001#32, false⟩ ∧
    shiftByImmediate .ror 4 0x000000FF#32 false = ⟨0xF000000F#32, true⟩ ∧
    shiftByImmediate .ror 16 0x12345678#32 false = ⟨0x56781234#32, false⟩ := by decide

/-- Section 3b. -/
theorem test_shift_by_register :
    shiftByRegister .lsl 0 0x80000001#32 true = ⟨0x80000001#32, true⟩ ∧
    shiftByRegister .lsl 31 0x80000001#32 false = ⟨0x80000000#32, false⟩ ∧
    shiftByRegister .lsl 32 0x80000001#32 false = ⟨0x00000000#32, true⟩ ∧
    shiftByRegister .lsl 33 0x80000001#32 true = ⟨0x00000000#32, false⟩ ∧
    shiftByRegister .lsr 31 0x80000001#32 false = ⟨0x00000001#32, false⟩ ∧
    shiftByRegister .lsr 32 0x80000001#32 false = ⟨0x00000000#32, true⟩ ∧
    shiftByRegister .lsr 33 0x80000001#32 true = ⟨0x00000000#32, false⟩ ∧
    shiftByRegister .asr 0 0x80000001#32 false = ⟨0x80000001#32, false⟩ ∧
    shiftByRegister .asr 31 0x80000001#32 false = ⟨0xFFFFFFFF#32, false⟩ ∧
    shiftByRegister .asr 200 0x80000001#32 false = ⟨0xFFFFFFFF#32, true⟩ ∧
    shiftByRegister .ror 0 0x80000001#32 true = ⟨0x80000001#32, true⟩ ∧
    shiftByRegister .ror 32 0x80000001#32 false = ⟨0x80000001#32, true⟩ ∧
    shiftByRegister .ror 64 0x40000001#32 true = ⟨0x40000001#32, false⟩ ∧
    shiftByRegister .ror 33 0x80000001#32 false = ⟨0xC0000000#32, true⟩ ∧
    shiftByRegister .ror 36 0x12345678#32 false = ⟨0x81234567#32, true⟩ := by decide

/-- Section 3b: a length of 100H is no shift. -/
theorem test_shift_length_is_low_byte :
    runs 0xE1A00211 (given 0#32 0x80000001#32 0x100#32 0#32) (fun t => t.reg 0 == 0x80000001#32) = true := by decide

/-- The settings of N Z C V, as numbers 0 to 15, under which a condition passes. -/
def passing (c : Cond) : List Nat :=
  (List.range 16).filter (fun k => condPassed c { n := k.testBit 3, z := k.testBit 2, c := k.testBit 1, v := k.testBit 0 })

/-- S1. -/
theorem test_condition_table :
    passing .eq = [4, 5, 6, 7, 12, 13, 14, 15] ∧
    passing .ne = [0, 1, 2, 3, 8, 9, 10, 11] ∧
    passing .cs = [2, 3, 6, 7, 10, 11, 14, 15] ∧
    passing .cc = [0, 1, 4, 5, 8, 9, 12, 13] ∧
    passing .mi = [8, 9, 10, 11, 12, 13, 14, 15] ∧
    passing .pl = [0, 1, 2, 3, 4, 5, 6, 7] ∧
    passing .vs = [1, 3, 5, 7, 9, 11, 13, 15] ∧
    passing .vc = [0, 2, 4, 6, 8, 10, 12, 14] ∧
    passing .hi = [2, 3, 10, 11] ∧
    passing .ls = [0, 1, 4, 5, 6, 7, 8, 9, 12, 13, 14, 15] ∧
    passing .ge = [0, 2, 4, 6, 9, 11, 13, 15] ∧
    passing .lt = [1, 3, 5, 7, 8, 10, 12, 14] ∧
    passing .gt = [0, 2, 9, 11] ∧
    passing .le = [1, 3, 4, 5, 6, 7, 8, 10, 12, 13, 14, 15] ∧
    passing .al = List.range 16 := by decide

theorem test_ldr :
    runs 0xE5B10004 (given 0#32 0x100#32 0#32 0#32) (fun t =>
      t.reg 0 == 0x77665544#32 && t.reg 1 == 0x104#32) = true := by decide

theorem test_ldr_post :
    runs 0xE4910004 (given 0#32 0x100#32 0#32 0#32) (fun t =>
      t.reg 0 == 0x33221100#32 && t.reg 1 == 0x104#32) = true := by decide

theorem test_ldr_register :
    runs 0xE7910102 (given 0#32 0x100#32 3#32 0#32) (fun t =>
      t.reg 0 == 0xFFEEDDCC#32 && t.reg 1 == 0x100#32) = true := by decide

theorem test_ldr_register_post :
    runs 0xE6910002 (given 0#32 0x104#32 0x1001#32 0#32) (fun t =>
      t.reg 0 == 0x77665544#32 && t.reg 1 == 0x1105#32) = true := by decide

theorem test_ldr_pc :
    runs 0xE59F00D8 (given 0#32 0#32 0#32 0#32) (fun t =>
      t.reg 0 == 0x33221100#32) = true := by decide

theorem test_ldrb :
    runs 0xE5510001 (given 0#32 0x110#32 0#32 0#32) (fun t =>
      t.reg 0 == 0xFF#32) = true := by decide

theorem test_ldrb_post :
    runs 0xE4D32001 (given 0#32 0#32 0#32 0x104#32) (fun t =>
      t.reg 2 == 0x44#32 && t.reg 3 == 0x105#32) = true := by decide

theorem test_str :
    runs 0xE5810000 (given 0xDEADBEEF#32 0x100#32 0#32 0#32) (fun t =>
      t.readByte 0x100#32 == 0xEF#8 && t.readByte 0x103#32 == 0xDE#8 && t.dirty == [0x100]) = true := by decide

theorem test_str_writeback :
    runs 0xE5A21004 (given 0#32 3#32 0x100#32 0#32) (fun t =>
      t.readWord 0x104#32 == 3#32 && t.reg 2 == 0x104#32) = true := by decide

theorem test_str_register :
    runs 0xE7010002 (given 1#32 0x10C#32 4#32 0#32) (fun t =>
      t.readWord 0x108#32 == 1#32 && t.readWord 0x10C#32 == 0xFFEEDDCC#32) = true := by decide

theorem test_strb :
    runs 0xE5C10001 (given 0x12345678#32 0x100#32 0#32 0#32) (fun t =>
      t.readWord 0x100#32 == 0x33227800#32 && t.dirty == [0x100]) = true := by decide

theorem test_ldr_to_pc :
    runs 0xE591F000 (given 0#32 0x100#32 0#32 0#32) (fun t =>
      t.pc == 0x33221100#32) = true := by decide

/-- LDRB R0, [R1, R2, LSR #1]!: base 101H plus 2. -/
theorem test_ldrb_register :
    runs 0b1110_011_1_1_1_1_1_0001_0000_00001_01_0_0010 (given 0#32 0x101#32 4#32 0#32) (fun t =>
      t.reg 0 == 0x33#32 && t.reg 1 == 0x103#32) = true := by decide

/-- STRB R0, [R1], -R2: base 10FH, then minus 15. -/
theorem test_strb_register :
    runs 0b1110_011_0_0_1_0_0_0001_0000_00000_00_0_0010 (given 0xABCD#32 0x10F#32 0xF#32 0#32) (fun t =>
      t.readWord 0x10C#32 == 0xCDEEDDCC#32 && t.reg 1 == 0x100#32) = true := by decide

/-- Section 4; the word 77665544H is a multiple of 4. -/
theorem test_ldr_stops :
    refuses 0xE5910000 (given 0#32 0x102#32 0#32 0#32) (.misalignedWord 0x102#32) = true ∧
      faults 0xE5910000 (given 0#32 0x2000#32 0#32 0#32) (.memFault 0x2000#32 .load 0x20#32) = true ∧
      faults 0xE5B10FFC (given 0#32 0x100#32 0#32 0#32) (.memFault 0x10FC#32 .load 0x20#32) = true ∧
      refuses 0xE591F000 (given 0#32 0x104#32 0#32 0#32) (.pcMisaligned 0x77665544#32) = false := by decide

theorem test_mul :
    runs 0xE0000291 (given 0x7#32 0xFFFFFFFD#32 0x5#32 0x0#32) (fun t => t.reg 0 == 0xFFFFFFF1#32 && t.flags == nzcv 0 0 1 1) = true := by decide

theorem test_mla :
    runs 0xE0203291 (given 0x0#32 0x6#32 0x7#32 0x64#32) (fun t => t.reg 0 == 0x8E#32 && t.flags == nzcv 0 0 1 1) = true := by decide

theorem test_muls :
    runs 0xE0100291 (given 0#32 0x10000#32 0x10000#32 0#32) (fun t =>
      t.reg 0 == 0#32 && !t.flags.n && t.flags.z && t.flags.v && t.draws == 1) = true := by decide

theorem test_mlas :
    runs 0xE0303291 (given 0#32 2#32 0x40000000#32 1#32) (fun t =>
      t.reg 0 == 0x80000001#32 && t.flags.n && !t.flags.z && t.flags.v) = true := by decide

/-- S6. -/
theorem test_b :
    branchTarget 0x1000#32 0x7FFFFF#24 = 0x02001004#32 ∧
    branchTarget 0x02001000#32 0x800000#24 = 0x1008#32 ∧
    branchTarget 0x0#32 0x800000#24 = 0xFE000008#32 ∧
    branchTarget 0x1000#32 0xFFFFFE#24 = 0x1000#32 := by decide

/-- S6. -/
theorem test_bl :
    runs 0xEB000003 { vectors with pc := 4#32 } (fun t => t.pc == 0x18#32 && t.reg 14 == 8#32) = true := by decide

/-- S6. -/
theorem test_bne :
    runs 0x1AFFFFFC { vectors with pc := 0x10#32 } (fun t => t.pc == 8#32) = true ∧
      runs 0x1AFFFFFC { vectors with pc := 0x10#32, flags := nzcv 0 1 0 0 } (fun t => t.pc == 0x14#32) = true := by decide

/-- S7. -/
theorem test_swi_0 :
    runs 0xEF000000 (given 0x12345641#32 0#32 0#32 0#32) (fun t => t.out == [0x41#8] && t.reg 0 == 0x12345641#32) = true := by decide

/-- S7; P5 for the end of the input. -/
theorem test_swi_1 :
    runs 0xEF000001 { vectors with input := [0x79#8] } (fun t => t.inpos == 1 && t.pc == 0x24#32) = true ∧
      runs 0xEF000001 vectors (fun t => t.pc == 0x20#32) = true := by decide

/-- S7. -/
theorem test_swi_2 : runs 0xEF000002 vectors (fun t => t.halted && t.pc == 0x20#32) = true := by decide

/-- S7. -/
theorem test_swi_4 :
    formatNumber .signedDecimal 0x23#32 = [0x33, 0x35] ∧ formatNumber .signedDecimal 0xFFFFFFFF#32 = [0x2D, 0x31] ∧
    formatNumber .unsignedDecimal 0xFFFFFFFF#32 = [0x34, 0x32, 0x39, 0x34, 0x39, 0x36, 0x37, 0x32, 0x39, 0x35] ∧
    formatNumber .signedDecimal 0#32 = [0x30] ∧ formatNumber .signedDecimal 0x80000000#32 =
      [0x2D, 0x32, 0x31, 0x34, 0x37, 0x34, 0x38, 0x33, 0x36, 0x34, 0x38] := by decide

/-- S7, section 6. -/
theorem test_swi_other :
    faults 0xEF000005 vectors (.swiError 5#24 0x20#32) = true ∧
      faults 0xEFFFFFFF vectors (.swiError 0xFFFFFF#24 0x20#32) = true ∧
      runs 0x1F000063 { vectors with flags := nzcv 0 1 0 0 } (fun t => t.pc == 0x24#32) = true := by decide

/-- R223. -/
theorem test_fault_codes :
    (Fault.swiError 5#24 0#32).code = 1 ∧ (Fault.memFault 0#32 .fetch 0#32).code = 2 ∧
    (Fault.memFault 0#32 .load 0#32).code = 3 ∧ (Fault.memFault 0#32 .store 0#32).code = 4 := ⟨rfl, rfl, rfl, rfl⟩

/-- R45. -/
theorem test_fetch_outside :
    step { vectors with pc := 0x1000#32 } = .fault (.memFault 0x1000#32 .fetch 0x1000#32) := rfl

/-- R45. -/
theorem test_fetch_modified :
    step { vectors with dirty := [0x20] } = .refused (.fetchOfModifiedWord 0x20#32) := rfl

/-- The first instruction after reset. -/
theorem test_with_fetch_word :
    runs 0xE3A00007 State.reset (fun t => t.reg 0 == 7#32 && t.pc == 4#32) = true := by decide

/-- The machine of the vectors with the string of S7 at 40H. -/
def hi : State := { vectors with mem := [(0x40, 0x48), (0x41, 0x69), (0x42, 0x21), (0x43, 0x00)] }

/-- S7; R38. -/
theorem test_swi_3 :
    runs 0xEF000003 (hi.setReg 0 0x40#32) (fun t => t.out == [0x48#8, 0x69#8, 0x21#8]) = true ∧
      faults 0xEF000003 (vectors.setReg 0 0x1000#32) (.memFault 0x1000#32 .load 0x20#32) = true := by decide +kernel

/-! ### Witnesses: for each statement with hypotheses, operands and a state that meet them -/

theorem witness_DecodeOfEncodeIsTheInstruction :
    WellFormed (.andImm .eq true 15 14 15 0xFF) ∧ WellFormed (.strbReg .al .postIndexed false 14 0 13 .ror 31) := by decide

theorem witness_DecodedInstructionsAreWellFormed :
    decode 0xE59F0004#32 = .ok (.ldrImm .al .offset true 15 0 4) := by decide

/-- A line for each clause: with a constant, with a plain register (as operand, as offset), without an offset. -/
theorem witness_EncodeRecoversTheDecodedWord :
    decode 0xE0000291#32 = .ok (.mul .al false 0 2 1) ∧
      Instr.ignoredFieldsZero (.mul .al false 0 2 1) 0xE0000291#32 ∧
      word (.test .cmp none 2 (.constant 0xFF0#32)) = some 0xE3520EFF#32 ∧
      word (.move .mov none false 15 (.register 14)) = some 0xE1A0F00E#32 ∧
      (SourceLine.move .mov none false 15 (.register 14)).HasPlainRegister 14 ∧
      word (.transfer .str none 0 (.indexed .offset 1 false (.register 2))) = some 0xE7010002#32 ∧
      (SourceLine.transfer .str none 0 (.indexed .offset 1 false (.register 2))).HasPlainRegister 2 ∧
      word (.transfer .ldr none 0 (.base 1)) = some 0xE5910000#32 ∧
      word (.write .add none false 0 0 (.constant 0x101#32)) = none :=
  ⟨by decide, rfl, by decide, by decide, .inl rfl, by decide, .inr ⟨_, _, _, rfl⟩, by decide, by decide⟩

theorem witness_DecodedWordsSelectTheirTableRow : decode 0x0F000002#32 = .ok (.swi .eq 2) := by decide

theorem witness_ReservedConditionIsRefused :
    (0xF0000000#32 : Word).extractLsb' 28 4 = 0xF#4 ∧ (vectors.withFetchWord 32 0xF0000000).halted = false ∧
      fetch (vectors.withFetchWord 32 0xF0000000) = .ok 0xF0000000#32 := ⟨by decide, rfl, rfl⟩

/-- The premise of `UnlistedEncodingsAreRefused`. -/
abbrev Unlisted (w : Word) : Prop :=
  w.extractLsb' 28 4 ≠ 0xF#4 ∧ ((w.extractLsb' 25 3 = 0b100#3 ∨ w.extractLsb' 25 3 = 0b110#3) ∨
    (w.extractLsb' 25 3 = 0b000#3 ∧ w.getLsbD 4 = true ∧ w.getLsbD 7 = true ∧
      ¬ (w.extractLsb' 4 4 = 0b1001#4 ∧ w.extractLsb' 22 3 = 0b000#3)) ∨
    (w.extractLsb' 25 3 = 0b011#3 ∧ w.getLsbD 4 = true) ∨
    (w.extractLsb' 25 3 = 0b111#3 ∧ w.getLsbD 24 = false) ∨
    (w.extractLsb' 26 2 = 0b00#2 ∧ (w.getLsbD 25 = true ∨ w.getLsbD 4 = false ∨ w.getLsbD 7 = false) ∧
      w.extractLsb' 23 2 = 0b10#2 ∧ w.getLsbD 20 = false))

/-- One word for each clause, of the last one for each of the three data processing forms. -/
theorem witness_UnlistedEncodingsAreRefused :
    Unlisted 0xE8BD8000#32 ∧ Unlisted 0xEC000000#32 ∧ Unlisted 0xE00000B0#32 ∧ Unlisted 0xE0400090#32 ∧
      Unlisted 0xE7910112#32 ∧ Unlisted 0xEE000000#32 ∧ Unlisted 0xE1000000#32 ∧ Unlisted 0xE3600001#32 ∧
      Unlisted 0xE1400012#32 := by
  refine ⟨?_, ?_, ?_, ?_, ?_, ?_, ?_, ?_, ?_⟩ <;> decide

theorem witness_PostIndexedWithWBitIsRefused :
    (0xE4B10004#32 : Word).extractLsb' 28 4 ≠ 0xF#4 ∧ (0xE4B10004#32 : Word).extractLsb' 26 2 = 0b01#2 ∧
      (0xE4B10004#32 : Word).getLsbD 24 = false ∧ (0xE4B10004#32 : Word).getLsbD 21 = true := by decide

/-- The premises of the first clause of `PcFieldsOfDataProcessingAreRefused`. -/
abbrev PcInRegShiftForm (w : Word) : Prop :=
  w.extractLsb' 28 4 ≠ 0xF#4 ∧ w.extractLsb' 26 2 = 0b00#2 ∧ ¬ (w.extractLsb' 23 2 = 0b10#2 ∧ w.getLsbD 20 = false) ∧
    w.getLsbD 25 = false ∧ w.getLsbD 4 = true ∧ w.getLsbD 7 = false ∧
    (w.extractLsb' 16 4 = 0xF#4 ∨ w.extractLsb' 12 4 = 0xF#4 ∨ w.extractLsb' 8 4 = 0xF#4 ∨ w.extractLsb' 0 4 = 0xF#4)

/-- The premises of its second clause. -/
abbrev PcDestWithS (w : Word) : Prop :=
  w.extractLsb' 28 4 ≠ 0xF#4 ∧ w.extractLsb' 26 2 = 0b00#2 ∧ ¬ (w.extractLsb' 23 2 = 0b10#2 ∧ w.getLsbD 20 = false) ∧
    (w.getLsbD 25 = true ∨ w.getLsbD 4 = false) ∧ w.getLsbD 20 = true ∧ w.extractLsb' 12 4 = 0xF#4

/-- One word for each of the four register fields, the ignored ones of MOV and TST, then the two other forms. -/
theorem witness_PcFieldsOfDataProcessingAreRefused :
    PcInRegShiftForm 0xE08F1413#32 ∧ PcInRegShiftForm 0xE081F413#32 ∧ PcInRegShiftForm 0xE0811F13#32 ∧
      PcInRegShiftForm 0xE081141F#32 ∧ PcInRegShiftForm 0xE1AF1413#32 ∧ PcInRegShiftForm 0xE111F413#32 ∧
      PcDestWithS 0xE3B0F000#32 ∧ PcDestWithS 0xE1B0F00E#32 ∧ PcDestWithS 0xE351F000#32 := by
  refine ⟨?_, ?_, ?_, ?_, ?_, ?_, ?_, ?_, ?_⟩ <;> decide

/-- R15 as a base written back, as Rm, as Rd; a clash with Rd, with Rm; neither. -/
theorem witness_LoadStoreRegisterRestrictions :
    ((.preWriteback ≠ Indexing.offset ∧ (15 : Reg) = 15) ∧ (TransferOp.str ≠ .ldr ∧ (15 : Reg) = 15) ∧
      ∃ sh n, Offset.reg 15 .lsl 0 = .reg 15 sh n) ∧
    (Indexing.postIndexed ≠ .offset ∧ (1 : Reg) = 1 ∧ ∃ sh n, Offset.reg 1 .lsl 0 = .reg 1 sh n) ∧
    (¬ ((Indexing.offset ≠ .offset ∧ (15 : Reg) = 15) ∨ (∃ sh n, Offset.imm 0 = .reg 15 sh n) ∨
      (TransferOp.ldr ≠ .ldr ∧ (15 : Reg) = 15))) := by
  refine ⟨⟨by decide, by decide, .lsl, 0, rfl⟩, ⟨by decide, rfl, .lsl, 0, rfl⟩, ?_⟩
  simp

/-- Accepted MUL and MLA, Rd = Rm, and R15 as Rn of MLA. -/
theorem witness_MultiplyRegisterRestriction :
    ∀ w ∈ [0xE0000291#32, 0xE0303291#32, 0xE0000090#32, 0xE02F3291#32], Cond.ofBits (w.extractLsb' 28 4) = some .al ∧
      w.extractLsb' 22 6 = 0b000000#6 ∧ w.extractLsb' 4 4 = 0b1001#4 := by
  simp [Cond.ofBits]

theorem witness_IllFormedInstructionsAreRefusedAlike :
    (Instr.mul .al false 1 2 1).staticRefusal = some .multiplyRegister ∧
      (Instr.movImm .al true 15 0 0).staticRefusal = some .r15DestWithS := by decide

/-- At the first and at the last word of the address space. -/
theorem witness_StepRunsTheDecodedInstruction :
    ∀ pc ∈ [0#32, 0xFFFFFFFC#32], ∀ s, s = ({ State.reset with pc := pc }).withFetchWord 32 0xE3A00007 →
      s.halted = false ∧ s.pc.toNat % 4 = 0 ∧ s.pc.toNat ∉ s.dirty ∧ s.isValid s.pc = true ∧
        s.isValid (s.pc + 1#32) = true ∧ s.isValid (s.pc + 2#32) = true ∧ s.isValid (s.pc + 3#32) = true ∧
        decode (wordOfBytes (s.readByte s.pc) (s.readByte (s.pc + 1#32)) (s.readByte (s.pc + 2#32))
          (s.readByte (s.pc + 3#32))) = .ok (.movImm .al false 0 0 7) := by
  intro pc hp s hs
  simp only [List.mem_cons, List.not_mem_nil, or_false] at hp
  rcases hp with rfl | rfl <;> subst hs <;> exact ⟨rfl, rfl, by decide, rfl, rfl, rfl, rfl, rfl⟩

/-- A modified word; the last byte of a word missing; neither. -/
theorem witness_FetchChecksInOrder :
    (vectors.halted = false ∧ vectors.pc.toNat % 4 = 0) ∧
    (0x20 ∈ ({ vectors with dirty := [0x20] } : State).dirty) ∧
    (∃ s : State, s.halted = false ∧ s.pc.toNat % 4 = 0 ∧ s.pc.toNat ∉ s.dirty ∧ s.isValid (s.pc + 3#32) = false) ∧
    (vectors.pc.toNat ∉ vectors.dirty ∧ vectors.isValid vectors.pc = true ∧ vectors.isValid (vectors.pc + 1#32) = true ∧
      vectors.isValid (vectors.pc + 2#32) = true ∧ vectors.isValid (vectors.pc + 3#32) = true) := by
  refine ⟨by decide, by decide, ⟨{ State.reset with memValid := [{ base := 0, size := 3 }] }, ?_⟩, by decide⟩
  decide

theorem witness_HaltedMachineStandsStill : ({ vectors with halted := true } : State).halted = true := rfl

theorem witness_ConditionCodesFollowTheTable :
    (0#4).toNat % 2 = 0 ∧ (12#4).toNat < 14 ∧ Cond.ofBits 12#4 = some .gt ∧ Cond.ofBits (12#4 + 1#4) = some .le ∧
      Cond.ofBits 0#4 = some .eq ∧ Cond.ofBits (0#4 + 1#4) = some .ne := by decide

theorem witness_FailedConditionOnlyMovesThePc :
    WellFormed (.swi .eq 99) ∧ condPassed (Instr.cond (.swi .eq 99)) vectors.flags = false := by decide

theorem witness_RotatedImmediate :
    0#4 = (0xE20210FF#32 : Word).extractLsb' 8 4 ∧ 0xFF#8 = (0xE20210FF#32 : Word).extractLsb' 0 8 ∧
      15#4 = (0xE2021F00#32 : Word).extractLsb' 8 4 ∧ 0#8 = (0xE2021F00#32 : Word).extractLsb' 0 8 := by decide

/-- The lengths 0, 1 and 31, and the four types. -/
theorem witness_ShiftsByAnImmediateLength :
    (0 : Reg) = regField 0xE1A00000#32 0 ∧ 0#5 = (0xE1A00000#32 : Word).extractLsb' 7 5 ∧
      (0xE1A00000#32 : Word).extractLsb' 5 2 = 0b00#2 ∧
      1#5 = (0xE1A000A1#32 : Word).extractLsb' 7 5 ∧ (0xE1A000A1#32 : Word).extractLsb' 5 2 = 0b01#2 ∧
      31#5 = (0xE1A00FC1#32 : Word).extractLsb' 7 5 ∧ (0xE1A00FC1#32 : Word).extractLsb' 5 2 = 0b10#2 ∧
      (15 : Reg) = regField 0xE1A0006F#32 0 ∧ 0#5 = (0xE1A0006F#32 : Word).extractLsb' 7 5 ∧
      (0xE1A0006F#32 : Word).extractLsb' 5 2 = 0b11#2 := by decide

/-- The lengths 0 (100H), 1, 31, 32, 33, 64 and 255. -/
theorem witness_ShiftsByARegisterLength :
    ((given 0#32 0#32 0#32 0x100#32).reg 3).toNat % 2 ^ 8 = 0 ∧ ((given 0#32 0#32 0#32 1#32).reg 3).toNat % 2 ^ 8 = 1 ∧
      ((given 0#32 0#32 0#32 31#32).reg 3).toNat % 2 ^ 8 = 31 ∧
      ((given 0#32 0#32 0#32 32#32).reg 3).toNat % 2 ^ 8 = 32 ∧
      ((given 0#32 0#32 0#32 33#32).reg 3).toNat % 2 ^ 8 = 33 ∧
      ((given 0#32 0#32 0#32 64#32).reg 3).toNat % 2 ^ 8 = 64 ∧
      ((given 0#32 0#32 0#32 0xFF#32).reg 3).toNat % 2 ^ 8 = 255 := by decide

theorem witness_CompareOrdersItsOperands :
    WellFormed (Shape.instr (.test .cmp .al 15 (.imm 0 0))) ∧ condPassed .al vectors.flags = true := by decide

theorem witness_LogicalWritesComplete :
    (14 : Reg).val < 15 ∧ WriteOp.isLogical .bic = true ∧
      WellFormed (Shape.instr (.write .bic .cs true 15 14 (.shiftImm 15 .ror 0))) ∧
      condPassed .cs vectors.flags = true := by decide

theorem witness_ArithmeticWritesComplete :
    (0 : Reg).val < 15 ∧ WriteOp.isLogical .rsc = false ∧
      WellFormed (Shape.instr (.write .rsc .cs true 14 0 (.shiftReg 14 .asr 14))) ∧
      condPassed .cs vectors.flags = true := by decide

theorem witness_MovesComplete :
    (14 : Reg).val < 15 ∧ WellFormed (Shape.instr (.move .mvn .al true 14 (.imm 15 0xFF))) ∧
      condPassed .al vectors.flags = true := by decide

theorem witness_TestsComplete :
    WellFormed (Shape.instr (.test .tst .al 15 (.imm 1 1))) ∧
      WellFormed (Shape.instr (.test .teq .al 14 (.shiftReg 0 .lsl 14))) ∧ condPassed .al vectors.flags = true := by decide

theorem witness_ComparesComplete :
    WellFormed (Shape.instr (.test .cmp .vs 0 (.shiftReg 1 .lsr 2))) ∧
      WellFormed (Shape.instr (.test .cmn .vs 15 (.shiftImm 15 .lsr 0))) ∧ condPassed .vs vectors.flags = true := by decide

/-- A target that is a multiple of 4 and one that is not, for both clauses. -/
theorem witness_DataProcessingJumps :
    WellFormed (Shape.instr (.write .add .al false 15 pcReg (.imm 0 4))) ∧
      WellFormed (Shape.instr (.move .mov .al false pcReg (.imm 0 2))) ∧ condPassed .al vectors.flags = true ∧
      (WriteOp.add.effect (vectors.reg 15) (shifterOperand vectors (.imm 0 4)).value true).toNat % 4 = 0 ∧
      (MoveOp.mov.effect (shifterOperand vectors (.imm 0 2)).value).toNat % 4 = 2 := by decide

theorem witness_MultipliesComplete :
    (14 : Reg).val < 15 ∧ condPassed .al vectors.flags = true ∧ WellFormed (.mul .al true 14 14 0) ∧
      WellFormed (.mla .al true 14 14 14 0) ∧
      (0#32).toNat = (vectors.reg 0).toNat * (vectors.reg 14).toNat % 2 ^ 32 ∧
      (0#32).toNat = ((vectors.reg 0).toNat * (vectors.reg 14).toNat + (vectors.reg 14).toNat) % 2 ^ 32 := by decide

theorem witness_TransferAddresses :
    Offset.imm 0xFFF = .imm 0xFFF ∧ Offset.reg 2 .lsr 0 = .reg 2 .lsr 0 := ⟨rfl, rfl⟩

/-- A word of the vectors' memory, its four bytes there, at a multiple of 4. -/
abbrev AtWord (s : State) (a : Word) : Prop :=
  a.toNat % 4 = 0 ∧ s.isValid a = true ∧ s.isValid (a + 1#32) = true ∧ s.isValid (a + 2#32) = true ∧
    s.isValid (a + 3#32) = true

/-- The last word that is there, FFCH, reached with write-back. -/
theorem witness_LdrCompletes :
    (0 : Reg) ≠ pcReg ∧ WellFormed (Shape.instr (.transfer .ldr .al .preWriteback true 1 0 (.imm 0xFFC))) ∧
      condPassed .al vectors.flags = true ∧ AtWord vectors (accessAddress vectors .preWriteback true 1 (.imm 0xFFC)) := by decide

/-- The word at 104H is a multiple of 4; the word at 103H + 1 of another memory is not. -/
theorem witness_LdrToThePcJumps :
    WellFormed (Shape.instr (.transfer .ldr .al .offset true 1 pcReg (.imm 0x104))) ∧
      condPassed .al vectors.flags = true ∧ AtWord vectors (accessAddress vectors .offset true 1 (.imm 0x104)) ∧
      (vectors.readWord 0x104#32).toNat % 4 = 0 ∧
      AtWord (vectors.putByte 0x104#32 0x45#8) (accessAddress vectors .offset true 1 (.imm 0x104)) ∧
      ((vectors.putByte 0x104#32 0x45#8).readWord 0x104#32).toNat % 4 = 1 := by decide

theorem witness_LdrbCompletes :
    WellFormed (Shape.instr (.transfer .ldrb .al .postIndexed false 1 0 (.reg 2 .lsl 31))) ∧
      condPassed .al vectors.flags = true ∧
      (vectors.setReg 1 0xFFF#32).isValid
        (accessAddress (vectors.setReg 1 0xFFF#32) .postIndexed false 1 (.reg 2 .lsl 31)) = true := by decide

theorem witness_StrCompletes :
    WellFormed (Shape.instr (.transfer .str .al .preWriteback true 1 0 (.imm 0xFFC))) ∧
      condPassed .al vectors.flags = true ∧ AtWord vectors (accessAddress vectors .preWriteback true 1 (.imm 0xFFC)) := by decide

theorem witness_StrbCompletes :
    WellFormed (Shape.instr (.transfer .strb .al .offset true 1 1 (.imm 0xFFF))) ∧ condPassed .al vectors.flags = true ∧
      vectors.isValid (accessAddress vectors .offset true 1 (.imm 0xFFF)) = true := by decide

theorem witness_MisalignedWordAccessesAreRefused :
    WellFormed (Shape.instr (.transfer .ldr .al .offset true 1 0 (.imm 1))) ∧
      WellFormed (Shape.instr (.transfer .str .al .offset true 1 0 (.imm 0xFFF))) ∧
      condPassed .al vectors.flags = true ∧ (accessAddress vectors .offset true 1 (.imm 1)).toNat % 4 ≠ 0 ∧
      (accessAddress vectors .offset true 1 (.imm 0xFFF)).toNat % 4 ≠ 0 := by decide

/-- The first byte of an access outside the memory, k = 0, and the last, k = 3, in a memory that ends at FFEH. -/
theorem witness_AbsentMemoryFaults :
    (∀ op : TransferOp, WellFormed (Shape.instr (.transfer op .al .offset true 1 0 (.imm 0)))) ∧
      condPassed .al vectors.flags = true ∧
      accessAddress (vectors.setReg 1 0x1000#32) .offset true 1 (.imm 0) = 0x1000#32 ∧
      (0x1000#32).toNat % 4 = 0 ∧ vectors.isValid (0x1000#32 + BitVec.ofNat 32 0) = false ∧
      (∀ j, j < 3 → ({ vectors with memValid := [{ base := 0, size := 0xFFF }] } : State).isValid
        (0xFFC#32 + BitVec.ofNat 32 j) = true) ∧
      ({ vectors with memValid := [{ base := 0, size := 0xFFF }] } : State).isValid
        (0xFFC#32 + BitVec.ofNat 32 3) = false := by
  refine ⟨fun op => by cases op <;> decide, by decide⟩

theorem witness_WordsAreLittleEndian :
    0x104#32 ≠ 0x100#32 ∧ 0x104#32 ≠ 0x100#32 + 1#32 ∧ 0x104#32 ≠ 0x100#32 + 2#32 ∧ 0x104#32 ≠ 0x100#32 + 3#32 := by
  decide

theorem witness_BranchGoesToItsTarget : condPassed .al vectors.flags = true ∧ vectors.pc.toNat % 4 = 0 := by decide

theorem witness_BranchWithLinkCompletes : condPassed .vs vectors.flags = true ∧ vectors.pc.toNat % 4 = 0 := by decide

/-- The two ends of the range. -/
theorem witness_BranchesReachTheirRange :
    (0x2001000#32).toNat % 4 = 0 ∧ (0x1008#32).toNat % 4 = 0 ∧
      -2 ^ 25 = ((0x1008#32).toNat : Int) - ((0x2001000#32).toNat + 8) ∧ (0x1000#32).toNat % 4 = 0 ∧
      (0x2001004#32).toNat % 4 = 0 ∧ ((0x2001004#32).toNat : Int) - ((0x1000#32).toNat + 8) = 2 ^ 25 - 4 ∧
      (0x2001008#32).toNat % 4 = 0 ∧ 2 ^ 25 - 4 < ((0x2001008#32).toNat : Int) - ((0x1000#32).toNat + 8) ∧
      (0x1004#32).toNat % 4 = 0 ∧ ((0x1004#32).toNat : Int) - ((0x2001000#32).toNat + 8) < -2 ^ 25 := by decide

theorem witness_MovPcLrReturnsFromACall :
    vectors.pc.toNat % 4 = 0 ∧ condPassed .al vectors.flags = true ∧
      ∃ t, exec (.bl .al 3) vectors = .next t ∧ ({ t with pc := 0x100#32 } : State).reg linkReg = t.reg linkReg :=
  ⟨by decide, by decide, _, rfl, rfl⟩

theorem witness_SwiZeroPrintsACharacter : condPassed .cs vectors.flags = true := rfl

theorem witness_SwiOneReadsACharacter :
    condPassed .al vectors.flags = true ∧
      ({ vectors with input := [0x61, 0x62], inpos := 1 } : State).input[1]? = some 0x62#8 := ⟨rfl, rfl⟩

theorem witness_SwiOneWaitsForInput : condPassed .al vectors.flags = true ∧ vectors.waits := ⟨rfl, rfl⟩

theorem witness_SwiTwoHalts : condPassed .al vectors.flags = true := rfl

/-- The string "Hi!" at 40H, k = 3; the empty string, k = 0; no memory at 44H after a byte at 43H, k = 1, and none at
1000H, k = 0. -/
theorem witness_SwiThreePrintsAString :
    condPassed .al hi.flags = true ∧
    (∀ j, j < 3 → hi.isValid (0x40#32 + BitVec.ofNat 32 j) = true ∧
      hi.readByte (0x40#32 + BitVec.ofNat 32 j) ≠ 0#8) ∧
    hi.isValid (0x40#32 + BitVec.ofNat 32 3) = true ∧ hi.readByte (0x40#32 + BitVec.ofNat 32 3) = 0#8 ∧
    (hi.setReg 0 0x40#32).reg 0 = 0x40#32 ∧ hi.readByte (0x43#32 + BitVec.ofNat 32 0) = 0#8 ∧
    vectors.isValid (0x1000#32 + BitVec.ofNat 32 0) = false ∧
    (∀ j, j < 1 → (vectors.putByte 0xFFF#32 0x41#8).isValid (0xFFF#32 + BitVec.ofNat 32 j) = true ∧
      (vectors.putByte 0xFFF#32 0x41#8).readByte (0xFFF#32 + BitVec.ofNat 32 j) ≠ 0#8) ∧
    (vectors.putByte 0xFFF#32 0x41#8).isValid (0xFFF#32 + BitVec.ofNat 32 1) = false := by decide

/-- A memory whose first `n` bytes are listed, each of them 1. -/
def ones (n : Nat) : Memory := (List.range n).map (fun a => (a, 1#8))

theorem lookup_ones (n a : Nat) (h : a < n) : Memory.lookup (ones n) a = some 1#8 := by
  have key : ∀ l : List Nat, a ∈ l → Memory.lookup (l.map (fun x => (x, 1#8))) a = some 1#8 := by
    intro l
    induction l with
    | nil => intro h; cases h
    | cons x rest ih =>
      intro hm
      by_cases hx : x = a
      · simp [Memory.lookup, hx]
      · simp only [List.map_cons, Memory.lookup, if_neg hx]
        exact ih ((List.mem_cons.1 hm).resolve_left (Ne.symm hx))
  exact key _ (List.mem_range.2 h)

/-- In such a memory of 2^32 bytes the loop of SWI 3 finds no end. -/
theorem ones_never_zero (n : Nat) (hn : n = 2 ^ 32) (s : State) (hs : s = { State.reset with mem := ones n }) (a : Word) :
    s.isValid a = true ∧ s.readByte a ≠ 0#8 := by
  subst hs
  refine ⟨?_, ?_⟩
  · simpa [State.isValid, State.reset] using a.isLt
  · simp only [State.readByte, lookup_ones n a.toNat (hn ▸ a.isLt)]
    decide

theorem witness_SwiThreeWithoutAnEndIsStuck :
    ∃ s : State, condPassed .al s.flags = true ∧ ∀ a : Word, s.isValid a = true ∧ s.readByte a ≠ 0#8 :=
  ⟨{ State.reset with mem := ones (2 ^ 32) }, rfl, ones_never_zero _ rfl _ rfl⟩

theorem witness_SwiFourPrintsANumber : condPassed .al vectors.flags = true := rfl

theorem witness_SwiOfAnyOtherNumberTraps :
    condPassed .al vectors.flags = true ∧ 5 ≤ (5#24).toNat ∧ 5 ≤ (0xFFFFFF#24).toNat := by decide

theorem witness_FlagsChangeOnlyWithTheSBit :
    exec (.movImm .al false 0 0 7) vectors = .next (vectors.setReg 0 7#32).advance ∧
      Instr.setsFlags (.movImm .al false 0 0 7) = false := ⟨rfl, rfl⟩

theorem witness_RegistersChangeOnlyWhereNamed :
    exec (.movImm .al false 0 0 7) vectors = .next (vectors.setReg 0 7#32).advance ∧ (14 : Reg) ≠ pcReg ∧
      (14 : Reg) ∉ Instr.writesRegs (.movImm .al false 0 0 7) := ⟨rfl, by decide, by decide⟩

theorem witness_MemoryChangesOnlyByStores :
    exec (.movImm .al false 0 0 7) vectors = .next (vectors.setReg 0 7#32).advance ∧
      Instr.stores (.movImm .al false 0 0 7) = false := ⟨rfl, rfl⟩

/-- The machine of the vectors with STR R0, [R1] and then MOV R0, #7 as its next instructions. -/
def twoWords : State := ((vectors.setReg 1 0x100#32).putWord 0x20#32 0xE5810000#32).putWord 0x24#32 0xE3A00007#32

/-- It after the store. -/
def oneStepOn : State := ((twoWords.putWord 0x100#32 0#32).markDirty 0x100#32).advance

theorem twoWords_step : step twoWords = .next oneStepOn := rfl

theorem twoWords_good : twoWords.Good := ⟨by decide, by decide, by decide, by decide, by decide⟩

theorem witness_StepKeepsParametersAndHistory : step twoWords = .next oneStepOn := twoWords_step

theorem witness_StepKeepsTheStateGood : twoWords.Good ∧ step twoWords = .next oneStepOn :=
  ⟨twoWords_good, twoWords_step⟩

theorem witness_RunsExecuteUnmodifiedWords :
    twoWords.Good ∧ Reaches twoWords oneStepOn ∧ fetch oneStepOn = .ok 0xE3A00007#32 :=
  ⟨twoWords_good, .tail .refl twoWords_step, rfl⟩

end Sys2Proof.Tests
end

/-! ### AddWithCarry (R8, R111) -/

namespace Sys2Proof.Machine

/-- The result and the carry-out are the low 32 bits of the unsigned sum and its bit 32. -/
theorem addWithCarry_unsigned (a b : Word) (cin : Bool) :
    (addWithCarry a b cin).result.toNat + 2 ^ 32 * (addWithCarry a b cin).c.toNat =
      a.toNat + b.toNat + cin.toNat := by
  have ha := a.isLt
  have hb := b.isLt
  have hcin := cin.toNat_le
  by_cases hc : 2 ^ 32 ≤ a.toNat + b.toNat + cin.toNat
  · simp only [addWithCarry, hc, decide_true, Bool.toNat_true, BitVec.toNat_ofNat]
    omega
  · simp only [addWithCarry, hc, decide_false, Bool.toNat_false, BitVec.toNat_ofNat]
    omega

/-- The carry-out says that the unsigned sum does not fit in 32 bits. -/
theorem addWithCarry_carry (a b : Word) (cin : Bool) :
    (addWithCarry a b cin).c = true ↔ 2 ^ 32 ≤ a.toNat + b.toNat + cin.toNat := by
  simp [addWithCarry]

/-- The result, read as signed, is the signed sum brought into range modulo 2^32. -/
theorem addWithCarry_result_toInt (a b : Word) (cin : Bool) :
    (addWithCarry a b cin).result.toInt = (a.toInt + b.toInt + cin.toNat).bmod (2 ^ 32) := by
  have hresult : (addWithCarry a b cin).result = a + b + BitVec.ofNat 32 cin.toNat := by
    simp [addWithCarry, BitVec.ofNat_add]
  have hcin : (BitVec.ofNat 32 cin.toNat).toInt = cin.toNat := by cases cin <;> rfl
  rw [hresult, BitVec.toInt_add, BitVec.toInt_add, hcin, Int.bmod_add_bmod]

/-- Bringing into the signed range changes a number exactly when it is outside that range. -/
theorem bmod_word_ne_self_iff (x : Int) : x.bmod (2 ^ 32) ≠ x ↔ x < -2 ^ 31 ∨ 2 ^ 31 ≤ x := by
  rw [Int.bmod_def]
  split <;> omega

/-- V says that the signed sum does not fit in 32 bits. -/
theorem addWithCarry_overflow (a b : Word) (cin : Bool) :
    (addWithCarry a b cin).v = true ↔
      a.toInt + b.toInt + cin.toNat < -2 ^ 31 ∨ 2 ^ 31 ≤ a.toInt + b.toInt + cin.toNat := by
  rw [← bmod_word_ne_self_iff, ← addWithCarry_result_toInt]
  simp [addWithCarry]

/-- The complement, read as signed: one below the negative. -/
theorem complement_toInt (b : Word) : (~~~b).toInt = -b.toInt - 1 := by
  have hb := b.isLt
  simp only [BitVec.toInt_eq_toNat_cond, BitVec.toNat_not]
  split <;> split <;> omega

/-- Adding the complement with carry-in 1 gives the difference. -/
theorem addWithCarry_complement_result (a b : Word) : (addWithCarry a (~~~b) true).result = a - b := by
  apply BitVec.eq_of_toNat_eq
  have hb := b.isLt
  simp only [addWithCarry, BitVec.toNat_not, BitVec.toNat_ofNat, BitVec.toNat_sub, Bool.toNat_true]
  omega

/-- Adding the complement with carry-in 1, the carry-out says that no borrow occurred. -/
theorem addWithCarry_complement_carry (a b : Word) :
    (addWithCarry a (~~~b) true).c = true ↔ b.toNat ≤ a.toNat := by
  have hb := b.isLt
  rw [addWithCarry_carry, BitVec.toNat_not, Bool.toNat_true]
  omega

/-- Adding the complement with carry-in 1, V says that the signed difference does not fit in 32 bits. -/
theorem addWithCarry_complement_overflow (a b : Word) :
    (addWithCarry a (~~~b) true).v = true ↔ a.toInt - b.toInt < -2 ^ 31 ∨ 2 ^ 31 ≤ a.toInt - b.toInt := by
  have hsum : a.toInt + (~~~b).toInt + (true.toNat : Int) = a.toInt - b.toInt := by
    rw [complement_toInt, Bool.toNat_true]
    omega
  rw [addWithCarry_overflow, hsum]

/-- Settles O22: the sum from `addWithCarry_unsigned` and `addWithCarry_overflow`, the difference from the complement's
unsigned and signed values. -/
theorem addWithCarryIsExact : Obligations.AddWithCarryIsExact := fun a b =>
  ⟨fun cin => ⟨addWithCarry_unsigned a b cin, addWithCarry_overflow a b cin⟩,
    addWithCarry_complement_result a b, addWithCarry_complement_carry a b, addWithCarry_complement_overflow a b⟩

end Sys2Proof.Machine

/-! ### What every step keeps: the parameters and the history (R5, R19, R40, R163) -/

namespace Sys2Proof.Machine

/-- From `s` to `t` the parameters stay, and the output, the input consumed, `dirty` and a halt only grow. -/
structure State.KeepsHistory (s t : State) : Prop where
  memValid : t.memValid = s.memValid
  input : t.input = s.input
  swi4Format : t.swi4Format = s.swi4Format
  out : ∃ b, t.out = s.out ++ b
  inpos : s.inpos ≤ t.inpos
  dirty : s.dirty ⊆ t.dirty
  halted : s.halted = true → t.halted = true

section

variable {s t u : State}

/-! The operations on the state. -/

theorem State.KeepsHistory.refl (s : State) : s.KeepsHistory s :=
  ⟨rfl, rfl, rfl, ⟨[], (List.append_nil _).symm⟩, le_rfl, List.Subset.refl _, id⟩

/-- Registers, pc, flags, memory and the count of draws are no part of the history. -/
theorem State.KeepsHistory.update (h : s.KeepsHistory t) (regs : Vector Word 15) (pc : Word) (flags : Flags)
    (mem : Memory) (draws : Nat) :
    s.KeepsHistory { t with regs := regs, pc := pc, flags := flags, mem := mem, draws := draws } :=
  ⟨h.memValid, h.input, h.swi4Format, h.out, h.inpos, h.dirty, h.halted⟩

theorem State.KeepsHistory.advance (h : s.KeepsHistory t) : s.KeepsHistory t.advance := h.update ..

theorem State.KeepsHistory.setFlagsIf (h : s.KeepsHistory t) (sb : Bool) (f : Flags) :
    s.KeepsHistory (t.setFlagsIf sb f) := by
  cases sb with
  | false => exact h
  | true => exact h.update ..

theorem State.KeepsHistory.setReg (h : s.KeepsHistory t) (r : Reg) (v : Word) : s.KeepsHistory (t.setReg r v) := by
  unfold State.setReg
  split
  · exact h.update ..
  · exact h

theorem State.KeepsHistory.writeBack (h : s.KeepsHistory t) (ix : Indexing) (rn : Reg) (v : Word) :
    s.KeepsHistory (writeBack t ix rn v) := by
  rw [writeBack_eq]
  split
  · exact h.setReg rn v
  · exact h

theorem State.KeepsHistory.print (h : s.KeepsHistory t) (b : List Byte) : s.KeepsHistory (t.print b) := by
  obtain ⟨printed, hout⟩ := h.out
  exact { h with out := ⟨printed ++ b, by rw [State.print_out, hout, List.append_assoc]⟩ }

theorem State.KeepsHistory.markDirty (h : s.KeepsHistory t) (a : Word) : s.KeepsHistory (t.markDirty a) :=
  { h with dirty := fun q hq => (mem_insertAddress t.dirty _ q).2 (.inr (h.dirty hq)) }

/-! The templates. -/

theorem State.KeepsHistory.writeRd (h : s.KeepsHistory t) {rd : Reg} {v : Word} (hn : t.writeRd rd v = .next u) :
    s.KeepsHistory u := by
  rcases State.writeRd_next hn with ⟨_, rfl⟩ | ⟨_, _, rfl⟩
  · exact (h.setReg rd v).advance
  · exact h.update ..

theorem dpFinish_keepsHistory {sb : Bool} {rd : Reg} {o : AluOut} (h : dpFinish sb rd o s = .next t) :
    s.KeepsHistory t :=
  ((State.KeepsHistory.refl s).setFlagsIf sb (flagsOf o)).writeRd h

theorem dpTest_keepsHistory {alu : Word → Word → Bool → Flags → AluOut} {rn : Reg} {o2 : Operand2}
    (h : dpTest alu rn o2 s = .next t) : s.KeepsHistory t := by
  injection h with h
  subst h
  exact ((State.KeepsHistory.refl s).setFlagsIf true _).advance

theorem multiplyFinish_keepsHistory {sb : Bool} {rd : Reg} {result : Word} (h : multiplyFinish sb rd result s = .next t) :
    s.KeepsHistory t := by
  have hrd := (State.KeepsHistory.refl s).setReg rd result
  injection h with h
  subst h
  cases sb with
  | false => exact hrd.advance
  | true => exact hrd.update ..

theorem transferLoad_keepsHistory {access : State → Word → Except Stop Word} {ix : Indexing} {up : Bool} {rn rd : Reg}
    {off : Offset} (h : transferLoad access ix up rn rd off s = .next t) : s.KeepsHistory t := by
  obtain ⟨data, _, hw⟩ := transferLoad_next h
  exact ((State.KeepsHistory.refl s).writeBack ix rn _).writeRd hw

/-- A store keeps the history when its access does. -/
theorem transferStore_keepsHistory {access : State → Word → Word → Except Stop State} {ix : Indexing} {up : Bool}
    {rn rd : Reg} {off : Offset} (ha : ∀ a v u, access s a v = .ok u → s.KeepsHistory u)
    (h : transferStore access ix up rn rd off s = .next t) : s.KeepsHistory t := by
  obtain ⟨u, hu, rfl⟩ := transferStore_next h
  exact ((ha _ _ u hu).writeBack ix rn _).advance

theorem accessStr_keepsHistory (a v : Word) (u : State) (h : accessStr s a v = .ok u) : s.KeepsHistory u := by
  obtain ⟨_, _, rfl⟩ := State.storeWord_ok.1 h
  exact ((State.KeepsHistory.refl s).update ..).markDirty a

theorem accessStrb_keepsHistory (a v : Word) (u : State) (h : accessStrb s a v = .ok u) : s.KeepsHistory u := by
  obtain ⟨_, rfl⟩ := State.storeByte_ok.1 h
  exact ((State.KeepsHistory.refl s).update ..).markDirty a

/-- SWI 1 takes one character more. -/
theorem swiService_keepsHistory {imm24 : BitVec 24} (h : swiService imm24 s = .next t) : s.KeepsHistory t := by
  have hs := State.KeepsHistory.refl s
  rcases swiService_next h with ⟨_, rfl⟩ | ⟨_, _, rfl⟩ | ⟨_, ch, _, rfl⟩ | ⟨_, rfl⟩ | ⟨_, _, rfl⟩ | ⟨_, str, _, rfl⟩ |
    ⟨_, rfl⟩
  · exact (hs.print _).advance
  · exact hs
  · have hr := hs.setReg r0 (inputWord (Config.swi1Upper s.draws) ch)
    exact { hr with inpos := Nat.le_succ s.inpos }
  · exact { hs with halted := fun _ => rfl }
  · exact hs
  · exact (hs.print str).advance
  · exact (hs.print _).advance

/-! Every instruction and every step. -/

theorem shapeEffect_keepsHistory {x : Shape} (h : shapeEffect s x = .next t) : s.KeepsHistory t := by
  cases x with
  | write op c sb rn rd o2 => exact dpFinish_keepsHistory h
  | move op c sb rd o2 => exact dpFinish_keepsHistory h
  | test op c rn o2 => exact dpTest_keepsHistory h
  | mul c sb rd rs rm => exact multiplyFinish_keepsHistory h
  | mla c sb rd rn rs rm => exact multiplyFinish_keepsHistory h
  | transfer op c ix up rn rd off =>
    cases op with
    | ldr => exact transferLoad_keepsHistory h
    | ldrb => exact transferLoad_keepsHistory h
    | str => exact transferStore_keepsHistory accessStr_keepsHistory h
    | strb => exact transferStore_keepsHistory accessStrb_keepsHistory h
  | branch op c off =>
    have hs := State.KeepsHistory.refl s
    cases op with
    | b => injection h with h; subst h; exact hs.update ..
    | bl => injection h with h; subst h; exact (hs.setReg linkReg (s.pc + 4#32)).update ..
  | swi c imm24 => exact swiService_keepsHistory h

theorem exec_keepsHistory {i : Instr} (h : exec i s = .next t) : s.KeepsHistory t := by
  obtain ⟨_, ⟨_, rfl⟩ | ⟨_, he⟩⟩ := exec_next h
  · exact (State.KeepsHistory.refl s).advance
  · exact shapeEffect_keepsHistory he

theorem step_keepsHistory (h : step s = .next t) : s.KeepsHistory t := by
  rcases step_next h with ⟨_, rfl⟩ | ⟨_, w, i, _, _, he⟩
  · exact State.KeepsHistory.refl _
  · exact exec_keepsHistory he

end

/-- Settles O57: the parts of `step_keepsHistory`. -/
theorem stepKeepsParametersAndHistory : Obligations.StepKeepsParametersAndHistory := by
  intro s t h
  obtain ⟨hvalid, hinput, hformat, hout, hinpos, hdirty, hhalted⟩ := step_keepsHistory h
  exact ⟨hvalid, hinput, hformat, hout, hinpos, fun _ ha => hdirty ha, hhalted⟩

end Sys2Proof.Machine

/-! ### Rules of the shared operations that several statements of the state rest on -/

namespace Sys2Proof.Machine

section

variable {s t : State}

/-- A write of a register changes the register file alone. -/
theorem State.setReg_frame (s : State) (r : Reg) (v : Word) :
    s.setReg r v = { s with regs := (s.setReg r v).regs } := by
  unfold State.setReg
  split <;> rfl

/-- One of R0 to R14 reads the register file alone, wherever the pc is. -/
theorem State.reg_eq_of_regs {r : Reg} (hr : r ≠ pcReg) (h : t.regs = s.regs) : t.reg r = s.reg r := by
  simp only [State.reg_of_lt _ r (Reg.lt_of_ne_pc hr), h]

/-- What the end of a multiply answers: the result in Rd, with S the flags and one more draw, and the pc moved on. -/
theorem multiplyFinish_next {sb : Bool} {rd : Reg} {result : Word} (h : multiplyFinish sb rd result s = .next t) :
    (sb = false ∧ t = (s.setReg rd result).advance) ∨
      (sb = true ∧ t = { s.setReg rd result with
        flags := multiplyFlags result (Config.mulCarry s.draws) s.flags, draws := s.draws + 1 }.advance) := by
  injection h with h
  cases sb with
  | false => exact .inl ⟨rfl, h.symm⟩
  | true => exact .inr ⟨rfl, h.symm⟩

/-- What a compare answers: the flags, and the pc moved on. -/
theorem dpTest_next {alu : Word → Word → Bool → Flags → AluOut} {rn : Reg} {o2 : Operand2}
    (h : dpTest alu rn o2 s = .next t) : ∃ f, t = (s.setFlagsIf true f).advance := by
  injection h with h
  exact ⟨_, h.symm⟩

/-- What a branch answers: the pc at the target. -/
theorem branchTo_next {off : BitVec 24} {pc : Word} (h : branchTo off pc s = .next t) :
    t = { s with pc := branchTarget pc off } := by
  injection h with h
  exact h.symm

/-- The access of a store changes memory and the marks alone. -/
def StoreFrame (access : State → Word → Word → Except Stop State) : Prop :=
  ∀ (s : State) (a v : Word) (u : State), access s a v = .ok u → u = { s with mem := u.mem, dirty := u.dirty }

theorem accessStr_frame : StoreFrame accessStr := by
  intro s a v u h
  obtain ⟨_, _, rfl⟩ := State.storeWord_ok.1 h
  rfl

theorem accessStrb_frame : StoreFrame accessStrb := by
  intro s a v u h
  obtain ⟨_, rfl⟩ := State.storeByte_ok.1 h
  rfl

end

end Sys2Proof.Machine

/-! ### The halted machine (R23, R81) -/

namespace Sys2Proof.Machine

/-- Settles O16: a step looks at the halt before anything else. -/
theorem haltedMachineStandsStill : Obligations.HaltedMachineStandsStill := by
  intro s h
  rw [step, if_pos h]

end Sys2Proof.Machine

/-! ### The good state: at reset, and after every step (R14, R19, R20, R22, R32) -/

namespace Sys2Proof.Machine

/-- Settles O58: the listings of the state after reset are empty and its pc is 0. -/
theorem resetStateIsGood : Obligations.ResetStateIsGood := by
  refine ⟨⟨rfl, rfl, rfl, rfl⟩, ?_⟩
  exact
    { memory := reset_mem_wf
      listedValid := fun x hx => nomatch hx
      dirty := ⟨.nil, fun a ha => nomatch ha⟩
      pcAligned := rfl
      inputConsumed := le_rfl }

section

variable {s t : State}

/-! The operations on the state. -/

/-- A good state stays good when the pc moves to a multiple of 4, whatever becomes of the registers, the flags, the
output, the halt and the count of draws. -/
theorem State.Good.update (h : s.Good) (regs : Vector Word 15) {pc : Word} (hpc : pc.toNat % 4 = 0) (flags : Flags)
    (out : List Byte) (halted : Bool) (draws : Nat) :
    State.Good { s with regs := regs, pc := pc, flags := flags, out := out, halted := halted, draws := draws } :=
  ⟨h.memory, h.listedValid, h.dirty, hpc, h.inputConsumed⟩

theorem State.Good.moveTo (h : s.Good) {pc : Word} (hpc : pc.toNat % 4 = 0) : State.Good { s with pc := pc } :=
  h.update _ hpc _ _ _ _

/-- The next instruction is at a multiple of 4 too, also past the end of the address space. -/
theorem State.Good.advance (h : s.Good) : s.advance.Good := by
  have hpc := h.pcAligned
  exact h.moveTo (by bv_omega)

theorem State.Good.setReg (h : s.Good) (r : Reg) (v : Word) : (s.setReg r v).Good := by
  rw [State.setReg_frame]
  exact h.update _ h.pcAligned _ _ _ _

theorem State.Good.setFlagsIf (h : s.Good) (sb : Bool) (f : Flags) : (s.setFlagsIf sb f).Good := by
  cases sb with
  | false => exact h
  | true => exact h.update _ h.pcAligned _ _ _ _

theorem State.Good.writeBack (h : s.Good) (ix : Indexing) (rn : Reg) (v : Word) : (writeBack s ix rn v).Good := by
  rw [writeBack_frame]
  exact h.update _ h.pcAligned _ _ _ _

theorem State.Good.print (h : s.Good) (b : List Byte) : (s.print b).Good := h.update _ h.pcAligned _ _ _ _

theorem State.Good.putByte (h : s.Good) {a : Word} (b : Byte) (ha : s.isValid a = true) : (s.putByte a b).Good :=
  { h with
    memory := State.putByte_wf s a b h.memory
    listedValid := State.putByte_listedValid s a b h.listedValid ha }

theorem State.Good.putWord (h : s.Good) {a : Word} (w : Word) (ha : s.firstInvalid 4 a = none) :
    (s.putWord a w).Good := by
  obtain ⟨h0, h1, h2, h3⟩ := (State.firstInvalid_four s a).1 ha
  exact (((h.putByte _ h0).putByte _ h1).putByte _ h2).putByte _ h3

theorem State.Good.markDirty (h : s.Good) (a : Word) : (s.markDirty a).Good :=
  { h with dirty := insertAddress_wf s.dirty a h.dirty }

/-- The target of a branch at a multiple of 4 is a multiple of 4. -/
theorem branchTarget_aligned {pc : Word} (off : BitVec 24) (h : pc.toNat % 4 = 0) :
    (branchTarget pc off).toNat % 4 = 0 := by
  simp only [branchTarget, BitVec.toNat_add, BitVec.toNat_ofNat, BitVec.toNat_ofInt]
  omega

/-! The templates. -/

/-- A write of R15 that answers a next state jumps to a multiple of 4. -/
theorem State.Good.writeRd (h : s.Good) {rd : Reg} {v : Word} (hn : s.writeRd rd v = .next t) : t.Good := by
  rcases State.writeRd_next hn with ⟨_, rfl⟩ | ⟨_, hv, rfl⟩
  · exact (h.setReg rd v).advance
  · exact h.moveTo hv

theorem State.Good.dpFinish (h : s.Good) {sb : Bool} {rd : Reg} {o : AluOut} (hn : dpFinish sb rd o s = .next t) :
    t.Good :=
  (h.setFlagsIf sb (flagsOf o)).writeRd hn

theorem State.Good.multiplyFinish (h : s.Good) {sb : Bool} {rd : Reg} {result : Word}
    (hn : multiplyFinish sb rd result s = .next t) : t.Good := by
  have hrd := h.setReg rd result
  rcases multiplyFinish_next hn with ⟨_, rfl⟩ | ⟨_, rfl⟩
  · exact hrd.advance
  · exact (hrd.update _ hrd.pcAligned _ _ _ _).advance

theorem State.Good.transferLoad (h : s.Good) {access : State → Word → Except Stop Word} {ix : Indexing} {up : Bool}
    {rn rd : Reg} {off : Offset} (hn : transferLoad access ix up rn rd off s = .next t) : t.Good := by
  obtain ⟨data, _, hw⟩ := transferLoad_next hn
  exact (h.writeBack ix rn _).writeRd hw

/-- A store leads to a good state when its access does. -/
theorem State.Good.transferStore {access : State → Word → Word → Except Stop State} {ix : Indexing} {up : Bool}
    {rn rd : Reg} {off : Offset} (ha : ∀ a v u, access s a v = .ok u → u.Good)
    (hn : transferStore access ix up rn rd off s = .next t) : t.Good := by
  obtain ⟨u, hu, rfl⟩ := transferStore_next hn
  exact ((ha _ _ u hu).writeBack ix rn _).advance

theorem State.Good.accessStr (h : s.Good) (a v : Word) (u : State) (hu : accessStr s a v = .ok u) : u.Good := by
  obtain ⟨_, hvalid, rfl⟩ := State.storeWord_ok.1 hu
  exact (h.putWord v hvalid).markDirty a

theorem State.Good.accessStrb (h : s.Good) (a v : Word) (u : State) (hu : accessStrb s a v = .ok u) : u.Good := by
  obtain ⟨hvalid, rfl⟩ := State.storeByte_ok.1 hu
  exact (h.putByte _ hvalid).markDirty a

/-- SWI 1 consumes a character that there is. -/
theorem State.Good.getChar (h : s.Good) {ch : Byte} (hch : s.input[s.inpos]? = some ch) (v : Word) (draws : Nat) :
    State.Good { s.setReg r0 v with inpos := s.inpos + 1, draws := draws } := by
  obtain ⟨hlt, _⟩ := List.getElem?_eq_some_iff.1 hch
  exact { h.setReg r0 v with inputConsumed := by simpa using hlt }

theorem State.Good.swiService (h : s.Good) {imm24 : BitVec 24} (hn : swiService imm24 s = .next t) : t.Good := by
  rcases swiService_next hn with ⟨_, rfl⟩ | ⟨_, _, rfl⟩ | ⟨_, ch, hch, rfl⟩ | ⟨_, rfl⟩ | ⟨_, _, rfl⟩ | ⟨_, str, _, rfl⟩ |
    ⟨_, rfl⟩
  · exact (h.print _).advance
  · exact h
  · exact (h.getChar hch _ _).advance
  · exact h.update _ h.pcAligned _ _ _ _
  · exact h
  · exact (h.print str).advance
  · exact (h.print _).advance

/-! Every instruction and every step. -/

theorem State.Good.shapeEffect (h : s.Good) {x : Shape} (hn : shapeEffect s x = .next t) : t.Good := by
  cases x with
  | write op c sb rn rd o2 => exact h.dpFinish hn
  | move op c sb rd o2 => exact h.dpFinish hn
  | test op c rn o2 =>
    obtain ⟨f, rfl⟩ := dpTest_next hn
    exact (h.setFlagsIf true f).advance
  | mul c sb rd rs rm => exact h.multiplyFinish hn
  | mla c sb rd rn rs rm => exact h.multiplyFinish hn
  | transfer op c ix up rn rd off =>
    cases op with
    | ldr => exact h.transferLoad hn
    | ldrb => exact h.transferLoad hn
    | str => exact State.Good.transferStore h.accessStr hn
    | strb => exact State.Good.transferStore h.accessStrb hn
  | branch op c off =>
    have htarget := branchTarget_aligned off h.pcAligned
    cases op with
    | b => obtain rfl := branchTo_next hn; exact h.moveTo htarget
    | bl => obtain rfl := branchTo_next hn; exact (h.setReg linkReg _).moveTo htarget
  | swi c imm24 => exact h.swiService hn

theorem State.Good.exec (h : s.Good) {i : Instr} (hn : exec i s = .next t) : t.Good := by
  obtain ⟨_, ⟨_, rfl⟩ | ⟨_, he⟩⟩ := exec_next hn
  · exact h.advance
  · exact h.shapeEffect he

theorem State.Good.step (h : s.Good) (hn : step s = .next t) : t.Good := by
  rcases step_next hn with ⟨_, rfl⟩ | ⟨_, w, i, _, _, he⟩
  · exact h
  · exact h.exec he

end

/-- Settles O59: each operation on the state, each template and so each instruction keeps a state good. -/
theorem stepKeepsTheStateGood : Obligations.StepKeepsTheStateGood :=
  fun _ _ h hn => h.step hn

end Sys2Proof.Machine

/-! ### What an instruction leaves of the flags (R16, R114, R213) -/

namespace Sys2Proof.Machine

section

variable {s t : State}

/-- A write-back leaves the flags. -/
@[simp] theorem writeBack_flags (u : State) (ix : Indexing) (rn : Reg) (v : Word) :
    (writeBack u ix rn v).flags = u.flags := by
  rw [writeBack_frame]

theorem State.writeRd_flags {rd : Reg} {v : Word} (h : s.writeRd rd v = .next t) : t.flags = s.flags := by
  rcases State.writeRd_next h with ⟨_, rfl⟩ | ⟨_, _, rfl⟩
  · simp
  · rfl

theorem multiplyFinish_flags {rd : Reg} {result : Word} (h : multiplyFinish false rd result s = .next t) :
    t.flags = s.flags := by
  rcases multiplyFinish_next h with ⟨_, rfl⟩ | ⟨hsb, _⟩
  · simp
  · cases hsb

theorem transferLoad_flags {access : State → Word → Except Stop Word} {ix : Indexing} {up : Bool} {rn rd : Reg}
    {off : Offset} (h : transferLoad access ix up rn rd off s = .next t) : t.flags = s.flags := by
  obtain ⟨data, _, hw⟩ := transferLoad_next h
  rw [State.writeRd_flags hw, writeBack_flags]

theorem transferStore_flags {access : State → Word → Word → Except Stop State} {ix : Indexing} {up : Bool}
    {rn rd : Reg} {off : Offset} (ha : StoreFrame access) (h : transferStore access ix up rn rd off s = .next t) :
    t.flags = s.flags := by
  obtain ⟨u, hu, rfl⟩ := transferStore_next h
  rw [State.advance_flags, writeBack_flags, ha _ _ _ _ hu]

theorem swiService_flags {imm24 : BitVec 24} (h : swiService imm24 s = .next t) : t.flags = s.flags := by
  rcases swiService_next h with ⟨_, rfl⟩ | ⟨_, _, rfl⟩ | ⟨_, ch, _, rfl⟩ | ⟨_, rfl⟩ | ⟨_, _, rfl⟩ | ⟨_, str, _, rfl⟩ |
    ⟨_, rfl⟩ <;> simp

theorem shapeEffect_flags {i : Instr} (h : shapeEffect s i.shape = .next t) (hs : i.setsFlags = false) :
    t.flags = s.flags := by
  unfold Instr.setsFlags at hs
  generalize i.shape = x at h hs
  cases x with
  | write op c sb rn rd o2 => obtain rfl : sb = false := hs; exact State.writeRd_flags h
  | move op c sb rd o2 => obtain rfl : sb = false := hs; exact State.writeRd_flags h
  | test op c rn o2 => cases hs
  | mul c sb rd rs rm => obtain rfl : sb = false := hs; exact multiplyFinish_flags h
  | mla c sb rd rn rs rm => obtain rfl : sb = false := hs; exact multiplyFinish_flags h
  | transfer op c ix up rn rd off =>
    cases op with
    | ldr => exact transferLoad_flags h
    | ldrb => exact transferLoad_flags h
    | str => exact transferStore_flags accessStr_frame h
    | strb => exact transferStore_flags accessStrb_frame h
  | branch op c off =>
    cases op with
    | b => obtain rfl := branchTo_next h; rfl
    | bl => obtain rfl := branchTo_next h; exact State.setReg_flags ..
  | swi c imm24 => exact swiService_flags h

end

/-- Settles O54: by the family of the instruction. -/
theorem flagsChangeOnlyWithTheSBit : Obligations.FlagsChangeOnlyWithTheSBit := by
  intro i s t h hs
  obtain ⟨_, ⟨_, rfl⟩ | ⟨_, he⟩⟩ := exec_next h
  · rfl
  · exact shapeEffect_flags he hs

end Sys2Proof.Machine

/-! ### What an instruction leaves of the registers (R12, R113, R152, R161, R185) -/

namespace Sys2Proof.Machine

section

variable {s t : State} {r : Reg}

/-- A write-back leaves every register but the base that it writes. -/
theorem writeBack_reg_of_notMem {ix : Indexing} {rn : Reg} (u : State) (v : Word) (h : r ∉ ix.writtenBase rn) :
    (writeBack u ix rn v).reg r = u.reg r := by
  refine writeBack_reg_ne u ix rn r v fun hb => ?_
  simpa [Indexing.writtenBase, hb] using h

theorem State.writeRd_reg_ne {rd : Reg} {v : Word} (h : s.writeRd rd v = .next t) (hr : r ≠ pcReg) (hrd : r ≠ rd) :
    t.reg r = s.reg r := by
  rcases State.writeRd_next h with ⟨_, rfl⟩ | ⟨_, _, rfl⟩
  · rw [State.reg_advance _ r hr, State.reg_setReg_ne _ _ _ _ hrd]
  · exact State.reg_eq_of_regs hr rfl

theorem dpFinish_reg_ne {sb : Bool} {rd : Reg} {o : AluOut} (h : dpFinish sb rd o s = .next t) (hr : r ≠ pcReg)
    (hrd : r ≠ rd) : t.reg r = s.reg r := by
  rw [State.writeRd_reg_ne h hr hrd, State.reg_setFlagsIf]

theorem multiplyFinish_reg_ne {sb : Bool} {rd : Reg} {result : Word} (h : multiplyFinish sb rd result s = .next t)
    (hr : r ≠ pcReg) (hrd : r ≠ rd) : t.reg r = s.reg r := by
  rw [← State.reg_setReg_ne s rd r result hrd]
  rcases multiplyFinish_next h with ⟨_, rfl⟩ | ⟨_, rfl⟩
  · exact State.reg_advance _ r hr
  · exact State.reg_eq_of_regs hr rfl

theorem transferLoad_reg_ne {access : State → Word → Except Stop Word} {ix : Indexing} {up : Bool} {rn rd : Reg}
    {off : Offset} (h : transferLoad access ix up rn rd off s = .next t) (hr : r ≠ pcReg)
    (hn : r ∉ rd :: ix.writtenBase rn) : t.reg r = s.reg r := by
  rw [List.mem_cons, not_or] at hn
  obtain ⟨hrd, hrn⟩ := hn
  obtain ⟨data, _, hw⟩ := transferLoad_next h
  rw [State.writeRd_reg_ne hw hr hrd, writeBack_reg_of_notMem _ _ hrn]

theorem transferStore_reg_ne {access : State → Word → Word → Except Stop State} {ix : Indexing} {up : Bool}
    {rn rd : Reg} {off : Offset} (ha : StoreFrame access) (h : transferStore access ix up rn rd off s = .next t)
    (hr : r ≠ pcReg) (hrn : r ∉ ix.writtenBase rn) : t.reg r = s.reg r := by
  obtain ⟨u, hu, rfl⟩ := transferStore_next h
  rw [State.reg_advance _ r hr, writeBack_reg_of_notMem _ _ hrn, ha _ _ _ _ hu]
  exact State.reg_eq_of_regs hr rfl

/-- Only SWI 1 writes a register, R0. -/
theorem swiService_reg_ne {imm24 : BitVec 24} (h : swiService imm24 s = .next t) (hr : r ≠ pcReg)
    (hr0 : imm24 = 1#24 → r ≠ r0) : t.reg r = s.reg r := by
  rcases swiService_next h with ⟨_, rfl⟩ | ⟨_, _, rfl⟩ | ⟨h1, ch, _, rfl⟩ | ⟨_, rfl⟩ | ⟨_, _, rfl⟩ | ⟨_, str, _, rfl⟩ |
    ⟨_, rfl⟩
  · exact State.reg_advance _ r hr
  · rfl
  · rw [← State.reg_setReg_ne s r0 r _ (hr0 (BitVec.eq_of_toNat_eq h1))]
    exact State.reg_eq_of_regs hr rfl
  · rfl
  · rfl
  · exact State.reg_advance _ r hr
  · exact State.reg_advance _ r hr

theorem shapeEffect_reg_ne {i : Instr} (h : shapeEffect s i.shape = .next t) (hr : r ≠ pcReg)
    (hn : r ∉ i.writesRegs) : t.reg r = s.reg r := by
  unfold Instr.writesRegs at hn
  generalize i.shape = x at h hn
  cases x with
  | write op c sb rn rd o2 => exact dpFinish_reg_ne h hr (List.ne_of_not_mem_cons hn)
  | move op c sb rd o2 => exact dpFinish_reg_ne h hr (List.ne_of_not_mem_cons hn)
  | test op c rn o2 =>
    obtain ⟨f, rfl⟩ := dpTest_next h
    exact State.reg_advance _ r hr
  | mul c sb rd rs rm => exact multiplyFinish_reg_ne h hr (List.ne_of_not_mem_cons hn)
  | mla c sb rd rn rs rm => exact multiplyFinish_reg_ne h hr (List.ne_of_not_mem_cons hn)
  | transfer op c ix up rn rd off =>
    cases op with
    | ldr => exact transferLoad_reg_ne h hr hn
    | ldrb => exact transferLoad_reg_ne h hr hn
    | str => exact transferStore_reg_ne accessStr_frame h hr hn
    | strb => exact transferStore_reg_ne accessStrb_frame h hr hn
  | branch op c off =>
    cases op with
    | b => obtain rfl := branchTo_next h; exact State.reg_eq_of_regs hr rfl
    | bl =>
      obtain rfl := branchTo_next h
      rw [← State.reg_setReg_ne s linkReg r (s.pc + 4#32) (List.ne_of_not_mem_cons hn)]
      exact State.reg_eq_of_regs hr rfl
  | swi c imm24 => exact swiService_reg_ne h hr fun h1 => by simpa [h1] using hn

end

/-- Settles O55: by the family of the instruction. -/
theorem registersChangeOnlyWhereNamed : Obligations.RegistersChangeOnlyWhereNamed := by
  intro i s t r h hr hn
  obtain ⟨_, ⟨_, rfl⟩ | ⟨_, he⟩⟩ := exec_next h
  · exact State.reg_advance s r hr
  · exact shapeEffect_reg_ne he hr hn

end Sys2Proof.Machine

/-! ### The results of data processing, jumps, and reads of R15 (R13, R14, R109, R112) -/

namespace Sys2Proof.Machine

/-- The result of `AddWithCarry` is the sum of the operands and the carry. -/
theorem addWithCarry_result (a b : Word) (cin : Bool) : (addWithCarry a b cin).result = a + b + carryWord cin := by
  apply BitVec.eq_of_toNat_eq
  cases cin <;> simp [addWithCarry, carryWord]

/-- `AddWithCarry` does not mind the order of its operands. -/
theorem addWithCarry_comm (a b : Word) (cin : Bool) : addWithCarry a b cin = addWithCarry b a cin := by
  simp only [addWithCarry, Nat.add_comm a.toNat, Int.add_comm a.toInt]

/-- Adding the complement with a carry gives the difference, less one when the carry is 0. -/
theorem addWithCarry_complement_result_carry (a b : Word) (cin : Bool) :
    (addWithCarry a (~~~b) cin).result = a - b + carryWord cin - 1#32 := by
  rw [addWithCarry_result]
  bv_omega

/-- The result of an operation's line (*) is what the Effect column gives Rd (R112). -/
theorem writeAlu_result (op : WriteOp) (a b : Word) (sc : Bool) (f : Flags) :
    (writeAlu op a b sc f).result = op.effect a b f.c := by
  cases op with
  | and => rfl
  | eor => rfl
  | sub => exact addWithCarry_complement_result a b
  | rsb => exact (congrArg AluOut.result (addWithCarry_comm (~~~a) b true)).trans (addWithCarry_complement_result b a)
  | add => exact (addWithCarry_result a b false).trans (BitVec.add_zero (a + b))
  | adc => exact addWithCarry_result a b f.c
  | sbc => exact addWithCarry_complement_result_carry a b f.c
  | rsc =>
    exact (congrArg AluOut.result (addWithCarry_comm (~~~a) b f.c)).trans (addWithCarry_complement_result_carry b a f.c)
  | orr => rfl
  | bic => rfl

theorem moveAlu_result (op : MoveOp) (b : Word) (sc : Bool) (f : Flags) :
    (moveAlu op b sc f).result = op.effect b := by
  cases op with
  | mov => rfl
  | mvn => rfl

/-- An instruction of the template R113 that writes R15 without S jumps to its result. -/
theorem dpFinish_jump (o : AluOut) (s : State) : dpFinish false pcReg o s = s.jump o.result := rfl

/-- Settles O29: with Rd = 15 the template ends in `State.jump` to the result. -/
theorem dataProcessingJumps : Obligations.DataProcessingJumps := by
  constructor
  · intro op c rn o2 s r hw hc hr
    rw [exec_instr_passed hw hc, hr, ← writeAlu_result]
    exact dpFinish_jump _ s
  · intro op c o2 s r hw hc hr
    rw [exec_instr_passed hw hc, hr, ← moveAlu_result]
    exact dpFinish_jump _ s

/-- Settles O30: the sum is that of `writeAlu_result`, with the pc plus 8 for Rn. -/
theorem pcReadsEightAhead : Obligations.PcReadsEightAhead := by
  intro s
  have hread : s.reg 15 = s.pc + 8#32 := State.reg_pc s
  refine ⟨by rw [hread]; exact BitVec.toNat_add .., ?_⟩
  have hsum : (writeAlu .add (s.reg 15) 4#32 s.flags.c s.flags).result = s.pc + 12#32 := by
    rw [writeAlu_result, hread]
    exact BitVec.add_assoc ..
  rw [← hsum]
  rfl

end Sys2Proof.Machine

/-! ### What an instruction leaves of memory and of the set of modified words (R36, R39) -/

namespace Sys2Proof.Machine

/-- From `s` to `t` neither the listing of memory nor the set of modified words changes. -/
structure State.SameMemory (s t : State) : Prop where
  mem : t.mem = s.mem
  dirty : t.dirty = s.dirty

section

variable {s t u : State}

theorem State.SameMemory.trans (h : s.SameMemory t) (hu : t.SameMemory u) : s.SameMemory u :=
  ⟨hu.mem.trans h.mem, hu.dirty.trans h.dirty⟩

theorem State.writeRd_sameMemory {rd : Reg} {v : Word} (h : s.writeRd rd v = .next t) : s.SameMemory t := by
  rcases State.writeRd_next h with ⟨_, rfl⟩ | ⟨_, _, rfl⟩
  · exact ⟨State.setReg_mem .., State.setReg_dirty ..⟩
  · exact ⟨rfl, rfl⟩

theorem dpFinish_sameMemory {sb : Bool} {rd : Reg} {o : AluOut} (h : dpFinish sb rd o s = .next t) : s.SameMemory t :=
  State.SameMemory.trans ⟨State.setFlagsIf_mem .., State.setFlagsIf_dirty ..⟩ (State.writeRd_sameMemory h)

theorem multiplyFinish_sameMemory {sb : Bool} {rd : Reg} {result : Word} (h : multiplyFinish sb rd result s = .next t) :
    s.SameMemory t := by
  rcases multiplyFinish_next h with ⟨_, rfl⟩ | ⟨_, rfl⟩ <;> exact ⟨State.setReg_mem .., State.setReg_dirty ..⟩

/-- A load writes registers and the pc alone. -/
theorem transferLoad_sameMemory {access : State → Word → Except Stop Word} {ix : Indexing} {up : Bool} {rn rd : Reg}
    {off : Offset} (h : transferLoad access ix up rn rd off s = .next t) : s.SameMemory t := by
  obtain ⟨data, _, hw⟩ := transferLoad_next h
  exact State.SameMemory.trans ⟨writeBack_mem .., writeBack_dirty ..⟩ (State.writeRd_sameMemory hw)

/-- The services of SWI read memory and never write it (R161). -/
theorem swiService_sameMemory {imm24 : BitVec 24} (h : swiService imm24 s = .next t) : s.SameMemory t := by
  rcases swiService_next h with ⟨_, rfl⟩ | ⟨_, _, rfl⟩ | ⟨_, ch, _, rfl⟩ | ⟨_, rfl⟩ | ⟨_, _, rfl⟩ | ⟨_, str, _, rfl⟩ |
    ⟨_, rfl⟩ <;> exact ⟨by simp, by simp⟩

theorem shapeEffect_sameMemory {i : Instr} (h : shapeEffect s i.shape = .next t) (hs : i.stores = false) :
    s.SameMemory t := by
  unfold Instr.stores at hs
  generalize i.shape = x at h hs
  cases x with
  | write op c sb rn rd o2 => exact dpFinish_sameMemory h
  | move op c sb rd o2 => exact dpFinish_sameMemory h
  | test op c rn o2 => obtain ⟨f, rfl⟩ := dpTest_next h; exact ⟨rfl, rfl⟩
  | mul c sb rd rs rm => exact multiplyFinish_sameMemory h
  | mla c sb rd rn rs rm => exact multiplyFinish_sameMemory h
  | transfer op c ix up rn rd off =>
    cases op with
    | ldr => exact transferLoad_sameMemory h
    | ldrb => exact transferLoad_sameMemory h
    | str => cases hs
    | strb => cases hs
  | branch op c off =>
    cases op with
    | b => obtain rfl := branchTo_next h; exact ⟨rfl, rfl⟩
    | bl => obtain rfl := branchTo_next h; exact ⟨State.setReg_mem .., State.setReg_dirty ..⟩
  | swi c imm24 => exact swiService_sameMemory h

theorem exec_sameMemory {i : Instr} (h : exec i s = .next t) (hs : i.stores = false) : s.SameMemory t := by
  obtain ⟨_, ⟨_, rfl⟩ | ⟨_, he⟩⟩ := exec_next h
  · exact ⟨rfl, rfl⟩
  · exact shapeEffect_sameMemory he hs

end

/-- Settles O56: by the family of the instruction, the listing of memory stays, and a byte read depends on it alone. -/
theorem memoryChangesOnlyByStores : Obligations.MemoryChangesOnlyByStores := by
  intro i s t h hs
  have hsame := exec_sameMemory h hs
  exact ⟨State.readByte_congr s hsame.mem, hsame.dirty⟩

end Sys2Proof.Machine

/-! ### A run executes no word that it has modified (R39, R40) -/

namespace Sys2Proof.Machine

/-- From `s` to `t` no mark is taken away, and every word that is not marked at the end reads as it did. -/
structure State.KeepsUnmarked (s t : State) : Prop where
  dirty : s.dirty ⊆ t.dirty
  unmarked : ∀ q : Word, q.toNat % 4 = 0 → q.toNat ∉ t.dirty → t.readWord q = s.readWord q

/-- The word address of a multiple of 4 is that address. -/
theorem wordAddress_of_aligned {a : Word} (h : a.toNat % 4 = 0) : wordAddress a = a.toNat := by
  rw [wordAddress, h, Nat.sub_zero]

section

variable {s t u : State}

theorem State.KeepsUnmarked.refl (s : State) : s.KeepsUnmarked s := ⟨List.Subset.refl _, fun _ _ _ => rfl⟩

/-- Marks only grow, so a word unmarked at the end was unmarked in between. -/
theorem State.KeepsUnmarked.trans (h : s.KeepsUnmarked t) (hu : t.KeepsUnmarked u) : s.KeepsUnmarked u where
  dirty := List.Subset.trans h.dirty hu.dirty
  unmarked q hq hd := (hu.unmarked q hq hd).trans (h.unmarked q hq fun hm => hd (hu.dirty hm))

theorem State.SameMemory.keepsUnmarked (h : s.SameMemory t) : s.KeepsUnmarked t :=
  ⟨h.dirty.symm ▸ List.Subset.refl _, fun q _ _ => State.readWord_congr s h.mem q⟩

/-- A write that leaves every word but the one of its address, followed by the mark of that word. -/
theorem State.KeepsUnmarked.markDirty {a : Word} (hd : t.dirty = s.dirty)
    (hw : ∀ q : Word, q.toNat % 4 = 0 → q.toNat ≠ wordAddress a → t.readWord q = s.readWord q) :
    s.KeepsUnmarked (t.markDirty a) where
  dirty q hq := (mem_insertAddress _ _ q).2 (.inr (hd ▸ hq))
  unmarked q hq hn := hw q hq fun e => hn ((mem_insertAddress _ _ _).2 (.inl e))

theorem accessStr_keepsUnmarked (a v : Word) (u : State) (h : accessStr s a v = .ok u) : s.KeepsUnmarked u := by
  obtain ⟨ha, _, rfl⟩ := State.storeWord_ok.1 h
  refine State.KeepsUnmarked.markDirty rfl fun q hq hne => State.readWord_putWord_ne s a q v hq ha fun e => hne ?_
  rw [e, wordAddress_of_aligned ha]

theorem accessStrb_keepsUnmarked (a v : Word) (u : State) (h : accessStrb s a v = .ok u) : s.KeepsUnmarked u := by
  obtain ⟨_, rfl⟩ := State.storeByte_ok.1 h
  exact State.KeepsUnmarked.markDirty rfl fun q hq hne => State.readWord_putByte_ne s a q _ hq hne

/-- A store keeps the unmarked words when its access does. -/
theorem transferStore_keepsUnmarked {access : State → Word → Word → Except Stop State} {ix : Indexing} {up : Bool}
    {rn rd : Reg} {off : Offset} (ha : ∀ a v u, access s a v = .ok u → s.KeepsUnmarked u)
    (h : transferStore access ix up rn rd off s = .next t) : s.KeepsUnmarked t := by
  obtain ⟨u, hu, rfl⟩ := transferStore_next h
  have hback : u.SameMemory (writeBack u ix rn (indexedAddress s up rn off)).advance :=
    ⟨writeBack_mem .., writeBack_dirty ..⟩
  exact (ha _ _ u hu).trans hback.keepsUnmarked

/-- An instruction that stores is STR or STRB. -/
theorem Instr.shape_of_stores {i : Instr} (h : i.stores = true) :
    ∃ op c ix up rn rd off, (op = .str ∨ op = .strb) ∧ i.shape = .transfer op c ix up rn rd off := by
  unfold Instr.stores at h
  generalize i.shape = x at h ⊢
  cases x with
  | transfer op c ix up rn rd off =>
    cases op with
    | ldr => cases h
    | ldrb => cases h
    | str => exact ⟨_, _, _, _, _, _, _, .inl rfl, rfl⟩
    | strb => exact ⟨_, _, _, _, _, _, _, .inr rfl, rfl⟩
  | _ => cases h

theorem exec_keepsUnmarked {i : Instr} (h : exec i s = .next t) : s.KeepsUnmarked t := by
  cases hs : i.stores with
  | false => exact (exec_sameMemory h hs).keepsUnmarked
  | true =>
    obtain ⟨op, c, ix, up, rn, rd, off, hop, hshape⟩ := Instr.shape_of_stores hs
    obtain ⟨_, ⟨_, rfl⟩ | ⟨_, he⟩⟩ := exec_next h
    · exact State.SameMemory.keepsUnmarked ⟨rfl, rfl⟩
    · rw [hshape] at he
      rcases hop with rfl | rfl
      · exact transferStore_keepsUnmarked accessStr_keepsUnmarked he
      · exact transferStore_keepsUnmarked accessStrb_keepsUnmarked he

theorem step_keepsUnmarked (h : step s = .next t) : s.KeepsUnmarked t := by
  rcases step_next h with ⟨_, rfl⟩ | ⟨_, w, i, _, _, he⟩
  · exact State.KeepsUnmarked.refl _
  · exact exec_keepsUnmarked he

theorem Reaches.keepsUnmarked (h : Reaches s t) : s.KeepsUnmarked t := by
  induction h with
  | refl => exact State.KeepsUnmarked.refl s
  | tail _ hstep ih => exact ih.trans (step_keepsUnmarked hstep)

end

/-- Settles O60: a fetch that answers reads a word that is not marked, and a run keeps those. -/
theorem runsExecuteUnmodifiedWords : Obligations.RunsExecuteUnmodifiedWords := by
  intro s t w _ hrun hfetch
  obtain ⟨hpc, hclean, _, rfl⟩ := fetch_ok.1 hfetch
  rw [wordAddress_of_aligned hpc] at hclean
  exact hrun.keepsUnmarked.unmarked t.pc hpc hclean

end Sys2Proof.Machine

/-! ### The checks of the fetch (R45) -/

namespace Sys2Proof.Machine

section

variable {s : State}

/-- The fetch of a word that was stored to is refused, valid or not (R40). -/
theorem fetch_of_modified (hpc : s.pc.toNat % 4 = 0) (hd : s.pc.toNat ∈ s.dirty) :
    fetch s = .error (.refusal (.fetchOfModifiedWord s.pc)) := by
  have hmarked : s.dirty.contains (wordAddress s.pc) = true := by
    rw [wordAddress_of_aligned hpc]
    exact List.contains_iff_mem.2 hd
  rw [fetch, if_pos hpc, if_pos hmarked]

/-- The fetch of an unmodified word with a byte outside MEM_VALID faults with the pc. -/
theorem fetch_of_absent (hpc : s.pc.toNat % 4 = 0) (hd : s.pc.toNat ∉ s.dirty) (hv : s.firstInvalid 4 s.pc ≠ none) :
    fetch s = .error (.fault (.memFault s.pc .fetch s.pc)) := by
  have hclean : ¬ s.dirty.contains (wordAddress s.pc) = true := by
    rw [wordAddress_of_aligned hpc]
    exact fun hm => hd (List.contains_iff_mem.1 hm)
  obtain ⟨b, hb⟩ := Option.ne_none_iff_exists'.1 hv
  simp only [fetch, if_pos hpc, if_neg hclean, hb]

/-- A step whose fetch does not complete answers as the fetch does. -/
theorem step_of_fetch_error {e : Stop} (hh : s.halted = false) (h : fetch s = .error e) : step s = e.outcome := by
  simp [step, hh, h]

end

/-- Settles O15: `fetch_of_modified`, `fetch_of_absent` and `fetch_ok`, one for each outcome of the two checks. -/
theorem fetchChecksInOrder : Obligations.FetchChecksInOrder := by
  intro s hh hpc
  refine ⟨fun hd => step_of_fetch_error hh (fetch_of_modified hpc hd), fun hd hinvalid => ?_, fun hd hvalid => ?_⟩
  · refine step_of_fetch_error hh (fetch_of_absent hpc hd fun hnone => ?_)
    obtain ⟨h0, h1, h2, h3⟩ := (State.firstInvalid_four s s.pc).1 hnone
    simp [h0, h1, h2, h3] at hinvalid
  · exact fetch_ok.2 ⟨hpc, wordAddress_of_aligned hpc ▸ hd, (State.firstInvalid_four s s.pc).2 hvalid, rfl⟩

end Sys2Proof.Machine

/-! ### Loads and stores that do not complete (R32, R38, R189, R223) -/

namespace Sys2Proof.Machine

section

variable {s : State}

/-- A load whose access does not complete answers as the access does. -/
theorem transferLoad_of_error {access : State → Word → Except Stop Word} {ix : Indexing} {up : Bool} {rn rd : Reg}
    {off : Offset} {e : Stop} (h : access s (accessAddress s ix up rn off) = .error e) :
    transferLoad access ix up rn rd off s = e.outcome := by
  simp only [transferLoad, h]

/-- A store whose access does not complete answers as the access does. -/
theorem transferStore_of_error {access : State → Word → Word → Except Stop State} {ix : Indexing} {up : Bool}
    {rn rd : Reg} {off : Offset} {e : Stop} (h : access s (accessAddress s ix up rn off) (s.reg rd) = .error e) :
    transferStore access ix up rn rd off s = e.outcome := by
  simp only [transferStore, h]

variable {a : Word} {k : Nat} (hv : ∀ j, j < k → s.isValid (a + BitVec.ofNat 32 j) = true)
  (hi : s.isValid (a + BitVec.ofNat 32 k) = false)

include hv hi

/-- An access faults with its first absent address. -/
theorem State.accessFault_at {n : Nat} (hk : k < n) (kind : AccessKind) :
    s.accessFault a n kind = some (.memFault (a + BitVec.ofNat 32 k) kind s.pc) := by
  rw [State.accessFault, State.firstInvalid_at s n k a hk hv hi, Option.map_some]

theorem accessLdr_absent (hk : k < 4) (ha : a.toNat % 4 = 0) :
    accessLdr s a = .error (.fault (.memFault (a + BitVec.ofNat 32 k) .load s.pc)) := by
  simp only [accessLdr, State.loadWord, if_pos ha, State.loadAligned, State.accessFault_at hv hi hk]

theorem accessLdrb_absent (hk : k < 1) :
    accessLdrb s a = .error (.fault (.memFault (a + BitVec.ofNat 32 k) .load s.pc)) := by
  simp only [accessLdrb, State.loadByte, State.accessFault_at hv hi hk]

theorem accessStr_absent (hk : k < 4) (ha : a.toNat % 4 = 0) (v : Word) :
    accessStr s a v = .error (.fault (.memFault (a + BitVec.ofNat 32 k) .store s.pc)) := by
  simp only [accessStr, State.storeWord, if_pos ha, State.storeAligned, State.accessFault_at hv hi hk]

theorem accessStrb_absent (hk : k < 1) (v : Word) :
    accessStrb s a v = .error (.fault (.memFault (a + BitVec.ofNat 32 k) .store s.pc)) := by
  simp only [accessStrb, State.storeByte, State.accessFault_at hv hi hk]

end

/-- Settles O39: the word access is refused, and the template R185 makes every check before any write. -/
theorem misalignedWordAccessesAreRefused : Obligations.MisalignedWordAccessesAreRefused := by
  intro op c ix up rn rd off s a hop hw hc ha hmis
  subst ha
  obtain ⟨hload, hstore⟩ := State.misaligned_refused (s := s) hmis (s.reg rd)
  rw [exec_instr_passed hw hc]
  rcases hop with rfl | rfl
  · exact transferLoad_of_error hload
  · exact transferStore_of_error hstore

/-- Settles O40: the access faults with its first absent address, and the template R185 makes every check before any
write. -/
theorem absentMemoryFaults : Obligations.AbsentMemoryFaults := by
  intro op c ix up rn rd off s a k hw hc ha hv hi
  subst ha
  rw [exec_instr_passed hw hc]
  constructor
  · rintro (⟨rfl, hk, hal⟩ | ⟨rfl, hk⟩)
    · exact transferLoad_of_error (accessLdr_absent hv hi hk hal)
    · exact transferLoad_of_error (accessLdrb_absent hv hi (Nat.lt_one_iff.2 hk))
  · rintro (⟨rfl, hk, hal⟩ | ⟨rfl, hk⟩)
    · exact transferStore_of_error (accessStr_absent hv hi hk hal _)
    · exact transferStore_of_error (accessStrb_absent hv hi (Nat.lt_one_iff.2 hk) _)

end Sys2Proof.Machine

/-! ### Words in memory (R31, R33) -/

namespace Sys2Proof.Machine

/-- The value of the word of four bytes. -/
theorem wordOfBytes_toNat (b0 b1 b2 b3 : Byte) :
    (wordOfBytes b0 b1 b2 b3).toNat = b0.toNat + 2 ^ 8 * b1.toNat + 2 ^ 16 * b2.toNat + 2 ^ 24 * b3.toNat := by
  have h0 := b0.isLt
  have h1 := b1.isLt
  have h2 := b2.isLt
  have h3 := b3.isLt
  rw [wordOfBytes, BitVec.toNat_ofNat]
  omega

/-- The four bytes of a word put into memory, at the four addresses from its own on. -/
theorem State.readByte_putWord_bytes (s : State) (a w : Word) :
    (s.putWord a w).readByte a = byteOfWord w 0 ∧ (s.putWord a w).readByte (a + 1#32) = byteOfWord w 1 ∧
      (s.putWord a w).readByte (a + 2#32) = byteOfWord w 2 ∧ (s.putWord a w).readByte (a + 3#32) = byteOfWord w 3 := by
  simp [State.readByte_putWord]

/-- Settles O41: reads after `State.putWord`, and the value of the four bytes of a word. -/
theorem wordsAreLittleEndian : Obligations.WordsAreLittleEndian := by
  intro s a w
  obtain ⟨h0, h1, h2, h3⟩ := s.readByte_putWord_bytes a w
  exact ⟨h0, h1, h2, h3, s.readWord_putWord_same a w, wordOfBytes_toNat .., s.readByte_putWord_ne a w⟩

end Sys2Proof.Machine

/-! ### The words of the encoder: fields read and fields packed (R53 to R60) -/

namespace Sys2Proof

/-! A word and the fields of a row. -/

/-- The word has the fields of a row, which ends at its bit 0, at the places that their widths give. -/
def Reads (w : Word) : List (Nat × Nat) → Prop
  | [] => True
  | f :: post => w.extractLsb' (post.map Prod.fst).sum f.1 = BitVec.ofNat f.1 f.2 ∧ Reads w post

/-- The values of a row fit the widths of their fields. -/
abbrev Fits (fs : List (Nat × Nat)) : Prop := ∀ f ∈ fs, f.2 < 2 ^ f.1

/-- A packed word has the fields it was packed from. -/
theorem reads_pack (pre fs : List (Nat × Nat)) (hf : Fits fs) (hw : (fs.map Prod.fst).sum ≤ 32) :
    Reads (pack (pre ++ fs)) fs := by
  induction fs generalizing pre with
  | nil => trivial
  | cons f post ih =>
    have hpost : Fits post := fun g hg => hf g (List.mem_cons_of_mem _ hg)
    rw [List.map_cons, List.sum_cons] at hw
    refine ⟨extract_field pre f.1 f.2 post hpost hw, ?_⟩
    simpa using ih (pre ++ [f]) hpost (by omega)

/-- Packing the fields of a word below its upper bits gives the word's number. -/
theorem foldl_of_reads {w : Word} (fs : List (Nat × Nat)) (hf : Fits fs) (h : Reads w fs) :
    fs.foldl (fun acc f => acc * 2 ^ f.1 + f.2) (w.toNat / 2 ^ (fs.map Prod.fst).sum) = w.toNat := by
  induction fs with
  | nil => simp
  | cons f post ih =>
    obtain ⟨hfield, hpost⟩ := h
    have hv : (w.extractLsb' (post.map Prod.fst).sum f.1).toNat = f.2 := by
      rw [hfield, BitVec.toNat_ofNat, Nat.mod_eq_of_lt (hf f (List.mem_cons_self ..))]
    have hstep := shift_step w (post.map Prod.fst).sum f.1
    rw [hv, Nat.add_comm _ f.1] at hstep
    rw [List.foldl_cons, List.map_cons, List.sum_cons, hstep]
    exact ih (fun g hg => hf g (List.mem_cons_of_mem _ hg)) hpost

/-- A word is the packing of a row of 32 bits exactly when it has the row's fields. -/
theorem pack_eq_iff_reads {fs : List (Nat × Nat)} {w : Word} (hw : (fs.map Prod.fst).sum = 32) (hf : Fits fs) :
    pack fs = w ↔ Reads w fs := by
  constructor
  · rintro rfl
    exact reads_pack [] fs hf hw.le
  · intro h
    have hn := foldl_of_reads fs hf h
    rw [hw, Nat.div_eq_of_lt w.isLt] at hn
    rw [pack, hn, BitVec.ofNat_toNat, BitVec.setWidth_eq]

/-- A field that fits, put before a row whose values fit. -/
theorem fits_cons {f : Nat × Nat} {fs : List (Nat × Nat)} (hf : f.2 < 2 ^ f.1) (hfs : Fits fs) : Fits (f :: fs) :=
  List.forall_mem_cons.2 ⟨hf, hfs⟩

theorem dpFields_fit (c : Cond) (opcode : BitVec 4) (sb : Bool) (rn rd : Reg) (o2 : Operand2) :
    ((dpFields c opcode sb rn rd o2).map Prod.fst).sum = 32 ∧ Fits (dpFields c opcode sb rn rd o2) := by
  obtain ⟨hsum, hfit⟩ := operand2_fields o2
  exact ⟨by simp [dpFields, hsum], fits_cons c.bits.isLt <| fits_cons (operand2_group o2) <|
    fits_cons opcode.isLt <| fits_cons (bool_fits sb) <| fits_cons rn.isLt <| fits_cons rd.isLt hfit⟩

/-- The row of every instruction has 32 bits, and its values fit. -/
theorem Shape.fields_fit (x : Shape) : (x.fields.map Prod.fst).sum = 32 ∧ Fits x.fields := by
  cases x with
  | write op c sb rn rd o2 => exact dpFields_fit ..
  | move op c sb rd o2 => exact dpFields_fit c op.opcode sb 0 rd o2
  | test op c rn o2 => exact dpFields_fit c op.opcode true rn 0 o2
  | mul c sb rd rs rm =>
    exact ⟨rfl, fits_cons c.bits.isLt <| fits_cons (by decide) <| fits_cons (by decide) <| fits_cons (by decide) <|
      fits_cons (bool_fits sb) <| fits_cons rd.isLt <| fits_cons (by decide) <| fits_cons rs.isLt <|
      fits_cons (by decide) <| fits_cons rm.isLt (List.forall_mem_nil _)⟩
  | mla c sb rd rn rs rm =>
    exact ⟨rfl, fits_cons c.bits.isLt <| fits_cons (by decide) <| fits_cons (by decide) <| fits_cons (by decide) <|
      fits_cons (bool_fits sb) <| fits_cons rd.isLt <| fits_cons rn.isLt <| fits_cons rs.isLt <|
      fits_cons (by decide) <| fits_cons rm.isLt (List.forall_mem_nil _)⟩
  | transfer op c ix up rn rd off =>
    obtain ⟨hsum, hfit⟩ := offset_fields off
    exact ⟨by simp [Shape.fields, hsum], fits_cons c.bits.isLt <| fits_cons (offset_group off) <|
      fits_cons (bool_fits _) <| fits_cons (bool_fits _) <| fits_cons (bool_fits _) <| fits_cons (bool_fits _) <|
      fits_cons (bool_fits _) <| fits_cons rn.isLt <| fits_cons rd.isLt hfit⟩
  | branch op c off =>
    exact ⟨rfl, fits_cons c.bits.isLt <| fits_cons (by decide) <| fits_cons (bool_fits _) <|
      fits_cons off.isLt (List.forall_mem_nil _)⟩
  | swi c imm24 =>
    exact ⟨rfl, fits_cons c.bits.isLt <| fits_cons (by decide) <| fits_cons (by decide) <|
      fits_cons imm24.isLt (List.forall_mem_nil _)⟩

/-- The encoder's word of an instruction is the word that has the fields of its row. -/
theorem encode_eq_iff_reads {i : Instr} {w : Word} : encode i = w ↔ Reads w i.shape.fields :=
  pack_eq_iff_reads i.shape.fields_fit.1 i.shape.fields_fit.2

/-! The fields that an instruction looks at. -/

/-- A field of one bit. -/
@[simp] theorem bitField_eq_iff {w : Word} {i : Nat} {b : Bool} :
    w.extractLsb' i 1 = BitVec.ofNat 1 b.toNat ↔ bitField w i = b := by
  rw [BitVec.eq_of_getLsbD_eq_iff]
  cases b <;> simp [bitField]

@[simp] theorem bitField_eq_false_iff {w : Word} {i : Nat} : w.extractLsb' i 1 = 0#1 ↔ bitField w i = false :=
  bitField_eq_iff (b := false)

@[simp] theorem bitField_eq_true_iff {w : Word} {i : Nat} : w.extractLsb' i 1 = 1#1 ↔ bitField w i = true :=
  bitField_eq_iff (b := true)

/-- A register field. -/
@[simp] theorem regField_eq_iff {w : Word} {lo : Nat} {r : Reg} :
    w.extractLsb' lo 4 = BitVec.ofFin r ↔ regField w lo = r := by
  rw [← BitVec.toNat_inj, Fin.ext_iff]
  rfl

theorem ShiftType.ofBits_eq_iff {b : BitVec 2} {sh : ShiftType} : ShiftType.ofBits b = sh ↔ b = sh.bits := by
  constructor
  · rintro rfl
    rw [ShiftType.bits_ofBits]
  · rintro rfl
    rw [ShiftType.ofBits_bits]

/-- Bits 27:25 and the bits that hold operand 2 are those of `o2` (R53, R54, R55). -/
def Operand2.IsIn (o2 : Operand2) (w : Word) : Prop :=
  w.extractLsb' 25 3 = BitVec.ofNat 3 o2.group ∧ Reads w o2.fields

/-- Bits 27:25 and 11:0 are those of the offset (R57, R58). -/
def Offset.IsIn (off : Offset) (w : Word) : Prop :=
  w.extractLsb' 25 3 = BitVec.ofNat 3 off.group ∧ Reads w off.fields

/-- The fields of a multiply, bits 15:12 apart (R56). -/
def multiplyLayout (w : Word) (accumulate sb : Bool) (rd rs rm : Reg) : Prop :=
  (w.extractLsb' 25 3 = 0b000#3 ∧ w.extractLsb' 4 4 = 0b1001#4 ∧ w.extractLsb' 22 3 = 0b000#3) ∧
    bitField w 21 = accumulate ∧ bitField w 20 = sb ∧ regField w 16 = rd ∧ regField w 8 = rs ∧ regField w 0 = rm

/-- The word's fields are those of the family and operands, the fields apart that the instruction ignores (R64). -/
def Shape.Layout (x : Shape) (w : Word) : Prop :=
  w.extractLsb' 28 4 = x.cond.bits ∧
    match x with
    | .write op _ sb rn rd o2 =>
      w.extractLsb' 21 4 = op.opcode ∧ bitField w 20 = sb ∧ regField w 16 = rn ∧ regField w 12 = rd ∧ o2.IsIn w
    | .move op _ sb rd o2 => w.extractLsb' 21 4 = op.opcode ∧ bitField w 20 = sb ∧ regField w 12 = rd ∧ o2.IsIn w
    | .test op _ rn o2 => w.extractLsb' 21 4 = op.opcode ∧ bitField w 20 = true ∧ regField w 16 = rn ∧ o2.IsIn w
    | .mul _ sb rd rs rm => multiplyLayout w false sb rd rs rm
    | .mla _ sb rd rn rs rm => multiplyLayout w true sb rd rs rm ∧ regField w 12 = rn
    | .transfer op _ ix up rn rd off =>
      (bitField w 24 = ix.pBit ∧ bitField w 21 = ix.wBit) ∧ bitField w 23 = up ∧
        (bitField w 20 = op.lBit ∧ bitField w 22 = op.bBit) ∧ regField w 16 = rn ∧ regField w 12 = rd ∧ off.IsIn w
    | .branch op _ off =>
      w.extractLsb' 25 3 = 0b101#3 ∧ bitField w 24 = op.lBit ∧ w.extractLsb' 0 24 = off
    | .swi _ imm24 => (w.extractLsb' 25 3 = 0b111#3 ∧ bitField w 24 = true) ∧ w.extractLsb' 0 24 = imm24

/-! The rows, field by field (R53 to R60). -/

section

variable {w : Word}

theorem reads_imm {rot : BitVec 4} {imm8 : BitVec 8} :
    Reads w (Operand2.imm rot imm8).fields ↔ w.extractLsb' 8 4 = rot ∧ w.extractLsb' 0 8 = imm8 := by
  simp [Operand2.fields, Reads]

theorem reads_shiftImm {rm : Reg} {sh : ShiftType} {n : BitVec 5} :
    Reads w (Operand2.shiftImm rm sh n).fields ↔
      w.extractLsb' 7 5 = n ∧ w.extractLsb' 5 2 = sh.bits ∧ bitField w 4 = false ∧ regField w 0 = rm := by
  simp [Operand2.fields, Reads]

theorem reads_shiftReg {rm rs : Reg} {sh : ShiftType} :
    Reads w (Operand2.shiftReg rm sh rs).fields ↔ regField w 8 = rs ∧ bitField w 7 = false ∧
      w.extractLsb' 5 2 = sh.bits ∧ bitField w 4 = true ∧ regField w 0 = rm := by
  simp [Operand2.fields, Reads]

theorem reads_offsetImm {imm12 : BitVec 12} :
    Reads w (Offset.imm imm12).fields ↔ w.extractLsb' 0 12 = imm12 := by
  simp [Offset.fields, Reads]

/-- The register form of an offset has the fields of a register shifted by an immediate length. -/
theorem reads_offsetReg {rm : Reg} {sh : ShiftType} {n : BitVec 5} :
    Reads w (Offset.reg rm sh n).fields ↔
      w.extractLsb' 7 5 = n ∧ w.extractLsb' 5 2 = sh.bits ∧ bitField w 4 = false ∧ regField w 0 = rm :=
  reads_shiftImm

theorem reads_dpFields {c : Cond} {opcode : BitVec 4} {sb : Bool} {rn rd : Nat} {o2 : Operand2} :
    Reads w (dpFields c opcode sb rn rd o2) ↔
      w.extractLsb' 28 4 = c.bits ∧ w.extractLsb' 25 3 = BitVec.ofNat 3 o2.group ∧ w.extractLsb' 21 4 = opcode ∧
        bitField w 20 = sb ∧ w.extractLsb' 16 4 = BitVec.ofNat 4 rn ∧ w.extractLsb' 12 4 = BitVec.ofNat 4 rd ∧
        Reads w o2.fields := by
  simp [dpFields, Reads, (operand2_fields o2).1]

theorem reads_mul {c : Cond} {sb : Bool} {rd rs rm : Reg} :
    Reads w (Shape.mul c sb rd rs rm).fields ↔
      w.extractLsb' 28 4 = c.bits ∧ w.extractLsb' 25 3 = 0b000#3 ∧ w.extractLsb' 22 3 = 0b000#3 ∧
        bitField w 21 = false ∧ bitField w 20 = sb ∧ regField w 16 = rd ∧ w.extractLsb' 12 4 = 0b0000#4 ∧
        regField w 8 = rs ∧ w.extractLsb' 4 4 = 0b1001#4 ∧ regField w 0 = rm := by
  simp [Shape.fields, Reads]

theorem reads_mla {c : Cond} {sb : Bool} {rd rn rs rm : Reg} :
    Reads w (Shape.mla c sb rd rn rs rm).fields ↔
      w.extractLsb' 28 4 = c.bits ∧ w.extractLsb' 25 3 = 0b000#3 ∧ w.extractLsb' 22 3 = 0b000#3 ∧
        bitField w 21 = true ∧ bitField w 20 = sb ∧ regField w 16 = rd ∧ regField w 12 = rn ∧
        regField w 8 = rs ∧ w.extractLsb' 4 4 = 0b1001#4 ∧ regField w 0 = rm := by
  simp [Shape.fields, Reads]

theorem reads_transfer {op : TransferOp} {c : Cond} {ix : Indexing} {up : Bool} {rn rd : Reg} {off : Offset} :
    Reads w (Shape.transfer op c ix up rn rd off).fields ↔
      w.extractLsb' 28 4 = c.bits ∧ w.extractLsb' 25 3 = BitVec.ofNat 3 off.group ∧ bitField w 24 = ix.pBit ∧
        bitField w 23 = up ∧ bitField w 22 = op.bBit ∧ bitField w 21 = ix.wBit ∧ bitField w 20 = op.lBit ∧
        regField w 16 = rn ∧ regField w 12 = rd ∧ Reads w off.fields := by
  simp [Shape.fields, Reads, (offset_fields off).1]

theorem reads_branch {op : BranchOp} {c : Cond} {off : BitVec 24} :
    Reads w (Shape.branch op c off).fields ↔
      w.extractLsb' 28 4 = c.bits ∧ w.extractLsb' 25 3 = 0b101#3 ∧ bitField w 24 = op.lBit ∧
        w.extractLsb' 0 24 = off := by
  simp [Shape.fields, Reads]

theorem reads_swi {c : Cond} {imm24 : BitVec 24} :
    Reads w (Shape.swi c imm24).fields ↔
      w.extractLsb' 28 4 = c.bits ∧ w.extractLsb' 25 3 = 0b111#3 ∧ bitField w 24 = true ∧
        w.extractLsb' 0 24 = imm24 := by
  simp [Shape.fields, Reads]

/-- A word has the fields of an instruction's row exactly when it has those that the instruction looks at, and 0000 in
those that it ignores. -/
theorem reads_fields_iff {i : Instr} :
    Reads w i.shape.fields ↔ i.shape.Layout w ∧ i.ignoredFieldsZero w := by
  unfold Instr.ignoredFieldsZero
  cases i.shape with
  | write op c sb rn rd o2 =>
    simp only [Shape.fields, reads_dpFields, BitVec.ofNat_finVal, regField_eq_iff, Shape.Layout, Shape.cond,
      Operand2.IsIn]
    tauto
  | move op c sb rd o2 =>
    simp only [Shape.fields, reads_dpFields, BitVec.ofNat_finVal, regField_eq_iff, Shape.Layout, Shape.cond,
      Operand2.IsIn]
    tauto
  | test op c rn o2 =>
    simp only [Shape.fields, reads_dpFields, BitVec.ofNat_finVal, regField_eq_iff, Shape.Layout, Shape.cond,
      Operand2.IsIn]
    tauto
  | mul c sb rd rs rm =>
    simp only [reads_mul, Shape.Layout, Shape.cond, multiplyLayout]
    tauto
  | mla c sb rd rn rs rm =>
    simp only [reads_mla, Shape.Layout, Shape.cond, multiplyLayout]
    tauto
  | transfer op c ix up rn rd off =>
    simp only [reads_transfer, Shape.Layout, Shape.cond, Offset.IsIn]
    tauto
  | branch op c off =>
    simp only [reads_branch, Shape.Layout, Shape.cond, and_true]
  | swi c imm24 =>
    simp only [reads_swi, Shape.Layout, Shape.cond, and_true, and_assoc]

/-- The encoder's word of an instruction is the word that has the fields that the instruction looks at, and 0000 in
those that it ignores. -/
theorem encode_eq_iff {i : Instr} : encode i = w ↔ i.shape.Layout w ∧ i.ignoredFieldsZero w :=
  encode_eq_iff_reads.trans reads_fields_iff

/-- The encoder's word has the instruction's fields, and zeros in those that it ignores. -/
theorem layout_encode (i : Instr) : i.shape.Layout (encode i) ∧ i.ignoredFieldsZero (encode i) := encode_eq_iff.1 rfl

end

end Sys2Proof

/-! ### The decoder, and the round trip of decoder and encoder (R52, R62, R64) -/

namespace Sys2Proof

/-! The formats (R52). -/

/-- The bits that the opcode map fixes for a format (R52). -/
def Format.FixedBits (w : Word) : Format → Prop
  | .multiply => w.extractLsb' 25 3 = 0b000#3 ∧ w.extractLsb' 4 4 = 0b1001#4 ∧ w.extractLsb' 22 3 = 0b000#3
  | .dpImmediate => w.extractLsb' 25 3 = 0b001#3
  | .dpShiftByImmediate => w.extractLsb' 25 3 = 0b000#3 ∧ bitField w 4 = false
  | .dpShiftByRegister => w.extractLsb' 25 3 = 0b000#3 ∧ bitField w 4 = true ∧ bitField w 7 = false
  | .transferImmediate => w.extractLsb' 25 3 = 0b010#3
  | .transferRegister => w.extractLsb' 25 3 = 0b011#3 ∧ bitField w 4 = false
  | .branch => w.extractLsb' 25 3 = 0b101#3
  | .swi => w.extractLsb' 25 3 = 0b111#3 ∧ bitField w 24 = true

/-- Bits 7 and 4 are two of the bits 7:4. -/
theorem bitField_of_extract {w : Word} {x : BitVec 4} (h : w.extractLsb' 4 4 = x) :
    bitField w 4 = x.getLsbD 0 ∧ bitField w 7 = x.getLsbD 3 := by
  subst h
  simp [bitField]

/-- The opcode map answers a format exactly when the word has the format's fixed bits. -/
theorem formatOf_eq_some_iff {w : Word} {f : Format} : formatOf w = some f ↔ f.FixedBits w := by
  have hgroup : ∀ g : BitVec 3,
      g = 0#3 ∨ g = 1#3 ∨ g = 2#3 ∨ g = 3#3 ∨ g = 4#3 ∨ g = 5#3 ∨ g = 6#3 ∨ g = 7#3 := by decide
  have hnine : w.extractLsb' 4 4 = 0b1001#4 → bitField w 4 = true ∧ bitField w 7 = true := bitField_of_extract
  rcases hgroup (w.extractLsb' 25 3) with h | h | h | h | h | h | h | h
  case inl =>
    cases h4 : bitField w 4 with
    | false =>
      have hne : w.extractLsb' 4 4 ≠ 0b1001#4 := fun h9 => by simp [hnine h9] at h4
      cases f <;> simp [formatOf, Format.FixedBits, h, h4, hne]
    | true =>
      cases h7 : bitField w 7 with
      | false =>
        have hne : w.extractLsb' 4 4 ≠ 0b1001#4 := fun h9 => by simp [hnine h9] at h7
        cases f <;> simp [formatOf, Format.FixedBits, h, h4, h7, hne]
      | true => cases f <;> simp [formatOf, Format.FixedBits, h, h4, h7]
  all_goals cases f <;> simp [formatOf, Format.FixedBits, h]

/-! Operand 2 and the offset in their formats (R53 to R58). -/

section

variable {w : Word}

theorem operand2Imm_isIn_iff {rot : BitVec 4} {imm8 : BitVec 8} :
    (Operand2.imm rot imm8).IsIn w ↔ formatOf w = some .dpImmediate ∧ operand2Imm w = .imm rot imm8 := by
  simp only [Operand2.IsIn, reads_imm, formatOf_eq_some_iff, Format.FixedBits, operand2Imm, Operand2.imm.injEq,
    Operand2.group]

theorem operand2ShiftImm_isIn_iff {rm : Reg} {sh : ShiftType} {n : BitVec 5} :
    (Operand2.shiftImm rm sh n).IsIn w ↔
      formatOf w = some .dpShiftByImmediate ∧ operand2ShiftImm w = .shiftImm rm sh n := by
  simp only [Operand2.IsIn, Operand2.group, reads_shiftImm, formatOf_eq_some_iff, Format.FixedBits, operand2ShiftImm,
    Operand2.shiftImm.injEq, ShiftType.ofBits_eq_iff]
  tauto

theorem operand2ShiftReg_isIn_iff {rm rs : Reg} {sh : ShiftType} :
    (Operand2.shiftReg rm sh rs).IsIn w ↔
      formatOf w = some .dpShiftByRegister ∧ operand2ShiftReg w = .shiftReg rm sh rs := by
  simp only [Operand2.IsIn, Operand2.group, reads_shiftReg, formatOf_eq_some_iff, Format.FixedBits, operand2ShiftReg,
    Operand2.shiftReg.injEq, ShiftType.ofBits_eq_iff]
  tauto

theorem offsetImm_isIn_iff {imm12 : BitVec 12} :
    (Offset.imm imm12).IsIn w ↔ formatOf w = some .transferImmediate ∧ w.extractLsb' 0 12 = imm12 := by
  simp only [Offset.IsIn, Offset.group, reads_offsetImm, formatOf_eq_some_iff, Format.FixedBits]

theorem offsetReg_isIn_iff {rm : Reg} {sh : ShiftType} {n : BitVec 5} :
    (Offset.reg rm sh n).IsIn w ↔ formatOf w = some .transferRegister ∧
      Offset.reg (regField w 0) (ShiftType.ofBits (w.extractLsb' 5 2)) (w.extractLsb' 7 5) = .reg rm sh n := by
  simp only [Offset.IsIn, Offset.group, reads_offsetReg, formatOf_eq_some_iff, Format.FixedBits,
    Offset.reg.injEq, ShiftType.ofBits_eq_iff]
  tauto

end

/-! What the decoder accepts (R62). -/

/-- What the decoder accepts has a condition and a format, and the format's decoder accepts it. -/
theorem decode_eq_ok_iff {w : Word} {i : Instr} :
    decode w = .ok i ↔
      ∃ c f, w.extractLsb' 28 4 = c.bits ∧ formatOf w = some f ∧ decodeFormat c w f = .ok i := by
  simp only [← Cond.ofBits_eq_some]
  unfold decode
  cases Cond.ofBits (w.extractLsb' 28 4) <;> cases formatOf w <;> simp

theorem DpOp.opcode_of_ofBits {b : BitVec 4} {op : DpOp} (h : DpOp.ofBits b = op) : b = op.opcode := by
  rw [← h, DpOp.opcode_ofBits]

@[simp] theorem BranchOp.lBit_ite (l : Bool) : (if l = true then BranchOp.bl else BranchOp.b).lBit = l := by
  cases l <;> rfl

@[simp] theorem BranchOp.ite_lBit (op : BranchOp) : (if op.lBit = true then BranchOp.bl else BranchOp.b) = op := by
  cases op <;> rfl

section

variable {c : Cond} {w : Word} {i : Instr}

/-- Every branch of the decoder that accepts ends in the check of the static refusals (R62 step 4). -/
theorem layout_of_checked {x : Shape} (h : checked x.instr = .ok i) (hl : x.Layout w) :
    i.shape.Layout w ∧ WellFormed i := by
  rcases checked_cases x.instr with ⟨hok, hwf⟩ | ⟨r, -, herr⟩
  · obtain rfl : x.instr = i := by simpa [hok] using h
    exact ⟨by rwa [Shape.shape_instr], hwf⟩
  · simp [herr] at h

theorem layout_of_decodeDp {o2 : Operand2} (hc : w.extractLsb' 28 4 = c.bits) (ho : o2.IsIn w)
    (h : decodeDp c o2 w = .ok i) : i.shape.Layout w ∧ WellFormed i := by
  cases hop : DpOp.ofBits (w.extractLsb' 21 4) with
  | write op =>
    simp only [decodeDp, hop] at h
    exact layout_of_checked h ⟨hc, DpOp.opcode_of_ofBits hop, rfl, rfl, rfl, ho⟩
  | move op =>
    simp only [decodeDp, hop] at h
    split at h
    · cases h
    · exact layout_of_checked h ⟨hc, DpOp.opcode_of_ofBits hop, rfl, rfl, ho⟩
  | test op =>
    simp only [decodeDp, hop] at h
    split at h
    · cases h
    · next hs =>
      split at h
      · cases h
      · exact layout_of_checked h ⟨hc, DpOp.opcode_of_ofBits hop, by simpa using hs, rfl, ho⟩

theorem layout_of_decodeTransfer {off : Offset} (hc : w.extractLsb' 28 4 = c.bits) (ho : off.IsIn w)
    (h : decodeTransfer c off w = .ok i) : i.shape.Layout w ∧ WellFormed i := by
  unfold decodeTransfer at h
  split at h
  · cases h
  · next ix hix =>
    obtain ⟨hp, hw⟩ := Indexing.ofBits_eq_some hix
    exact layout_of_checked h ⟨hc, ⟨hp.symm, hw.symm⟩, rfl, by simp, rfl, rfl, ho⟩

theorem layout_of_decodeMultiply (hc : w.extractLsb' 28 4 = c.bits) (hf : Format.multiply.FixedBits w)
    (h : decodeMultiply c w = .ok i) : i.shape.Layout w ∧ WellFormed i := by
  unfold decodeMultiply at h
  split at h
  · next ha => exact layout_of_checked h ⟨hc, ⟨hf, ha, rfl, rfl, rfl, rfl⟩, rfl⟩
  · next ha => exact layout_of_checked h ⟨hc, hf, by simpa using ha, rfl, rfl, rfl, rfl⟩

/-- What the decoder accepts has the fields of its word, and is well formed. -/
theorem layout_of_decode (h : decode w = .ok i) : i.shape.Layout w ∧ WellFormed i := by
  obtain ⟨c, f, hc, hf, h⟩ := decode_eq_ok_iff.1 h
  have hbits := formatOf_eq_some_iff.1 hf
  cases f with
  | multiply => exact layout_of_decodeMultiply hc hbits h
  | dpImmediate => exact layout_of_decodeDp hc (operand2Imm_isIn_iff.2 ⟨hf, rfl⟩) h
  | dpShiftByImmediate => exact layout_of_decodeDp hc (operand2ShiftImm_isIn_iff.2 ⟨hf, rfl⟩) h
  | dpShiftByRegister => exact layout_of_decodeDp hc (operand2ShiftReg_isIn_iff.2 ⟨hf, rfl⟩) h
  | transferImmediate => exact layout_of_decodeTransfer hc (offsetImm_isIn_iff.2 ⟨hf, rfl⟩) h
  | transferRegister => exact layout_of_decodeTransfer hc (offsetReg_isIn_iff.2 ⟨hf, rfl⟩) h
  | branch => exact layout_of_checked h ⟨hc, hbits, (BranchOp.lBit_ite _).symm, rfl⟩
  | swi => exact layout_of_checked (x := .swi c (w.extractLsb' 0 24)) h ⟨hc, hbits, rfl⟩

/-! Words that the decoder accepts (R62). -/

theorem decode_of_fixedBits {f : Format} (hc : w.extractLsb' 28 4 = c.bits) (hf : f.FixedBits w) :
    decode w = decodeFormat c w f := by
  simp [decode, hc, formatOf_eq_some_iff.2 hf]

theorem decode_of_operand2 {o2 : Operand2} (hc : w.extractLsb' 28 4 = c.bits) (ho : o2.IsIn w) :
    decode w = decodeDp c o2 w := by
  cases o2 with
  | imm rot imm8 =>
    obtain ⟨hf, ho2⟩ := operand2Imm_isIn_iff.1 ho
    rw [decode_of_fixedBits hc (formatOf_eq_some_iff.1 hf), decodeFormat, ho2]
  | shiftImm rm sh n =>
    obtain ⟨hf, ho2⟩ := operand2ShiftImm_isIn_iff.1 ho
    rw [decode_of_fixedBits hc (formatOf_eq_some_iff.1 hf), decodeFormat, ho2]
  | shiftReg rm sh rs =>
    obtain ⟨hf, ho2⟩ := operand2ShiftReg_isIn_iff.1 ho
    rw [decode_of_fixedBits hc (formatOf_eq_some_iff.1 hf), decodeFormat, ho2]

theorem decode_of_offset {off : Offset} (hc : w.extractLsb' 28 4 = c.bits) (ho : off.IsIn w) :
    decode w = decodeTransfer c off w := by
  cases off with
  | imm imm12 =>
    obtain ⟨hf, hoff⟩ := offsetImm_isIn_iff.1 ho
    rw [decode_of_fixedBits hc (formatOf_eq_some_iff.1 hf), decodeFormat, hoff]
  | reg rm sh n =>
    obtain ⟨hf, hoff⟩ := offsetReg_isIn_iff.1 ho
    rw [decode_of_fixedBits hc (formatOf_eq_some_iff.1 hf), decodeFormat, hoff]

end

/-- A word with the fields of a well-formed instruction, and 0000 in those that it ignores, decodes to it. -/
theorem decode_of_layout {i : Instr} {w : Word} (hl : i.shape.Layout w) (hz : i.ignoredFieldsZero w)
    (hwf : WellFormed i) : decode w = .ok i := by
  obtain ⟨hc, hl⟩ := hl
  have hok : checked i.shape.instr = .ok i := by rw [i.instr_shape, checked_ok hwf]
  have hnotPc : ∀ {lo}, w.extractLsb' lo 4 = 0#4 → regField w lo ≠ pcReg := by
    intro lo h
    rw [show regField w lo = 0 from regField_eq_iff.1 h]
    decide
  unfold Instr.ignoredFieldsZero at hz
  generalize i.shape = x at hc hl hz hok
  cases x with
  | write op c sb rn rd o2 =>
    obtain ⟨hop, hs, hrn, hrd, ho⟩ := hl
    simp [decode_of_operand2 hc ho, decodeDp, hop, hs, hrn, hrd, hok, Shape.cond]
  | move op c sb rd o2 =>
    obtain ⟨hop, hs, hrd, ho⟩ := hl
    simp [decode_of_operand2 hc ho, decodeDp, hop, hs, hrd, hok, Shape.cond, hnotPc hz]
  | test op c rn o2 =>
    obtain ⟨hop, hs, hrn, ho⟩ := hl
    simp [decode_of_operand2 hc ho, decodeDp, hop, hs, hrn, hok, Shape.cond, hnotPc hz]
  | mul c sb rd rs rm =>
    obtain ⟨hf, ha, hs, hrd, hrs, hrm⟩ := hl
    simp [decode_of_fixedBits (f := .multiply) hc hf, decodeFormat, decodeMultiply, ha, hs, hrd, hrs, hrm, hok,
      Shape.cond]
  | mla c sb rd rn rs rm =>
    obtain ⟨⟨hf, ha, hs, hrd, hrs, hrm⟩, hrn⟩ := hl
    simp [decode_of_fixedBits (f := .multiply) hc hf, decodeFormat, decodeMultiply, ha, hs, hrd, hrs, hrm, hrn, hok,
      Shape.cond]
  | transfer op c ix up rn rd off =>
    obtain ⟨⟨hp, hw⟩, hu, ⟨hl, hb⟩, hrn, hrd, ho⟩ := hl
    simp [decode_of_offset hc ho, decodeTransfer, hp, hw, hu, hl, hb, hrn, hrd, hok, Shape.cond]
  | branch op c off =>
    obtain ⟨hf, hl, hoff⟩ := hl
    simp [decode_of_fixedBits (f := .branch) hc hf, decodeFormat, hl, hoff, hok, Shape.cond]
  | swi c imm24 =>
    obtain ⟨hf, himm⟩ := hl
    simp [decode_of_fixedBits (f := .swi) hc hf, decodeFormat, himm, hok, Shape.cond]

/-! The round trip of decoder and encoder (R53 to R60, R62, R64). -/

/-- Settles O1: the encoder's word has the fields of the instruction's row, and a word that has them decodes to it. -/
theorem decodeOfEncodeIsTheInstruction : Obligations.DecodeOfEncodeIsTheInstruction := by
  intro i hwf
  obtain ⟨hl, hz⟩ := layout_encode i
  exact decode_of_layout hl hz hwf

/-- Settles O2: every branch of the decoder that accepts ends in `checked`. -/
theorem decodedInstructionsAreWellFormed : Obligations.DecodedInstructionsAreWellFormed :=
  fun _ _ h => (layout_of_decode h).2

/-- The encoder gives back a word that decodes, when the fields that its instruction ignores are zero (R64). -/
theorem encode_of_decode {w : Word} {i : Instr} (h : decode w = .ok i) (hz : i.ignoredFieldsZero w) : encode i = w :=
  encode_eq_iff.2 ⟨(layout_of_decode h).1, hz⟩

end Sys2Proof

/-! ### The rows of the opcode table (R62), and sample words -/

namespace Sys2Proof

/-- The word has the given fields, each as its lowest bit, its width and its value. -/
def HasFields (w : Word) (fs : List (Nat × Nat × Nat)) : Prop :=
  ∀ f ∈ fs, w.extractLsb' f.1 f.2.1 = BitVec.ofNat f.2.1 f.2.2

@[simp] theorem hasFields_nil (w : Word) : HasFields w [] := List.forall_mem_nil _

@[simp] theorem hasFields_cons {w : Word} {f : Nat × Nat × Nat} {fs : List (Nat × Nat × Nat)} :
    HasFields w (f :: fs) ↔ w.extractLsb' f.1 f.2.1 = BitVec.ofNat f.2.1 f.2.2 ∧ HasFields w fs :=
  List.forall_mem_cons

/-- The row that fixes the given fields, and no other bit. -/
def OpcodeRow.ofFields (fs : List (Nat × Nat × Nat)) : OpcodeRow where
  pattern := fs.foldr (fun f p => (BitVec.ofNat f.2.1 f.2.2).setWidth 32 <<< f.1 ||| p) 0#32
  mask := fs.foldr (fun f m => (BitVec.allOnes f.2.1).setWidth 32 <<< f.1 ||| m) 0#32

/-- Masking all but one field of a word leaves the field, at its place. -/
theorem and_fieldMask (w : Word) (lo n : Nat) :
    w &&& (BitVec.allOnes n).setWidth 32 <<< lo = (w.extractLsb' lo n).setWidth 32 <<< lo := by
  apply BitVec.eq_of_getLsbD_eq
  intro i hi
  by_cases hlo : i < lo
  · simp [hlo]
  · have hback : lo + (i - lo) = i := by omega
    simp [hlo, hi, hback, Bool.and_comm]

/-- A word that has the fields that a row fixes selects the row. -/
theorem OpcodeRow.selects_ofFields {fs : List (Nat × Nat × Nat)} {w : Word} (h : HasFields w fs) :
    (OpcodeRow.ofFields fs).selects w = true := by
  simp only [OpcodeRow.selects, beq_iff_eq, OpcodeRow.ofFields]
  induction fs with
  | nil => simp
  | cons f rest ih =>
    obtain ⟨hf, hrest⟩ := hasFields_cons.1 h
    rw [List.foldr_cons, List.foldr_cons, BitVec.and_or_distrib_left, and_fieldMask, hf, ih hrest]

/-- The fields that a row fixes for the form of operand 2. -/
def Operand2.fixedFields : Operand2 → List (Nat × Nat × Nat)
  | .imm _ _ => [(25, 3, 0b001)]
  | .shiftImm _ _ _ => [(25, 3, 0b000), (4, 1, 0)]
  | .shiftReg _ _ _ => [(25, 3, 0b000), (7, 1, 0), (4, 1, 1)]

/-- The fields that a row fixes for the form of the offset. -/
def Offset.fixedFields : Offset → List (Nat × Nat × Nat)
  | .imm _ => [(25, 3, 0b010)]
  | .reg _ _ _ => [(25, 3, 0b011), (4, 1, 0)]

/-- The fields that the row of a family and operation fixes. -/
def Shape.fixedFields : Shape → List (Nat × Nat × Nat)
  | .write op _ _ _ _ o2 => (21, 4, op.opcode.toNat) :: o2.fixedFields
  | .move op _ _ _ o2 => (21, 4, op.opcode.toNat) :: o2.fixedFields
  | .test op _ _ o2 => (21, 4, op.opcode.toNat) :: (20, 1, 1) :: o2.fixedFields
  | .mul _ _ _ _ _ => [(25, 3, 0b000), (4, 4, 0b1001), (22, 3, 0b000), (21, 1, 0)]
  | .mla _ _ _ _ _ _ => [(25, 3, 0b000), (4, 4, 0b1001), (22, 3, 0b000), (21, 1, 1)]
  | .transfer op _ _ _ _ _ off => (20, 1, op.lBit.toNat) :: (22, 1, op.bBit.toNat) :: off.fixedFields
  | .branch op _ _ => [(25, 3, 0b101), (24, 1, op.lBit.toNat)]
  | .swi _ _ => [(25, 3, 0b111), (24, 1, 1)]

/-- The table's row of each family and operation, by the fields that it fixes. -/
theorem Shape.row_instr (x : Shape) : x.instr.row = OpcodeRow.ofFields x.fixedFields := by
  cases x with
  | write op c sb rn rd o2 =>
    cases op <;> cases o2 <;> simp only [Shape.instr, Instr.row, Shape.fixedFields, Operand2.fixedFields] <;> decide
  | move op c sb rd o2 =>
    cases op <;> cases o2 <;> simp only [Shape.instr, Instr.row, Shape.fixedFields, Operand2.fixedFields] <;> decide
  | test op c rn o2 =>
    cases op <;> cases o2 <;> simp only [Shape.instr, Instr.row, Shape.fixedFields, Operand2.fixedFields] <;> decide
  | mul c sb rd rs rm => rfl
  | mla c sb rd rn rs rm => rfl
  | transfer op c ix up rn rd off =>
    cases op <;> cases off <;> simp only [Shape.instr, Instr.row, Shape.fixedFields, Offset.fixedFields] <;> decide
  | branch op c off => cases op <;> rfl
  | swi c imm24 => rfl

/-- Every instruction's row is one of the table's. -/
theorem Instr.row_mem (i : Instr) : i.row ∈ opcodeRows := by
  cases i <;> exact List.elem_iff.1 rfl

theorem Operand2.IsIn.fixedFields {o2 : Operand2} {w : Word} (h : o2.IsIn w) : HasFields w o2.fixedFields := by
  obtain ⟨hg, hr⟩ := h
  cases o2 with
  | imm rot imm8 => simpa [Operand2.fixedFields, Operand2.group] using hg
  | shiftImm rm sh n =>
    obtain ⟨-, -, h4, -⟩ := reads_shiftImm.1 hr
    simpa [Operand2.fixedFields, Operand2.group, h4] using hg
  | shiftReg rm sh rs =>
    obtain ⟨-, h7, -, h4, -⟩ := reads_shiftReg.1 hr
    simpa [Operand2.fixedFields, Operand2.group, h7, h4] using hg

theorem Offset.IsIn.fixedFields {off : Offset} {w : Word} (h : off.IsIn w) : HasFields w off.fixedFields := by
  obtain ⟨hg, hr⟩ := h
  cases off with
  | imm imm12 => simpa [Offset.fixedFields, Offset.group] using hg
  | reg rm sh n =>
    obtain ⟨-, -, h4, -⟩ := reads_offsetReg.1 hr
    simpa [Offset.fixedFields, Offset.group, h4] using hg

/-- The fields that an instruction's row fixes are among those that the instruction looks at. -/
theorem Shape.Layout.fixedFields {x : Shape} {w : Word} (h : x.Layout w) : HasFields w x.fixedFields := by
  obtain ⟨-, h⟩ := h
  cases x with
  | write op c sb rn rd o2 =>
    obtain ⟨hop, -, -, -, ho⟩ := h
    simpa [Shape.fixedFields, hop] using ho.fixedFields
  | move op c sb rd o2 =>
    obtain ⟨hop, -, -, ho⟩ := h
    simpa [Shape.fixedFields, hop] using ho.fixedFields
  | test op c rn o2 =>
    obtain ⟨hop, hs, -, ho⟩ := h
    simpa [Shape.fixedFields, hop, hs] using ho.fixedFields
  | mul c sb rd rs rm =>
    obtain ⟨hf, ha, -⟩ := h
    simpa [Shape.fixedFields, ha] using hf
  | mla c sb rd rn rs rm =>
    obtain ⟨⟨hf, ha, -⟩, -⟩ := h
    simpa [Shape.fixedFields, ha] using hf
  | transfer op c ix up rn rd off =>
    obtain ⟨-, -, ⟨hl, hb⟩, -, -, ho⟩ := h
    simpa [Shape.fixedFields, hl, hb] using ho.fixedFields
  | branch op c off =>
    obtain ⟨hg, hl, -⟩ := h
    simp [Shape.fixedFields, hg, hl]
  | swi c imm24 =>
    obtain ⟨⟨hg, hl⟩, -⟩ := h
    simp [Shape.fixedFields, hg, hl]

/-- Settles O4: the fields that the row fixes are among those of the instruction's layout. -/
theorem decodedWordsSelectTheirTableRow : Obligations.DecodedWordsSelectTheirTableRow := by
  intro w i h
  obtain ⟨hl, -⟩ := layout_of_decode h
  refine ⟨?_, i.row_mem, hl.1⟩
  rw [← i.instr_shape, Shape.row_instr]
  exact OpcodeRow.selects_ofFields hl.fixedFields

/-- Two rows whose patterns differ in a bit that both masks hold. -/
def OpcodeRow.conflicts (r t : OpcodeRow) : Bool := r.pattern &&& t.mask != t.pattern &&& r.mask

/-- No word selects two rows that conflict. -/
theorem OpcodeRow.not_selects_both {r t : OpcodeRow} (h : r.conflicts t = true) (w : Word) :
    ¬ (r.selects w = true ∧ t.selects w = true) := by
  rintro ⟨hr, ht⟩
  rw [OpcodeRow.selects, beq_iff_eq] at hr ht
  refine (bne_iff_ne.1 h) ?_
  rw [← hr, ← ht, BitVec.and_assoc, BitVec.and_assoc, BitVec.and_comm r.mask]

/-- Settles O5: every two of the table's rows conflict. -/
theorem opcodeTableRowsAreDisjoint : Obligations.OpcodeTableRowsAreDisjoint := by
  have hconflicts : opcodeRows.Pairwise (fun r t => r.conflicts t = true) := by decide +kernel
  exact ⟨rfl, hconflicts.imp OpcodeRow.not_selects_both⟩

/-- Settles O6: the decoder's answers, computed. -/
theorem sampleWordsDecode : Obligations.SampleWordsDecode := by
  refine ⟨?_, ?_, ?_, ?_, ?_, ?_, ?_, ?_, ?_, ?_, ?_⟩ <;> decide

end Sys2Proof

/-! ### Refused words (R52, R63, R114) -/

namespace Sys2Proof

open Machine

section

variable {w : Word}

/-- A word that the decoder refuses is refused at decode, whatever the state. -/
theorem refusedAtDecode_of_error {r : DecodeRefusal} (h : decode w = .error r) :
    RefusedAtDecode w r (decodeOutcome r w) :=
  ⟨h, fun s hh hf => by simp [step, hh, hf, h]⟩

/-- Every code but 1111 is a condition's. -/
theorem exists_cond (h : w.extractLsb' 28 4 ≠ 0xF#4) : ∃ c : Cond, w.extractLsb' 28 4 = c.bits := by
  obtain ⟨c, hc⟩ := Option.ne_none_iff_exists'.1 (mt Cond.ofBits_eq_none.1 h)
  exact ⟨c, Cond.ofBits_eq_some.1 hc⟩

/-- A word with a condition but in no format is refused. -/
theorem decode_of_no_format {c : Cond} (hc : w.extractLsb' 28 4 = c.bits) (hf : formatOf w = none) :
    decode w = .error .notInHandout := by
  simp [decode, hc, hf]

/-- A field within a field is a field of the word. -/
theorem extract_extract (w : Word) {lo n k m : Nat} (h : k + m ≤ n) :
    (w.extractLsb' lo n).extractLsb' k m = w.extractLsb' (lo + k) m := by
  apply BitVec.eq_of_getLsbD_eq
  intro i hi
  have hn : k + i < n := by omega
  simp [hi, hn, Nat.add_assoc]

/-- Bits 24:23 tell the compares. -/
theorem DpOp.exists_test {b : BitVec 4} (h : b.extractLsb' 2 2 = 0b10#2) : ∃ op, DpOp.ofBits b = .test op := by
  have key : ∀ b : BitVec 4, b.extractLsb' 2 2 = 0b10#2 →
      DpOp.ofBits b ∈ [DpOp.test .tst, .test .teq, .test .cmp, .test .cmn] := by decide
  simp only [List.mem_cons, List.not_mem_nil, or_false] at key
  rcases key b h with h | h | h | h <;> exact ⟨_, h⟩

/-- A compare with S = 0 is refused (R114). -/
theorem decodeDp_of_compare {c : Cond} {o2 : Operand2} (hop : w.extractLsb' 23 2 = 0b10#2)
    (hs : bitField w 20 = false) : decodeDp c o2 w = .error .notInHandout := by
  have hsub : (w.extractLsb' 21 4).extractLsb' 2 2 = w.extractLsb' 23 2 := extract_extract w (by decide)
  obtain ⟨op, ho⟩ := DpOp.exists_test (hsub.trans hop)
  simp [decodeDp, ho, hs]

/-- Bits 27:26 of the data processing formats are 00. -/
theorem group_of_dataProcessing (h : w.extractLsb' 26 2 = 0b00#2) :
    w.extractLsb' 25 3 = 0b001#3 ∧ bitField w 25 = true ∨ w.extractLsb' 25 3 = 0b000#3 ∧ bitField w 25 = false := by
  have key : ∀ g : BitVec 3, g.extractLsb' 1 2 = 0b00#2 →
      g = 0b001#3 ∧ g.getLsbD 0 = true ∨ g = 0b000#3 ∧ g.getLsbD 0 = false := by decide
  have hsub : (w.extractLsb' 25 3).extractLsb' 1 2 = w.extractLsb' 26 2 := extract_extract w (by decide)
  simpa [bitField] using key _ (hsub.trans h)

/-- A word in one of the three data processing formats holds an operand 2. -/
theorem exists_operand2 (h : w.extractLsb' 26 2 = 0b00#2)
    (hform : bitField w 25 = true ∨ bitField w 4 = false ∨ bitField w 7 = false) : ∃ o2 : Operand2, o2.IsIn w := by
  rcases group_of_dataProcessing h with ⟨hg, -⟩ | ⟨hg, h25⟩
  · exact ⟨_, operand2Imm_isIn_iff.2 ⟨formatOf_eq_some_iff.2 hg, rfl⟩⟩
  · cases h4 : bitField w 4 with
    | false => exact ⟨_, operand2ShiftImm_isIn_iff.2 ⟨formatOf_eq_some_iff.2 ⟨hg, h4⟩, rfl⟩⟩
    | true =>
      have h7 : bitField w 7 = false := by simpa [h25, h4] using hform
      exact ⟨_, operand2ShiftReg_isIn_iff.2 ⟨formatOf_eq_some_iff.2 ⟨hg, h4, h7⟩, rfl⟩⟩

end

/-- Settles O8: the first four clauses leave no format, and `decodeDp` refuses the compares of the last. -/
theorem unlistedEncodingsAreRefused : Obligations.UnlistedEncodingsAreRefused := by
  intro w hcond h
  obtain ⟨c, hc⟩ := exists_cond hcond
  refine refusedAtDecode_of_error (r := .notInHandout) ?_
  have hbit : ∀ k, w.getLsbD k = bitField w k := fun _ => rfl
  simp only [hbit] at h
  rcases h with (hg | hg) | ⟨hg, h4, h7, hmul⟩ | ⟨hg, h4⟩ | ⟨hg, h24⟩ | ⟨hdp, hform, hop, hs⟩
  · exact decode_of_no_format hc (by simp [formatOf, hg])
  · exact decode_of_no_format hc (by simp [formatOf, hg])
  · exact decode_of_no_format hc (by simp [formatOf, hg, h4, h7, -not_and, hmul])
  · exact decode_of_no_format hc (by simp [formatOf, hg, h4])
  · exact decode_of_no_format hc (by simp [formatOf, hg, h24])
  · obtain ⟨o2, ho⟩ := exists_operand2 hdp hform
    rw [decode_of_operand2 hc ho, decodeDp_of_compare hop hs]

end Sys2Proof

/-! ### The canonical word of an assembly line (R69, R107) -/

namespace Sys2Proof

open Machine

section

variable {a w : Word} {l : SourceLine} {i : Instr}

/-- The word of a line is that of the instruction it assembles to. -/
theorem SourceLine.canonicalWord_eq_some (h : l.canonicalWord a = some w) :
    ∃ i, l.assemble a = some i ∧ w = encode i := by
  obtain ⟨i, hi, rfl⟩ := Option.map_eq_some_iff.1 h
  exact ⟨i, hi, rfl⟩

/-- The bit S of an instruction, where its format has one. -/
def Shape.sBit : Shape → Option Bool
  | .write _ _ sb _ _ _ => some sb
  | .move _ _ sb _ _ => some sb
  | .test _ _ _ _ => some true
  | .mul _ sb _ _ _ => some sb
  | .mla _ sb _ _ _ _ => some sb
  | .transfer _ _ _ _ _ _ _ => none
  | .branch _ _ _ => none
  | .swi _ _ => none

/-- Operand 2 of an instruction that has one. -/
def Shape.operand2 : Shape → Option Operand2
  | .write _ _ _ _ _ o2 => some o2
  | .move _ _ _ _ o2 => some o2
  | .test _ _ _ o2 => some o2
  | .mul _ _ _ _ _ => none
  | .mla _ _ _ _ _ _ => none
  | .transfer _ _ _ _ _ _ _ => none
  | .branch _ _ _ => none
  | .swi _ _ => none

/-- Bit 20 is the bit S of an instruction that has one. -/
theorem Shape.Layout.sBit {x : Shape} (h : x.Layout w) {sb : Bool} (hs : x.sBit = some sb) : bitField w 20 = sb := by
  obtain ⟨-, h⟩ := h
  cases x with
  | write op c s rn rd o2 => obtain ⟨-, h20, -⟩ := h; exact h20.trans (Option.some.inj hs)
  | move op c s rd o2 => obtain ⟨-, h20, -⟩ := h; exact h20.trans (Option.some.inj hs)
  | test op c rn o2 => obtain ⟨-, h20, -⟩ := h; exact h20.trans (Option.some.inj hs)
  | mul c s rd rs rm => obtain ⟨-, -, h20, -⟩ := h; exact h20.trans (Option.some.inj hs)
  | mla c s rd rn rs rm => obtain ⟨⟨-, -, h20, -⟩, -⟩ := h; exact h20.trans (Option.some.inj hs)
  | transfer | branch | swi => cases hs

/-- The word holds the operand 2 of an instruction that has one. -/
theorem Shape.Layout.operand2 {x : Shape} (h : x.Layout w) {o2 : Operand2} (ho : x.operand2 = some o2) : o2.IsIn w := by
  obtain ⟨-, h⟩ := h
  cases x with
  | write op c s rn rd o => obtain ⟨-, -, -, -, hin⟩ := h; exact Option.some.inj ho ▸ hin
  | move op c s rd o => obtain ⟨-, -, -, hin⟩ := h; exact Option.some.inj ho ▸ hin
  | test op c rn o => obtain ⟨-, -, -, hin⟩ := h; exact Option.some.inj ho ▸ hin
  | mul | mla | transfer | branch | swi => cases ho

/-- The word holds the offset of a load or store. -/
theorem Shape.Layout.offset {op : TransferOp} {c : Cond} {ix : Indexing} {up : Bool} {rn rd : Reg} {off : Offset}
    (h : (Shape.transfer op c ix up rn rd off).Layout w) : off.IsIn w := by
  obtain ⟨-, -, -, -, -, -, hin⟩ := h
  exact hin

/-- An address assembles to a load or store with the given condition. -/
theorem SourceAddress.assemble_cases {addr : SourceAddress} {op : TransferOp} {c : Cond} {rd : Reg} {x : Shape}
    (h : addr.assemble op c rd = some x) :
    (∃ rn, addr = .base rn ∧ x = .transfer op c .offset true rn rd (.imm 0)) ∨
    ∃ ix rn up so off, addr = .indexed ix rn up so ∧ so.assemble = some off ∧ x = .transfer op c ix up rn rd off := by
  cases addr with
  | base rn => exact .inl ⟨rn, rfl, (Option.some.inj h).symm⟩
  | indexed ix rn up so =>
    obtain ⟨off, hoff, rfl⟩ := Option.map_eq_some_iff.1 h
    exact .inr ⟨ix, rn, up, so, off, rfl, hoff, rfl⟩

/-- The parts of a line and of the instruction it assembles to. -/
structure SourceLine.PartsIn (l : SourceLine) (x : Shape) : Prop where
  cond : x.cond = suffixCond l.suffix
  sBit : x.sBit = l.sBit
  operand2 : x.operand2 = l.op2.bind SourceOperand2.assemble
  address : ∀ addr, l.address = some addr → ∃ op c rd, addr.assemble op c rd = some x

/-- A line's parts are in the instruction that it assembles to. -/
theorem SourceLine.partsIn_of_assemble (h : l.assemble a = some i) : l.PartsIn i.shape := by
  cases l with
  | write op c sb rd rn so =>
    obtain ⟨o2, ho, rfl⟩ := Option.map_eq_some_iff.1 h
    rw [Shape.shape_instr]
    exact ⟨rfl, rfl, ho.symm, nofun⟩
  | move op c sb rd so =>
    obtain ⟨o2, ho, rfl⟩ := Option.map_eq_some_iff.1 h
    rw [Shape.shape_instr]
    exact ⟨rfl, rfl, ho.symm, nofun⟩
  | test op c rn so =>
    obtain ⟨o2, ho, rfl⟩ := Option.map_eq_some_iff.1 h
    rw [Shape.shape_instr]
    exact ⟨rfl, rfl, ho.symm, nofun⟩
  | mul c sb rd rm rs =>
    obtain rfl := Option.some.inj h
    exact ⟨rfl, rfl, rfl, nofun⟩
  | mla c sb rd rm rs rn =>
    obtain rfl := Option.some.inj h
    exact ⟨rfl, rfl, rfl, nofun⟩
  | transfer op c rd addr =>
    obtain ⟨x, hx, rfl⟩ := Option.map_eq_some_iff.1 h
    rw [Shape.shape_instr]
    have haddr : ∀ ad, some addr = some ad → ∃ op c rd, ad.assemble op c rd = some x := by
      rintro _ ⟨⟩
      exact ⟨op, suffixCond c, rd, hx⟩
    rcases SourceAddress.assemble_cases hx with ⟨rn, rfl, rfl⟩ | ⟨ix, rn, up, so, off, rfl, -, rfl⟩
    · exact ⟨rfl, rfl, rfl, haddr⟩
    · exact ⟨rfl, rfl, rfl, haddr⟩
  | branch op c t =>
    obtain ⟨off, -, rfl⟩ := Option.map_eq_some_iff.1 h
    rw [Shape.shape_instr]
    exact ⟨rfl, rfl, rfl, nofun⟩
  | swi c n =>
    obtain ⟨-, h⟩ := Option.ite_none_right_eq_some.1 h
    obtain rfl := Option.some.inj h
    exact ⟨rfl, rfl, rfl, nofun⟩

/-- A line with an `<Op2>` is rejected exactly when no fields give its `<Op2>`. -/
theorem SourceLine.canonicalWord_eq_none_iff {so : SourceOperand2} (h : l.op2 = some so) :
    l.canonicalWord a = none ↔ so.assemble = none := by
  cases l with
  | write op c sb rd rn o => simp [SourceLine.canonicalWord, SourceLine.assemble, ← Option.some.inj h]
  | move op c sb rd o => simp [SourceLine.canonicalWord, SourceLine.assemble, ← Option.some.inj h]
  | test op c rn o => simp [SourceLine.canonicalWord, SourceLine.assemble, ← Option.some.inj h]
  | mul | mla | transfer | branch | swi => cases h

/-! The clauses of R69, each from the line's parts and the word's fields. -/

/-- A plain register, as operand 2 or as an offset, is in the word as a register shifted by LSL 0. -/
theorem plainRegister_of_parts {x : Shape} (hl : x.Layout w) (hp : l.PartsIn x) {rm : Reg} (h : l.HasPlainRegister rm) :
    w.extractLsb' 7 5 = 0b00000#5 ∧ w.extractLsb' 5 2 = 0b00#2 ∧ bitField w 4 = false ∧ regField w 0 = rm := by
  rcases h with ho | ⟨ix, rn, up, ha⟩
  · have hx : x.operand2 = some (.shiftImm rm .lsl 0) := by
      rw [hp.operand2, ho]
      rfl
    exact reads_shiftImm.1 (hl.operand2 hx).2
  · obtain ⟨op, c, rd, hx⟩ := hp.address _ ha
    obtain rfl := Option.some.inj hx
    exact reads_offsetReg.1 hl.offset.2

/-- A constant has no fields exactly when its line is rejected (R107). -/
theorem SourceLine.canonicalWord_constant_eq_none_iff {v : Word} (h : l.op2 = some (.constant v)) :
    l.canonicalWord a = none ↔ ∀ rot imm8, fieldConstant rot imm8 ≠ v := by
  rw [SourceLine.canonicalWord_eq_none_iff h, SourceOperand2.assemble, Option.map_eq_none_iff]
  rcases smallestRotation_cases v with ⟨rot, imm8, hsome, hv, -⟩ | ⟨hnone, hv⟩
  · exact iff_of_false (by simp [hsome]) fun hall => hall rot imm8 hv
  · exact iff_of_true hnone hv

/-- The fields of a constant in the word: the smallest rotation that gives it. -/
theorem constant_of_parts {x : Shape} (hl : x.Layout w) (hp : l.PartsIn x) {v : Word}
    (h : l.op2 = some (.constant v)) (hv : ¬ ∀ rot imm8, fieldConstant rot imm8 ≠ v) :
    w.extractLsb' 25 3 = 0b001#3 ∧ fieldConstant (w.extractLsb' 8 4) (w.extractLsb' 0 8) = v ∧
      ∀ rot imm8, fieldConstant rot imm8 = v → (w.extractLsb' 8 4).toNat ≤ rot.toNat := by
  rcases smallestRotation_cases v with ⟨rot, imm8, hsome, hconst, hmin⟩ | ⟨-, hnone⟩
  · have ho : x.operand2 = some (.imm rot imm8) := by
      rw [hp.operand2, h, Option.bind_some, SourceOperand2.assemble, hsome]
      rfl
    obtain ⟨hf, hw⟩ := operand2Imm_isIn_iff.1 (hl.operand2 ho)
    obtain ⟨hrot, himm⟩ : w.extractLsb' 8 4 = rot ∧ w.extractLsb' 0 8 = imm8 := by simpa [operand2Imm] using hw
    rw [hrot, himm]
    exact ⟨formatOf_eq_some_iff.1 hf, hconst, hmin⟩
  · exact absurd hnone hv

/-- A line without an offset has the fields P = 1, U = 1, W = 0 and imm12 = 0 in its word. -/
theorem noOffset_of_parts {x : Shape} (hl : x.Layout w) (hp : l.PartsIn x) {rn : Reg}
    (h : l.address = some (.base rn)) :
    w.extractLsb' 25 3 = 0b010#3 ∧ w.getLsbD 24 = true ∧ w.getLsbD 23 = true ∧ w.getLsbD 21 = false ∧
      regField w 16 = rn ∧ w.extractLsb' 0 12 = 0#12 := by
  obtain ⟨op, c, rd, hx⟩ := hp.address _ h
  obtain rfl := Option.some.inj hx
  obtain ⟨-, ⟨hpb, hwb⟩, hu, -, hrn, -, hg, hr⟩ := hl
  exact ⟨hg, hpb, hu, hwb, hrn, reads_offsetImm.1 hr⟩

end

/-- Settles O3: `encode_of_decode`, and for a line the clauses of R69 from its parts and the fields of its word. -/
theorem encodeRecoversTheDecodedWord : Obligations.EncodeRecoversTheDecodedWord := by
  refine ⟨fun w i h hz => encode_of_decode h hz, fun a l => ⟨fun w h => ?_, fun v hv => ?_⟩⟩
  · obtain ⟨i, hi, rfl⟩ := SourceLine.canonicalWord_eq_some h
    obtain ⟨hl, hz⟩ := layout_encode i
    have hp := SourceLine.partsIn_of_assemble hi
    refine ⟨fun hsuffix => ?_, fun sb hsb => ?_, ⟨i, hi, rfl, hz⟩, fun rm hrm => ?_, fun v hv => ?_, fun rn hrn => ?_⟩
    · obtain ⟨hc, -⟩ := hl
      rw [hc, hp.cond, hsuffix]
      rfl
    · exact hl.sBit (hp.sBit.trans hsb)
    · exact plainRegister_of_parts hl hp hrm
    · have hsome : ¬ ∀ rot imm8, fieldConstant rot imm8 ≠ v := by
        rw [← SourceLine.canonicalWord_constant_eq_none_iff hv, h]
        nofun
      obtain ⟨hg, hconst, hmin⟩ := constant_of_parts hl hp hv hsome
      exact ⟨hg, fun s => ⟨hconst, hmin⟩⟩
    · exact noOffset_of_parts hl hp hrn
  · rw [SourceLine.canonicalWord_constant_eq_none_iff hv]
    exact ⟨fun h _ => h, fun h => h State.reset⟩

end Sys2Proof

/-! ### Conditions (R82, R83) -/

namespace Sys2Proof.Machine

/-- The condition after an even code is its negation; AL, at 1110, has none after it (R82). -/
theorem condPassed_of_next_code {even odd : Cond} (f : Flags) (heven : even.bits.toNat % 2 = 0)
    (hlt : even.bits.toNat < 14) (hodd : Cond.ofBits (even.bits + 1#4) = some odd) :
    condPassed odd f = !condPassed even f := by
  cases even with
  | eq | cs | mi | vs => obtain rfl := Option.some.inj hodd; rfl
  | hi | ge | gt => obtain rfl := Option.some.inj hodd; simp [condPassed, bne]
  | ne | cc | pl | vc | ls | lt | le => exact absurd heven (by decide)
  | al => exact absurd hlt (by decide)

/-- Settles O17: the table row by row, and `condPassed_of_next_code`. -/
theorem conditionCodesFollowTheTable : Obligations.ConditionCodesFollowTheTable := by
  refine ⟨⟨rfl, fun f => ?eq⟩, ⟨rfl, fun f => ?ne⟩, ⟨rfl, fun f => ?cs⟩, ⟨rfl, fun f => ?cc⟩, ⟨rfl, fun f => ?mi⟩,
    ⟨rfl, fun f => ?pl⟩, ⟨rfl, fun f => ?vs⟩, ⟨rfl, fun f => ?vc⟩, ⟨rfl, fun f => ?hi⟩, ⟨rfl, fun f => ?ls⟩,
    ⟨rfl, fun f => ?ge⟩, ⟨rfl, fun f => ?lt⟩, ⟨rfl, fun f => ?gt⟩, ⟨rfl, fun f => ?le⟩, ⟨rfl, fun f => ?al⟩, rfl,
    fun k even odd f hk hlt heven hodd => ?next⟩
  case eq | cs | mi | vs => exact Iff.rfl
  case ne | cc | pl | vc => exact (Bool.not_eq_true' _).to_iff
  case hi | ls | gt | le => simp [condPassed]
  case ge => exact beq_iff_eq
  case lt => exact bne_iff_ne
  case al => rfl
  case next =>
    obtain rfl := Cond.ofBits_eq_some.1 heven
    exact condPassed_of_next_code f hk hlt hodd

/-- Settles O18: every row is performed through `perform`, whose answer to a condition that fails is
`perform_failed`. -/
theorem failedConditionOnlyMovesThePc : Obligations.FailedConditionOnlyMovesThePc := by
  intro i s hwf hc
  rw [exec_eq_shapeEffect, perform_failed hwf hc, State.advance]

end Sys2Proof.Machine

/-! ### Refusals before any condition, and the step of a word that decodes (R81, R84, R86) -/

namespace Sys2Proof

open Machine

/-- The decoder looks at the condition first, and 1111 is none. -/
theorem decode_of_reserved {w : Word} (h : w.extractLsb' 28 4 = 0xF#4) : decode w = .error .condReserved := by
  simp only [decode, Cond.ofBits_eq_none.2 h]

/-- Settles O7: the decoder's refusal `decode_of_reserved`, which a step answers whatever the flags. -/
theorem reservedConditionIsRefused : Obligations.ReservedConditionIsRefused :=
  fun _ h => refusedAtDecode_of_error (decode_of_reserved h)

/-- The check of the static refusals refuses what is not well formed (R62 step 4). -/
theorem checked_of_refused {i : Instr} {r : StaticRefusal} (h : i.staticRefusal = some r) :
    checked i = .error (.static r) := by
  simp [checked, h]

/-- A register field 0000 does not name R15. -/
theorem regField_ne_pc_of_zero {w : Word} {lo : Nat} (h : w.extractLsb' lo 4 = 0#4) : regField w lo ≠ pcReg := by
  rw [show regField w lo = 0 from regField_eq_iff.1 h]
  decide

/-- A word with the fields of an instruction that is not well formed, and 0000 in those that it ignores, is refused for
the instruction's own reason; `decode_of_layout` is the other half. -/
theorem decode_of_layout_refused {i : Instr} {w : Word} {r : StaticRefusal} (hl : i.shape.Layout w)
    (hz : i.ignoredFieldsZero w) (hr : i.staticRefusal = some r) : decode w = .error (.static r) := by
  obtain ⟨hc, hl⟩ := hl
  have herr : checked i.shape.instr = .error (.static r) := by rw [i.instr_shape, checked_of_refused hr]
  unfold Instr.ignoredFieldsZero at hz
  unfold Instr.staticRefusal at hr
  generalize i.shape = x at hc hl hz hr herr
  cases x with
  | write op c sb rn rd o2 =>
    obtain ⟨hop, hs, hrn, hrd, ho⟩ := hl
    simp [decode_of_operand2 hc ho, decodeDp, hop, hs, hrn, hrd, herr, Shape.cond]
  | move op c sb rd o2 =>
    obtain ⟨hop, hs, hrd, ho⟩ := hl
    simp [decode_of_operand2 hc ho, decodeDp, hop, hs, hrd, herr, Shape.cond, regField_ne_pc_of_zero hz]
  | test op c rn o2 =>
    obtain ⟨hop, hs, hrn, ho⟩ := hl
    simp [decode_of_operand2 hc ho, decodeDp, hop, hs, hrn, herr, Shape.cond, regField_ne_pc_of_zero hz]
  | mul c sb rd rs rm =>
    obtain ⟨hf, ha, hs, hrd, hrs, hrm⟩ := hl
    simp [decode_of_fixedBits (f := .multiply) hc hf, decodeFormat, decodeMultiply, ha, hs, hrd, hrs, hrm, herr,
      Shape.cond]
  | mla c sb rd rn rs rm =>
    obtain ⟨⟨hf, ha, hs, hrd, hrs, hrm⟩, hrn⟩ := hl
    simp [decode_of_fixedBits (f := .multiply) hc hf, decodeFormat, decodeMultiply, ha, hs, hrd, hrs, hrm, hrn, herr,
      Shape.cond]
  | transfer op c ix up rn rd off =>
    obtain ⟨⟨hp, hw⟩, hu, ⟨hl, hb⟩, hrn, hrd, ho⟩ := hl
    simp [decode_of_offset hc ho, decodeTransfer, hp, hw, hu, hl, hb, hrn, hrd, herr, Shape.cond]
  | branch | swi => cases hr

/-- An instruction that is not well formed is refused with its own word, whatever its condition (R86 step 2). -/
theorem perform_refused {i : Instr} {r : StaticRefusal} {s : State} {effect : Result} (h : i.staticRefusal = some r) :
    perform i s effect = .refused (staticOutcome r (encode i)) := by
  simp [perform, h]

/-- Settles O13: the encoder's word has the instruction's fields, and `perform` looks at the static refusal first. -/
theorem illFormedInstructionsAreRefusedAlike : Obligations.IllFormedInstructionsAreRefusedAlike := by
  intro i r s hr
  obtain ⟨hl, hz⟩ := layout_encode i
  exact ⟨decode_of_layout_refused hl hz hr, by rw [exec_eq_shapeEffect, perform_refused hr]⟩

/-- A step whose fetched word decodes is the instruction (R81). -/
theorem step_of_decode {s : State} {w : Word} {i : Instr} (hh : s.halted = false) (hf : fetch s = .ok w)
    (hd : decode w = .ok i) : step s = exec i s := by
  simp [step, hh, hf, hd]

/-- Settles O14: the checks of the fetch let the word through, `fetchChecksInOrder`. -/
theorem stepRunsTheDecodedInstruction : Obligations.StepRunsTheDecodedInstruction := by
  intro s i hh hpc hclean h0 h1 h2 h3 hd
  obtain ⟨-, -, hfetch⟩ := fetchChecksInOrder s hh hpc
  exact step_of_decode hh (hfetch hclean ⟨h0, h1, h2, h3⟩) hd

end Sys2Proof

/-! ### Operand 2: the rotated immediate and the shifts (R100 to R105) -/

namespace Sys2Proof.Machine

section

variable (m : Word) (c : Bool)

/-! The four shifts in arithmetic (R8). -/

theorem shiftLeft_toNat (n : Nat) : (shiftLeft m n).toNat = m.toNat * 2 ^ n % 2 ^ 32 := by
  rw [shiftLeft, BitVec.toNat_shiftLeft, Nat.shiftLeft_eq]

theorem shiftRight_toNat (n : Nat) : (shiftRight m n).toNat = m.toNat / 2 ^ n := by
  rw [shiftRight, BitVec.toNat_ushiftRight, Nat.shiftRight_eq_div_pow]

theorem msb_eq_bit31 : m.msb = m.getLsbD 31 := BitVec.msb_eq_getLsbD_last m

theorem shiftRightArith_bit (n : Nat) {k : Nat} (hk : k < 32) :
    (shiftRightArith m n).getLsbD k = if k + n < 32 then m.getLsbD (k + n) else m.getLsbD 31 := by
  rw [shiftRightArith, BitVec.getLsbD_sshiftRight, msb_eq_bit31, Nat.add_comm n k]
  simp [hk]

/-- Bit `k` of a word rotated right comes from the place that is `n` further on, round the word. -/
theorem rotateRight_bit {n k : Nat} (hn : n < 32) (hk : k < 32) :
    (rotateRight m n).getLsbD k = m.getLsbD ((k + n) % 32) := by
  rw [rotateRight, BitVec.getLsbD_rotateRight, Nat.mod_eq_of_lt hn]
  by_cases h : k < 32 - n
  · have hplace : (k + n) % 32 = n + k := by omega
    simp [h, hplace]
  · have hplace : (k + n) % 32 = k - (32 - n) := by omega
    simp [h, hk, hplace]

/-- A word rotated right is its upper bits, moved down, plus its lower bits, moved to the top. -/
theorem rotateRight_toNat {n : Nat} (hn : n < 32) :
    (rotateRight m n).toNat = m.toNat / 2 ^ n + m.toNat * 2 ^ (32 - n) % 2 ^ 32 := by
  have hpow : 2 ^ n * 2 ^ (32 - n) = 2 ^ 32 := by rw [← Nat.pow_add, Nat.add_sub_cancel' hn.le]
  have hlow : m.toNat * 2 ^ (32 - n) % 2 ^ 32 = (m.toNat % 2 ^ n) <<< (32 - n) := by
    rw [← hpow, Nat.mul_mod_mul_right, Nat.shiftLeft_eq]
  have hhigh : m.toNat / 2 ^ n < 2 ^ (32 - n) :=
    Nat.div_lt_of_lt_mul (hpow ▸ m.isLt)
  rw [rotateRight, BitVec.toNat_rotateRight, Nat.mod_eq_of_lt hn, Nat.shiftRight_eq_div_pow, Nat.shiftLeft_eq, hlow,
    Nat.or_comm, ← Nat.shiftLeft_add_eq_or_of_lt hhigh, Nat.add_comm]

/-- RRX: the flag C above the upper 31 bits (R103). -/
theorem rrx_value_toNat : (rrx m c).value.toNat = c.toNat * 2 ^ 31 + m.toNat / 2 := by
  have hm := m.isLt
  have hc := c.toNat_le
  rw [rrx, BitVec.toNat_ofNat, Nat.mod_eq_of_lt]
  omega

/-! The rotated immediate (R101). -/

theorem rotatedImmediate_bit (rot : BitVec 4) (imm8 : BitVec 8) {k : Nat} (hk : k < 32) :
    (rotatedImmediate rot imm8 c).value.getLsbD k = imm8.getLsbD ((k + 2 * rot.toNat) % 32) := by
  have hrot := rot.isLt
  have hplace : (k + 2 * rot.toNat) % 32 < 32 := Nat.mod_lt _ (by decide)
  refine (rotateRight_bit _ (by omega) hk).trans ?_
  simp [hplace]

/-- The carry-out is bit 31 of the rotated value, or the flag C when nothing is rotated. -/
theorem rotatedImmediate_carry (rot : BitVec 4) (imm8 : BitVec 8) :
    (rotatedImmediate rot imm8 c).carry =
      if rot = 0#4 then c else (rotatedImmediate rot imm8 c).value.getLsbD 31 := by
  rw [← msb_eq_bit31]
  rfl

/-! The rows of the table for an immediate length other than zero (R102); those for zero are the definition's own. -/

/-- A length of 1 to 31 is that of a field of five bits. -/
theorem exists_shift5 {k : Nat} (h0 : k ≠ 0) (h : k < 32) : ∃ n : BitVec 5, n ≠ 0#5 ∧ n.toNat = k := by
  have hk : (BitVec.ofNat 5 k).toNat = k := Nat.mod_eq_of_lt h
  exact ⟨BitVec.ofNat 5 k, fun e => h0 (by simpa [e] using hk.symm), hk⟩

section

variable {n : BitVec 5} (hn : n ≠ 0#5)

include hn

theorem length_ne_zero : n.toNat ≠ 0 := fun h => hn (BitVec.eq_of_toNat_eq h)

theorem shiftByImmediate_lsl :
    shiftByImmediate .lsl n m c = ⟨shiftLeft m n.toNat, m.getLsbD (32 - n.toNat)⟩ := if_neg (length_ne_zero hn)

theorem shiftByImmediate_lsr :
    shiftByImmediate .lsr n m c = ⟨shiftRight m n.toNat, m.getLsbD (n.toNat - 1)⟩ := if_neg (length_ne_zero hn)

theorem shiftByImmediate_asr :
    shiftByImmediate .asr n m c = ⟨shiftRightArith m n.toNat, m.getLsbD (n.toNat - 1)⟩ := if_neg (length_ne_zero hn)

theorem shiftByImmediate_ror :
    shiftByImmediate .ror n m c = ⟨rotateRight m n.toNat, m.getLsbD (n.toNat - 1)⟩ := if_neg (length_ne_zero hn)

end

/-! The rows of the table for a register length (R105). -/

/-- A length of zero is no shift, whatever the type. -/
theorem shiftByRegister_zero (sh : ShiftType) : shiftByRegister sh 0 m c = ⟨m, c⟩ := rfl

/-- A length of 1 to 31 shifts as the same immediate length does. -/
theorem shiftByRegister_eq_shiftByImmediate (sh : ShiftType) {n : BitVec 5} (hn : n ≠ 0#5) :
    shiftByRegister sh n.toNat m c = shiftByImmediate sh n m c := by
  have hlt : n.toNat < 32 := n.isLt
  have h0 : n.toNat ≠ 0 := length_ne_zero hn
  cases sh <;> simp [shiftByRegister, shiftByImmediate, h0, hlt, Nat.mod_eq_of_lt hlt]

/-- A rotation by a length that is no multiple of 32 is one by its last five bits. -/
theorem shiftByRegister_ror_mod {n : Nat} (hn : n % 32 ≠ 0) :
    shiftByRegister .ror n m c = shiftByRegister .ror (n % 32) m c := by
  have h0 : n ≠ 0 := fun h => hn (by rw [h])
  simp [shiftByRegister, h0, hn]

/-- A rotation by a multiple of 32 leaves the word. -/
theorem shiftByRegister_ror_multiple {n : Nat} (h0 : n ≠ 0) (hn : n % 32 = 0) :
    shiftByRegister .ror n m c = ⟨m, m.msb⟩ := by
  rw [shiftByRegister, if_neg h0]
  exact if_pos hn

section

variable {n : Nat} (hn : 32 ≤ n)

include hn

theorem shiftByRegister_lsl_long :
    shiftByRegister .lsl n m c = ⟨0#32, decide (n = 32) && m.getLsbD 0⟩ := by
  rw [shiftByRegister, if_neg (by omega)]
  exact if_neg (by omega)

theorem shiftByRegister_lsr_long :
    shiftByRegister .lsr n m c = ⟨0#32, decide (n = 32) && m.msb⟩ := by
  rw [shiftByRegister, if_neg (by omega)]
  exact if_neg (by omega)

theorem shiftByRegister_asr_long : shiftByRegister .asr n m c = ⟨signFill m, m.msb⟩ := by
  rw [shiftByRegister, if_neg (by omega)]
  exact if_neg (by omega)

end

/-- Every row but RRX and the lengths 0 and 32, in arithmetic. -/
theorem shiftByImmediate_arithmetic {n : BitVec 5} (hn : n ≠ 0#5) :
    (shiftByImmediate .lsl n m c).value.toNat = m.toNat * 2 ^ n.toNat % 2 ^ 32 ∧
    (shiftByImmediate .lsl n m c).carry = m.getLsbD (32 - n.toNat) ∧
    (shiftByImmediate .lsr n m c).value.toNat = m.toNat / 2 ^ n.toNat ∧
    (shiftByImmediate .lsr n m c).carry = m.getLsbD (n.toNat - 1) ∧
    (∀ k, k < 32 → (shiftByImmediate .asr n m c).value.getLsbD k =
      if k + n.toNat < 32 then m.getLsbD (k + n.toNat) else m.getLsbD 31) ∧
    (shiftByImmediate .asr n m c).carry = m.getLsbD (n.toNat - 1) ∧
    (shiftByImmediate .ror n m c).value.toNat = m.toNat / 2 ^ n.toNat + m.toNat * 2 ^ (32 - n.toNat) % 2 ^ 32 ∧
    (shiftByImmediate .ror n m c).carry = m.getLsbD (n.toNat - 1) := by
  rw [shiftByImmediate_lsl m c hn, shiftByImmediate_lsr m c hn, shiftByImmediate_asr m c hn,
    shiftByImmediate_ror m c hn]
  exact ⟨shiftLeft_toNat m _, rfl, shiftRight_toNat m _, rfl, fun k hk => shiftRightArith_bit m _ hk, rfl,
    rotateRight_toNat m n.isLt, rfl⟩

end

end Sys2Proof.Machine

namespace Sys2Proof

open Machine

/-- Settles O19: `rotatedImmediate_bit` and `rotatedImmediate_carry`. -/
theorem rotatedImmediate : Obligations.RotatedImmediate := by
  rintro s w rot imm8 rfl rfl
  exact ⟨rfl, fun k hk => rotatedImmediate_bit _ _ _ hk, rotatedImmediate_carry _ _ _⟩

/-- Settles O20: the fields by `operand2ShiftImm`, the rows for a length of zero as the definition has them, the others
by `shiftByImmediate_arithmetic`. -/
theorem shiftsByAnImmediateLength : Obligations.ShiftsByAnImmediateLength := by
  rintro s w rm n rfl rfl
  refine ⟨?lsl, ?lsr, ?asr, ?ror, ?zero, shiftByImmediate_arithmetic (s.reg (regField w 0)) s.flags.c⟩
  case lsl | lsr | asr | ror => intro h; rw [operand2ShiftImm, h]; rfl
  case zero =>
    intro h
    rw [h, ← msb_eq_bit31]
    exact ⟨rfl, rfl, rfl, rrx_value_toNat _ _, rfl⟩

/-- Settles O21: the lengths 1 to 31, and the rotations by what is no multiple of 32, are immediate lengths; the rows
for zero and from 32 on are those of `shiftByRegister`. -/
theorem shiftsByARegisterLength : Obligations.ShiftsByARegisterLength := by
  rintro s rm rs n m hn rfl
  have hshift (sh : ShiftType) : shifterOperand s (.shiftReg rm sh rs) = shiftByRegister sh n (s.reg rm) s.flags.c := by
    rw [hn]
    rfl
  simp only [hshift, ← msb_eq_bit31]
  clear hn hshift
  generalize s.reg rm = m
  generalize s.flags.c = c
  refine ⟨?zero, ?short, ?word, ?beyond, shiftByRegister_asr_long m c, shiftByRegister_ror_multiple m c, ?ror⟩
  case zero =>
    rintro rfl
    exact shiftByRegister_zero m c
  case short =>
    rintro ⟨h1, h31⟩
    have h0 : n ≠ 0 := by omega
    obtain ⟨l, hl, rfl⟩ := exists_shift5 h0 (Nat.lt_succ_of_le h31)
    obtain ⟨hlsl, hlslC, hlsr, hlsrC, hasr, hasrC, -⟩ := shiftByImmediate_arithmetic m c hl
    simp only [shiftByRegister_eq_shiftByImmediate m c _ hl, msb_eq_bit31]
    exact ⟨hlsl, hlslC, hlsr, hlsrC, hasr, hasrC⟩
  case word =>
    rintro rfl
    rw [shiftByRegister_lsl_long m c le_rfl, shiftByRegister_lsr_long m c le_rfl]
    exact ⟨rfl, rfl⟩
  case beyond =>
    intro h
    have hne : n ≠ 32 := by omega
    have hlong : 32 ≤ n := by omega
    simp [shiftByRegister_lsl_long m c hlong, shiftByRegister_lsr_long m c hlong, hne]
  case ror =>
    intro h
    have hlt : n % 32 < 32 := Nat.mod_lt n (by decide)
    obtain ⟨l, hl, hmod⟩ := exists_shift5 h hlt
    rw [shiftByRegister_ror_mod m c h, ← hmod, shiftByRegister_eq_shiftByImmediate m c _ hl]
    obtain ⟨-, -, -, -, -, -, hror⟩ := shiftByImmediate_arithmetic m c hl
    exact hror

end Sys2Proof

/-! ### Data processing: the flags, and the whole next state (R110 to R114, R120 to R136) -/

namespace Sys2Proof.Machine

/-! The flags of the line (*) of R113, in the terms of R110 and R111. -/

section

variable (a b : Word) (cin : Bool)

theorem flagsOf_sum {r : Word} (h : (addWithCarry a b cin).result = r) :
    flagsOf (addWithCarry a b cin) = sumFlags r a b cin := by
  subst h
  rfl

/-- The carry out of the sum with the complement is the absence of a borrow. -/
theorem complement_carry_iff :
    2 ^ 32 ≤ a.toNat + (~~~b).toNat + cin.toNat ↔ b.toNat + 1 ≤ a.toNat + cin.toNat := by
  have hb := b.isLt
  rw [BitVec.toNat_not]
  omega

theorem flagsOf_difference {r : Word} (h : (addWithCarry a (~~~b) cin).result = r) :
    flagsOf (addWithCarry a (~~~b) cin) = differenceFlags r a b cin := by
  have hsigned : a.toInt + (~~~b).toInt + (cin.toNat : Int) = a.toInt - b.toInt + cin.toNat - 1 := by
    rw [complement_toInt]
    omega
  rw [flagsOf_sum a (~~~b) cin h]
  simp only [sumFlags, differenceFlags, complement_carry_iff, hsigned]

end

section

variable (a b : Word) (sc : Bool) (f : Flags)

theorem writeAlu_flags (op : WriteOp) : flagsOf (writeAlu op a b sc f) = op.flags a b sc f := by
  have hresult := writeAlu_result op a b sc f
  cases op with
  | and | eor | orr | bic => rfl
  | sub | sbc => exact flagsOf_difference a b _ hresult
  | rsb | rsc =>
    have hcomm := addWithCarry_comm (~~~a) b
    exact (congrArg flagsOf (hcomm _)).trans (flagsOf_difference b a _ (hcomm _ ▸ hresult))
  | add | adc => exact flagsOf_sum a b _ hresult

theorem moveAlu_flags (op : MoveOp) : flagsOf (moveAlu op b sc f) = logicalFlags (op.effect b) sc f := by
  cases op with
  | mov => rfl
  | mvn => rfl

/-- TST and TEQ set the flags of a logical operation (R110). -/
theorem testAlu_flags_logical {op : TestOp} (h : op = .tst ∨ op = .teq) :
    flagsOf (testAlu op a b sc f) = logicalFlags (op.effect a b) sc f := by
  rcases h with rfl | rfl <;> rfl

theorem testAlu_flags_cmp : flagsOf (testAlu .cmp a b sc f) = differenceFlags (a - b) a b true :=
  flagsOf_difference a b true (addWithCarry_complement_result a b)

theorem testAlu_flags_cmn : flagsOf (testAlu .cmn a b sc f) = sumFlags (a + b) a b false :=
  flagsOf_sum a b false (writeAlu_result .add a b sc f)

end

/-! The ends of the templates (R113). -/

section

variable {s : State}

/-- A write of one of R0 to R14 completes. -/
theorem State.writeRd_of_lt {rd : Reg} (h : rd.val < 15) (v : Word) :
    s.writeRd rd v = .next { s with regs := s.regs.set rd.val v h, pc := s.pc + 4#32 } := by
  have hne : rd ≠ pcReg := by
    rintro rfl
    exact absurd h (by decide)
  rw [State.writeRd, if_neg hne, State.setReg, dif_pos h]
  rfl

/-- A register whose place in the register file has been set reads the value set. -/
theorem State.reg_of_set {t : State} {r : Reg} (h : r.val < 15) {v : Word} (ht : t.regs = s.regs.set r.val v h) :
    t.reg r = v := by
  simp only [State.reg_of_lt t r h, ht, Vector.getElem_set_self]

theorem dpFinish_of_lt (sb : Bool) {rd : Reg} (h : rd.val < 15) (o : AluOut) :
    dpFinish sb rd o s = .next { s with
      regs := s.regs.set rd.val o.result h
      flags := if sb then flagsOf o else s.flags
      pc := s.pc + 4#32 } := by
  rw [dpFinish, State.writeRd_of_lt h]
  cases sb <;> rfl

theorem dpTest_eq (alu : Word → Word → Bool → Flags → AluOut) (rn : Reg) (o2 : Operand2) :
    dpTest alu rn o2 s = .next { s with
      flags := flagsOf (alu (s.reg rn) (shifterOperand s o2).value (shifterOperand s o2).carry s.flags)
      pc := s.pc + 4#32 } := rfl

/-- Each of the ten operations with operands Rd, Rn and Op2 completes when Rd is one of R0 to R14. -/
theorem exec_write_of_lt {op : WriteOp} {c : Cond} {sb : Bool} {rn rd : Reg} {o2 : Operand2} (h : rd.val < 15)
    (hw : WellFormed (Shape.instr (.write op c sb rn rd o2))) (hc : condPassed c s.flags = true) :
    exec (Shape.instr (.write op c sb rn rd o2)) s =
      .next { s with
        regs := s.regs.set rd.val (op.effect (s.reg rn) (shifterOperand s o2).value s.flags.c) h
        flags := if sb then op.flags (s.reg rn) (shifterOperand s o2).value (shifterOperand s o2).carry s.flags
          else s.flags
        pc := s.pc + 4#32 } := by
  rw [exec_instr_passed hw hc, shapeEffect, dpWrite, dpFinish_of_lt sb h, writeAlu_result, writeAlu_flags]

end

/-! The conditions after a comparison (R82, R111). -/

section

variable (a b : Word)

theorem differenceFlags_z : (differenceFlags (a - b) a b true).z = decide (a = b) := by
  have h : a - b = 0#32 ↔ a = b := by bv_omega
  simp only [differenceFlags, h]

theorem differenceFlags_c : (differenceFlags (a - b) a b true).c = decide (b.toNat ≤ a.toNat) := by
  simp only [differenceFlags, Bool.toNat_true, Nat.add_le_add_iff_right]

/-- A difference of two signed words, brought into the signed range, keeps its sign exactly when it was in the range. -/
theorem bmod_word_neg_iff {x : Int} (hlow : -2 ^ 32 < x) (hhigh : x < 2 ^ 32) :
    x.bmod (2 ^ 32) < 0 ↔ (x < 0 ↔ x.bmod (2 ^ 32) = x) := by
  rw [Int.bmod_def]
  split <;> omega

/-- N differs from V exactly when the signed difference is negative: N is its sign when it fits in 32 bits, and the
opposite of its sign when it does not. -/
theorem differenceFlags_n_bne_v :
    ((differenceFlags (a - b) a b true).n != (differenceFlags (a - b) a b true).v) = decide (a.toInt < b.toInt) := by
  have ha := a.toInt_lt
  have ha' := a.le_toInt
  have hb := b.toInt_lt
  have hb' := b.le_toInt
  have hwrap : (a - b).toInt = (a.toInt - b.toInt).bmod (2 ^ 32) := BitVec.toInt_sub
  have hsign := bmod_word_neg_iff (x := a.toInt - b.toInt) (by omega) (by omega)
  simp only [differenceFlags, BitVec.msb_eq_toInt, hwrap, Bool.toNat_true, Nat.cast_one, add_sub_cancel_right]
  generalize (a.toInt - b.toInt).bmod (2 ^ 32) = r at hsign
  rw [Bool.eq_iff_iff, bne_iff_ne, Ne, decide_eq_decide, decide_eq_true_iff]
  omega

end

end Sys2Proof.Machine

namespace Sys2Proof

open Machine

/-- Settles O24, by `exec_write_of_lt`. -/
theorem logicalWritesComplete : Obligations.LogicalWritesComplete :=
  fun _ _ _ _ _ _ _ h _ hw hc => exec_write_of_lt h hw hc

/-- Settles O25, by `exec_write_of_lt`. -/
theorem arithmeticWritesComplete : Obligations.ArithmeticWritesComplete :=
  fun _ _ _ _ _ _ _ h _ hw hc => exec_write_of_lt h hw hc

/-- Settles O26: the template's end `dpFinish_of_lt` with the result and the flags of `moveAlu`. -/
theorem movesComplete : Obligations.MovesComplete := by
  intro op c sb rd o2 s h hw hc
  rw [exec_instr_passed hw hc, shapeEffect, dpMove, dpFinish_of_lt sb h, moveAlu_result, moveAlu_flags]

/-- Settles O27: the template of the compares with `testAlu_flags_logical`. -/
theorem testsComplete : Obligations.TestsComplete := by
  intro op c rn o2 s hop hw hc
  rw [exec_instr_passed hw hc, shapeEffect, dpTest_eq, testAlu_flags_logical _ _ _ _ hop]

/-- Settles O28: the template of the compares with `testAlu_flags_cmp` and `testAlu_flags_cmn`. -/
theorem comparesComplete : Obligations.ComparesComplete := by
  rintro c rn o2 s a b rfl rfl hc
  constructor
  · intro hw
    rw [exec_instr_passed hw hc, shapeEffect, dpTest_eq, testAlu_flags_cmp]
  · intro hw
    rw [exec_instr_passed hw hc, shapeEffect, dpTest_eq, testAlu_flags_cmn]

/-- Settles O23: the next state is that of `comparesComplete`, and each condition reads Z, C or whether N differs from V
in `differenceFlags`. -/
theorem compareOrdersItsOperands : Obligations.CompareOrdersItsOperands := by
  intro c rn o2 s hw hc
  refine ⟨_, (comparesComplete c rn o2 s _ _ rfl rfl hc).1 hw, ?_⟩
  rintro a b rfl rfl
  generalize s.reg rn = a
  generalize (shifterOperand s o2).value = b
  have hz := differenceFlags_z a b
  have hcarry := differenceFlags_c a b
  have hnv := differenceFlags_n_bne_v a b
  generalize differenceFlags (a - b) a b true = f at hz hcarry hnv
  have hge : (f.n == f.v) = !decide (a.toInt < b.toInt) := by rw [← hnv, bne, Bool.not_not]
  have hunsigned : a = b ↔ a.toNat = b.toNat := BitVec.toNat_inj.symm
  have hsigned : a = b ↔ a.toInt = b.toInt := BitVec.toInt_inj.symm
  refine ⟨?eq, ?ne, ?cs, ?cc, ?hi, ?ls, ?ge, ?lt, ?gt, ?le⟩
  case eq | ne => simp [condPassed, hz]
  case cs | cc => simp [condPassed, hcarry]
  case hi | ls =>
    simp only [condPassed, hz, hcarry, hunsigned, Bool.and_eq_true, Bool.or_eq_true, Bool.not_eq_true',
      decide_eq_true_iff, decide_eq_false_iff_not]
    omega
  case ge | lt => simp [condPassed, hnv, hge]
  case gt | le =>
    simp only [condPassed, hz, hnv, hge, hsigned, Bool.and_eq_true, Bool.or_eq_true, Bool.not_eq_true',
      decide_eq_true_iff, decide_eq_false_iff_not]
    omega

/-- Settles O31: the sum of `exec_write_of_lt`, with four times R0 for operand 2. -/
theorem addShiftedMultipliesByFive : Obligations.AddShiftedMultipliesByFive := by
  refine ⟨rfl, fun s => ⟨_, exec_write_of_lt (op := .add) (o2 := .shiftImm 0 .lsl 2) (rd := 0) (by decide) rfl rfl,
    ?_, rfl⟩⟩
  have hshift : (shifterOperand s (.shiftImm 0 .lsl 2)).value.toNat = (s.reg 0).toNat * 4 % 2 ^ 32 :=
    shiftLeft_toNat (s.reg 0) 2
  rw [State.reg_of_set (s := s) (by decide) rfl, WriteOp.effect, BitVec.toNat_add, hshift]
  omega

end Sys2Proof

/-! ### R15 in the register fields of data processing words (R108, R109) -/

namespace Sys2Proof

open Machine

section

variable {w : Word} {c : Cond} {o2 : Operand2}

/-- A register field 1111 names R15. -/
theorem regField_pc_iff {lo : Nat} : w.extractLsb' lo 4 = 0xF#4 ↔ regField w lo = pcReg :=
  regField_eq_iff (r := pcReg)

/-- The check of the static refusals, for an instruction given by its shape. -/
theorem checked_shape_of_refused {x : Shape} {r : StaticRefusal} (h : x.staticRefusal = some r) :
    checked x.instr = .error (.static r) :=
  checked_of_refused (x.staticRefusal_instr.trans h)

/-- The operation of a word that is not a compare with S = 0 is a compare only with S = 1. -/
theorem sBit_of_test {op : TestOp} (hop : DpOp.ofBits (w.extractLsb' 21 4) = .test op)
    (hs : ¬ (w.extractLsb' 23 2 = 0b10#2 ∧ bitField w 20 = false)) : bitField w 20 = true := by
  have hbits : op.opcode.extractLsb' 2 2 = 0b10#2 := by cases op <;> rfl
  have hsub : (w.extractLsb' 21 4).extractLsb' 2 2 = w.extractLsb' 23 2 := extract_extract w (by decide)
  have hcompare : w.extractLsb' 23 2 = 0b10#2 := by rw [← hsub, DpOp.opcode_of_ofBits hop]; exact hbits
  exact Bool.eq_true_of_not_eq_false fun h => hs ⟨hcompare, h⟩

/-! The register-shift form with R15 in a field that the instruction uses (R108). -/

section

variable {sb : Bool} {rn rd rm rs : Reg} {sh : ShiftType}

theorem writeRefusal_of_pc_regShift (h : rn = pcReg ∨ rd = pcReg ∨ rs = pcReg ∨ rm = pcReg) :
    writeRefusal sb rn rd (.shiftReg rm sh rs) = some .r15InRegShiftForm := by
  refine if_pos ?_
  simp only [Operand2.regShiftNamesPc, Operand2.isRegShift, Bool.true_and, Bool.or_eq_true, beq_iff_eq]
  tauto

theorem moveRefusal_of_pc_regShift (h : rd = pcReg ∨ rs = pcReg ∨ rm = pcReg) :
    moveRefusal sb rd (.shiftReg rm sh rs) = some .r15InRegShiftForm := by
  refine if_pos ?_
  simp only [Operand2.regShiftNamesPc, Operand2.isRegShift, Bool.true_and, Bool.or_eq_true, beq_iff_eq]
  tauto

theorem testRefusal_of_pc_regShift (h : rn = pcReg ∨ rs = pcReg ∨ rm = pcReg) :
    testRefusal rn (.shiftReg rm sh rs) = some .r15InRegShiftForm := by
  refine if_pos ?_
  simp only [Operand2.regShiftNamesPc, Operand2.isRegShift, Bool.true_and, Bool.or_eq_true, beq_iff_eq]
  tauto

end

/-- R15 in any of the four register fields of the register-shift form is refused, whatever the operation (R108). -/
theorem decodeDp_of_pc_regShift (hs : ¬ (w.extractLsb' 23 2 = 0b10#2 ∧ bitField w 20 = false))
    (hpc : regField w 16 = pcReg ∨ regField w 12 = pcReg ∨ regField w 8 = pcReg ∨ regField w 0 = pcReg) :
    decodeDp c (operand2ShiftReg w) w = .error (.static .r15InRegShiftForm) := by
  have hreg : (operand2ShiftReg w).isRegShift = true := rfl
  cases hop : DpOp.ofBits (w.extractLsb' 21 4) with
  | write op =>
    simp only [decodeDp, hop]
    exact checked_shape_of_refused (writeRefusal_of_pc_regShift hpc)
  | move op =>
    by_cases hrn : regField w 16 = pcReg
    · simp [decodeDp, hop, hreg, hrn]
    · have hused := hpc.resolve_left hrn
      simp only [decodeDp, hop, hreg, Bool.true_and, beq_iff_eq, if_neg hrn]
      exact checked_shape_of_refused (moveRefusal_of_pc_regShift hused)
  | test op =>
    have h20 := sBit_of_test hop hs
    by_cases hrd : regField w 12 = pcReg
    · simp [decodeDp, hop, hreg, h20, hrd]
    · have hused : regField w 16 = pcReg ∨ regField w 8 = pcReg ∨ regField w 0 = pcReg :=
        hpc.imp_right fun h => h.resolve_left hrd
      simp only [decodeDp, hop, h20, Bool.not_true, Bool.false_eq_true, if_false, beq_iff_eq, if_neg hrd]
      exact checked_shape_of_refused (testRefusal_of_pc_regShift hused)

/-- Operand 2 that is no register shift length does not come under R108. -/
theorem regShiftNamesPc_of_not_regShift (h : o2.isRegShift = false) : o2.regShiftNamesPc = false := by
  cases o2 with
  | imm | shiftImm => rfl
  | shiftReg => cases h

/-- R15 in the Rd field with S = 1 is refused in the two other forms, whatever the operation (R109). -/
theorem decodeDp_of_pc_dest (ho : o2.isRegShift = false) (hs : bitField w 20 = true) (hrd : regField w 12 = pcReg) :
    decodeDp c o2 w = .error (.static .r15DestWithS) := by
  have hnames := regShiftNamesPc_of_not_regShift ho
  cases hop : DpOp.ofBits (w.extractLsb' 21 4) with
  | write op =>
    simp only [decodeDp, hop]
    exact checked_shape_of_refused (by simp [Shape.staticRefusal, writeRefusal, ho, hnames, hs, hrd])
  | move op =>
    simp only [decodeDp, hop, ho, Bool.false_and]
    exact checked_shape_of_refused (by simp [Shape.staticRefusal, moveRefusal, ho, hnames, hs, hrd])
  | test op => simp [decodeDp, hop, ho, hs, hrd]

/-- A word with bit 25 set or bit 4 clear holds an operand 2 of one of the two forms without a register length. -/
theorem isRegShift_eq_false (h : o2.IsIn w) (hform : bitField w 25 = true ∨ bitField w 4 = false) :
    o2.isRegShift = false := by
  cases o2 with
  | imm | shiftImm => rfl
  | shiftReg rm sh rs =>
    obtain ⟨hg, hr⟩ := h
    obtain ⟨-, -, -, h4, -⟩ := reads_shiftReg.1 hr
    have h25 : bitField w 25 = (w.extractLsb' 25 3).getLsbD 0 := by simp [bitField]
    rw [hg, Operand2.group] at h25
    rcases hform with h | h
    · exact absurd (h25.symm.trans h) (by decide)
    · exact absurd (h4.symm.trans h) (by decide)

end

/-- Settles O10: `decodeDp_of_pc_regShift` and `decodeDp_of_pc_dest`, for the operand 2 that the word's format gives. -/
theorem pcFieldsOfDataProcessingAreRefused : Obligations.PcFieldsOfDataProcessingAreRefused := by
  intro w hcond hdp hs
  obtain ⟨c, hc⟩ := exists_cond hcond
  simp only [regField_pc_iff]
  constructor
  · intro h25 h4 h7 hpc
    have hgroup : w.extractLsb' 25 3 = 0b000#3 := by
      rcases group_of_dataProcessing hdp with ⟨-, h⟩ | ⟨h, -⟩
      · exact absurd (h.symm.trans h25) (by decide)
      · exact h
    refine refusedAtDecode_of_error (r := .static .r15InRegShiftForm) ?_
    rw [decode_of_fixedBits (f := .dpShiftByRegister) hc ⟨hgroup, h4, h7⟩]
    exact decodeDp_of_pc_regShift hs hpc
  · intro hform h20 hrd
    refine refusedAtDecode_of_error (r := .static .r15DestWithS) ?_
    obtain ⟨o2, ho⟩ := exists_operand2 hdp (hform.imp_right .inl)
    rw [decode_of_operand2 hc ho]
    exact decodeDp_of_pc_dest (isRegShift_eq_false ho hform) h20 hrd

end Sys2Proof

/-! ### Branches (R151 to R156) -/

namespace Sys2Proof.Machine

section

variable {c : Cond} {off : BitVec 24} {s : State}

/-- The target is the branch's own address plus 8 plus four times the signed offset, modulo 2^32 (R151). -/
theorem branchTarget_toNat (pc : Word) (off : BitVec 24) :
    ((branchTarget pc off).toNat : Int) = (pc.toNat + 8 + off.toInt * 4) % 2 ^ 32 := by
  simp only [branchTarget, BitVec.toNat_add, BitVec.toNat_ofNat, BitVec.toNat_ofInt]
  omega

/-- B moves the pc to its target (R153). -/
theorem exec_b_passed (hc : condPassed c s.flags = true) :
    exec (.b c off) s = .next { s with pc := branchTarget s.pc off } :=
  exec_instr_passed (x := .branch .b c off) rfl hc

/-- BL puts the address of the next instruction into R14 and moves the pc to its target (R154). -/
theorem exec_bl_passed (hc : condPassed c s.flags = true) :
    exec (.bl c off) s =
      .next { s with regs := s.regs.set 14 (s.pc + 4#32), pc := branchTarget s.pc off } :=
  exec_instr_passed (x := .branch .bl c off) rfl hc

end

/-- Settles O43: the next state is that of `exec_bl_passed`. -/
theorem branchWithLinkCompletes : Obligations.BranchWithLinkCompletes := fun _ off s hc =>
  ⟨_, exec_bl_passed hc, branchTarget_toNat s.pc off, branchTarget_aligned off, rfl⟩

/-- Settles O42: the next state of B is that of `exec_b_passed`; BL goes where `branchWithLinkCompletes` says. -/
theorem branchGoesToItsTarget : Obligations.BranchGoesToItsTarget := by
  intro c off s hc
  obtain ⟨t, ht, hpc, haligned, -⟩ := branchWithLinkCompletes c off s hc
  exact ⟨⟨_, exec_b_passed hc, branchTarget_toNat s.pc off, branchTarget_aligned off, rfl⟩, t, ht, hpc, haligned⟩

/-! The range of a branch (R155). -/

/-- A signed 24-bit offset spans -2^25 to 2^25 - 4 bytes. -/
theorem branch_distance_bounds (off : BitVec 24) : -2 ^ 25 ≤ off.toInt * 4 ∧ off.toInt * 4 ≤ 2 ^ 25 - 4 := by
  have hlow := off.le_toInt
  have hhigh := off.toInt_lt
  omega

/-- The offset of a distance in range, a multiple of 4, leads over that distance. -/
theorem offset_of_distance {d : Int} (hd : d % 4 = 0) (hlow : -2 ^ 25 ≤ d) (hhigh : d ≤ 2 ^ 25 - 4) :
    (BitVec.ofInt 24 (d / 4)).toInt * 4 = d := by
  rw [BitVec.toInt_ofInt_eq_self (by decide) (by omega) (by omega)]
  omega

/-- Between multiples of 4 the assembler's check is that the distance is in range. -/
theorem branchOffset_of_aligned {A T : Word} (hA : A.toNat % 4 = 0) (hT : T.toNat % 4 = 0) :
    branchOffset A T =
      if -2 ^ 25 ≤ (T.toNat : Int) - (A.toNat + 8) ∧ (T.toNat : Int) - (A.toNat + 8) ≤ 2 ^ 25 - 4 then
        some (BitVec.ofInt 24 (((T.toNat : Int) - (A.toNat + 8)) / 4))
      else none := by
  simp only [branchOffset, hA, hT, true_and]

/-- A branch over the distance from `A + 8` to `T` goes to `T`. -/
theorem branchTarget_eq_of_distance {A T : Word} {off : BitVec 24}
    (h : off.toInt * 4 = (T.toNat : Int) - (A.toNat + 8)) :
    branchTarget A off = T := by
  have hT := T.isLt
  have htarget := branchTarget_toNat A off
  apply BitVec.eq_of_toNat_eq
  omega

/-- Settles O44: in range the offset leads over the distance (`offset_of_distance`) and so to the label
(`branchTarget_eq_of_distance`); out of range the assembler's check fails. -/
theorem branchesReachTheirRange : Obligations.BranchesReachTheirRange := by
  refine ⟨fun A T hA hT => ?_, branch_distance_bounds⟩
  rw [branchOffset_of_aligned hA hT]
  constructor
  · intro hlow hhigh
    have hmultiple : ((T.toNat : Int) - (A.toNat + 8)) % 4 = 0 := by omega
    exact ⟨if_pos ⟨hlow, hhigh⟩, branchTarget_eq_of_distance (offset_of_distance hmultiple hlow hhigh)⟩
  · intro hout
    exact if_neg (by omega)

/-! The return (R156). -/

/-- After a BL that branched, R14 reads the address of the next instruction (R152). -/
theorem reg_link_of_bl {c : Cond} {off : BitVec 24} {s t : State} (hc : condPassed c s.flags = true)
    (h : exec (.bl c off) s = .next t) : t.reg linkReg = s.pc + 4#32 := by
  rw [exec_bl_passed hc] at h
  injection h with h
  subst h
  exact State.reg_of_set (s := s) (by decide) rfl

/-- `MOV PC, LR` jumps to what R14 holds, when that is a multiple of 4 (R109). -/
theorem exec_movPcLr {u : State} (h : (u.reg linkReg).toNat % 4 = 0) :
    exec (.movShiftImm .al false pcReg linkReg .lsl 0) u = .next { u with pc := u.reg linkReg } := by
  obtain ⟨-, hmove⟩ := dataProcessingJumps
  exact (hmove .mov .al (.shiftImm linkReg .lsl 0) u (u.reg linkReg) rfl rfl rfl).trans (if_pos h)

/-- Settles O45: BL leaves the address of the next instruction in R14 (`reg_link_of_bl`), a multiple of 4, and
`exec_movPcLr` jumps there. -/
theorem movPcLrReturnsFromACall : Obligations.MovPcLrReturnsFromACall := by
  intro c off s t u hpc hc hcall hlink
  have hreturn : u.reg linkReg = s.pc + 4#32 := hlink.trans (reg_link_of_bl hc hcall)
  have haligned : (s.pc + 4#32).toNat % 4 = 0 := by bv_omega
  refine ⟨rfl, ?_⟩
  rw [← hreturn] at haligned ⊢
  exact exec_movPcLr haligned

end Sys2Proof.Machine

/-! ### SWI (R160 to R169) -/

namespace Sys2Proof.Machine

/-- SWI whose condition passes is the service of its number (R160, R161). -/
theorem exec_swi_passed {c : Cond} {imm24 : BitVec 24} {s : State} (hc : condPassed c s.flags = true) :
    exec (.swi c imm24) s = swiService imm24 s :=
  exec_instr_passed (x := .swi c imm24) rfl hc

/-- Any number from 5 on is no service (R168). -/
theorem swiService_of_five_le {imm24 : BitVec 24} {s : State} (h : 5 ≤ imm24.toNat) :
    swiService imm24 s = raise (.swiError imm24 s.pc) := by
  unfold swiService
  split
  case h_6 => rfl
  all_goals omega

/-- Settles O46: the service of number 0 is the next state that the statement writes out. -/
theorem swiZeroPrintsACharacter : Obligations.SwiZeroPrintsACharacter := fun _ _ hc =>
  exec_swi_passed hc

/-- Settles O49: the service of number 2 is the next state that the statement writes out. -/
theorem swiTwoHalts : Obligations.SwiTwoHalts := fun _ _ hc =>
  exec_swi_passed hc

/-- Settles O53, by `swiService_of_five_le`. -/
theorem swiOfAnyOtherNumberTraps : Obligations.SwiOfAnyOtherNumberTraps := fun _ _ _ hc h =>
  (exec_swi_passed hc).trans (swiService_of_five_le h)

/-! SWI 1, input a character (R164). -/

/-- Without a character left SWI 1 changes nothing (log entry 8). -/
theorem swiGetChar_of_none {s : State} (h : s.input[s.inpos]? = none) : swiGetChar s = .next s := by
  simp only [swiGetChar, h]

/-- With a character left SWI 1 consumes it into R0. -/
theorem swiGetChar_of_some {s : State} {ch : Byte} (h : s.input[s.inpos]? = some ch) :
    swiGetChar s = .next { s with
      regs := s.regs.set 0 (inputWord (Config.swi1Upper s.draws) ch), inpos := s.inpos + 1,
      draws := s.draws + 1, pc := s.pc + 4#32 } := by
  simp only [swiGetChar, h]
  rfl

/-- Whatever is drawn for the upper bits, the low byte is the character. -/
theorem inputWord_low_byte (upper : BitVec 24) (ch : Byte) : (inputWord upper ch).extractLsb' 0 8 = ch := by
  have hupper := upper.isLt
  have hch := ch.isLt
  apply BitVec.eq_of_toNat_eq
  simp only [inputWord, BitVec.extractLsb'_toNat, BitVec.toNat_ofNat, Nat.shiftRight_zero]
  omega

/-- A register other than the one whose place in the register file has been set, and than R15, reads as before. -/
theorem State.reg_of_set_ne {s t : State} {q r : Reg} (h : q.val < 15) {v : Word}
    (ht : t.regs = s.regs.set q.val v h) (hr : r ≠ q) (hpc : r ≠ pcReg) : t.reg r = s.reg r := by
  have hlt := Reg.lt_of_ne_pc hpc
  simp only [State.reg_of_lt _ r hlt, ht]
  exact Vector.getElem_set_ne h hlt fun e => hr (Fin.ext e.symm)

/-- Settles O48, by `swiGetChar_of_none`. -/
theorem swiOneWaitsForInput : Obligations.SwiOneWaitsForInput := fun _ _ hc hwaits =>
  (exec_swi_passed hc).trans (swiGetChar_of_none hwaits)

/-- Settles O47: the next state is that of `swiGetChar_of_some`, which writes R0 alone. -/
theorem swiOneReadsACharacter : Obligations.SwiOneReadsACharacter := by
  intro c s ch hc hch
  refine ⟨_, (exec_swi_passed hc).trans (swiGetChar_of_some hch), ?_, rfl, fun r hr hpc => ?_, rfl⟩
  · rw [State.reg_of_set (s := s) (r := 0) (by decide) rfl]
    exact inputWord_low_byte _ ch
  · exact State.reg_of_set_ne (s := s) (q := 0) (by decide) rfl hr hpc

/-! SWI 3, print a string (R166). -/

section

variable {s : State} {a : Word} {k fuel : Nat}

/-- The loop of SWI 3 goes on past the byte at an address: it is valid and not zero. -/
def State.Continues (s : State) (a : Word) : Prop := s.isValid a = true ∧ s.readByte a ≠ 0#8

theorem State.not_continues_of_zero (h : s.readByte a = 0#8) : ¬ s.Continues a := fun hgo => hgo.2 h

theorem State.not_continues_of_invalid (h : s.isValid a = false) : ¬ s.Continues a := fun hgo => by
  simp [hgo.1] at h

/-- The loop goes on past every byte that precedes its end, so the end that `readString_cases` finds is the first byte
that it does not go on past. -/
theorem readString_of_first_stop (hk : k < fuel) (hgo : ∀ j, j < k → s.Continues (a + BitVec.ofNat 32 j))
    (hstop : ¬ s.Continues (a + BitVec.ofNat 32 k)) :
    readString s fuel a =
      if s.isValid (a + BitVec.ofNat 32 k) then
        .ok (some ((List.range k).map fun j => s.readByte (a + BitVec.ofNat 32 j)))
      else .error (.memFault (a + BitVec.ofNat 32 k) .load s.pc) := by
  rcases readString_cases s fuel a with ⟨m, -, hm, hend⟩ | ⟨hall, -⟩
  · have hmstop : ¬ s.Continues (a + BitVec.ofNat 32 m) := by
      rcases hend with ⟨-, hzero, -⟩ | ⟨hinvalid, -⟩
      · exact State.not_continues_of_zero hzero
      · exact State.not_continues_of_invalid hinvalid
    have hkm : m = k :=
      le_antisymm (not_lt.1 fun h => hstop (hm k h)) (not_lt.1 fun h => hmstop (hgo m h))
    subst hkm
    rcases hend with ⟨hvalid, -, e⟩ | ⟨hinvalid, e⟩
    · rw [e, if_pos hvalid]
    · rw [e, if_neg (by simp [hinvalid])]
  · exact absurd (hall k hk) hstop

/-- When every byte of the address space is valid and not zero, the loop finds no end within any fuel. -/
theorem readString_of_endless (h : ∀ b, s.Continues b) : readString s fuel a = .ok none := by
  rcases readString_cases s fuel a with ⟨k, -, -, ⟨-, hzero, -⟩ | ⟨hinvalid, -⟩⟩ | ⟨-, e⟩
  · exact absurd (h _) (State.not_continues_of_zero hzero)
  · exact absurd (h _) (State.not_continues_of_invalid hinvalid)
  · exact e

/-- A string that ends is printed. -/
theorem swiPutString_of_some {str : List Byte} (h : readString s (2 ^ 32) (s.reg r0) = .ok (some str)) :
    swiPutString s = .next (s.print str).advance := by
  simp only [swiPutString, h]

/-- A string without an end changes nothing (log entry 12). -/
theorem swiPutString_of_none (h : readString s (2 ^ 32) (s.reg r0) = .ok none) : swiPutString s = .next s := by
  simp only [swiPutString, h]

/-- A fault of the loop is the fault of SWI 3 (R38). -/
theorem swiPutString_of_error {f : Fault} (h : readString s (2 ^ 32) (s.reg r0) = .error f) :
    swiPutString s = .fault f := by
  simp only [swiPutString, h, raise]

end

/-- Settles O50: the byte `k` is the first that the loop does not go on past (`readString_of_first_stop`). -/
theorem swiThreePrintsAString : Obligations.SwiThreePrintsAString := by
  intro c s k hc hk hgo
  constructor
  · intro hvalid hzero
    have hread := readString_of_first_stop hk hgo (State.not_continues_of_zero hzero)
    rw [if_pos hvalid] at hread
    exact (exec_swi_passed hc).trans (swiPutString_of_some hread)
  · intro hinvalid
    have hread := readString_of_first_stop hk hgo (State.not_continues_of_invalid hinvalid)
    rw [if_neg (by simp [hinvalid])] at hread
    exact (exec_swi_passed hc).trans (swiPutString_of_error hread)

/-- Settles O51: the loop finds no end in its 2^32 bytes (`readString_of_endless`). -/
theorem swiThreeWithoutAnEndIsStuck : Obligations.SwiThreeWithoutAnEndIsStuck := fun _ _ hc hendless =>
  (exec_swi_passed hc).trans (swiPutString_of_none (readString_of_endless hendless))

/-! SWI 4, print a number (R167). -/

/-- The value of a list of ASCII digits, the most significant first. -/
def digitsValue (ds : List Byte) : Nat := ds.foldl (fun n d => 10 * n + (d.toNat - 0x30)) 0

/-- `ds` is the shortest decimal numeral of `n`. -/
structure IsNumeral (n : Nat) (ds : List Byte) : Prop where
  digits : ∀ d ∈ ds, 0x30 ≤ d.toNat ∧ d.toNat ≤ 0x39
  value : digitsValue ds = n
  noLeadingZero : ds.head? = some 0x30#8 → ds = [0x30#8]
  nonempty : ds ≠ []

/-- The ASCII code of a digit. -/
theorem digitByte_toNat {d : Nat} (h : d < 10) : (digitByte d).toNat = 0x30 + d := by
  simp only [digitByte, BitVec.toNat_ofNat]
  omega

/-- One digit more at the right. -/
theorem digitsValue_append_digitByte (ds : List Byte) {d : Nat} (h : d < 10) :
    digitsValue (ds ++ [digitByte d]) = 10 * digitsValue ds + d := by
  simp [digitsValue, List.foldl_append, digitByte_toNat h]

/-- A number below 10 has one digit. -/
theorem isNumeral_digitByte {d : Nat} (h : d < 10) : IsNumeral d [digitByte d] where
  digits := by simp [digitByte_toNat h]; omega
  value := by simp [digitsValue, digitByte_toNat h]
  noLeadingZero := by simp
  nonempty := by simp

/-- One digit more at the right of the numeral of a number that is not zero: a leading 0 would have made that number
zero. -/
theorem IsNumeral.append_digitByte {m d : Nat} {ds : List Byte} (hm : IsNumeral m ds) (hpos : 0 < m) (hd : d < 10) :
    IsNumeral (10 * m + d) (ds ++ [digitByte d]) where
  digits b hb := by
    rcases List.mem_append.1 hb with hb | hb
    · exact hm.digits b hb
    · exact (isNumeral_digitByte hd).digits b hb
  value := by rw [digitsValue_append_digitByte ds hd, hm.value]
  noLeadingZero h := by
    rw [List.head?_append_of_ne_nil _ hm.nonempty] at h
    have hzero : m = 0 := hm.value.symm.trans (congrArg digitsValue (hm.noLeadingZero h))
    omega
  nonempty := by simp

/-- Fuel for as many digits as the number has gives its numeral. -/
theorem decimalDigits_isNumeral (fuel n : Nat) (h : n < 10 ^ (fuel + 1)) :
    IsNumeral n (decimalDigits (fuel + 1) n) := by
  induction fuel generalizing n with
  | zero =>
    have hn : n < 10 := by simpa using h
    simpa only [decimalDigits, if_pos hn] using isNumeral_digitByte hn
  | succ fuel ih =>
    rw [decimalDigits]
    split
    · next hn => exact isNumeral_digitByte hn
    · next hn =>
      have hquotient : n / 10 < 10 ^ (fuel + 1) := by omega
      have hnum := (ih _ hquotient).append_digitByte (d := n % 10) (by omega) (by omega)
      rwa [Nat.div_add_mod] at hnum

/-- A word's unsigned value, and the magnitude of its signed one, has at most 10 digits. -/
theorem unsignedNumeral_isNumeral {n : Nat} (h : n ≤ 2 ^ 32) : IsNumeral n (unsignedNumeral n) :=
  decimalDigits_isNumeral 9 n (by omega)

/-- The signed format is the sign and the magnitude. -/
theorem signedNumeral_eq (v : Word) :
    signedNumeral v = (if v.toInt < 0 then [0x2D#8] else []) ++ unsignedNumeral v.toInt.natAbs := by
  have hv := v.isLt
  have hint := v.toInt_eq_msb_cond
  unfold signedNumeral
  split
  · next hmsb =>
    rw [if_pos hmsb] at hint
    have habs : v.toInt.natAbs = 2 ^ 32 - v.toNat := by omega
    rw [if_pos (by omega), habs]
    rfl
  · next hmsb =>
    rw [if_neg hmsb] at hint
    have habs : v.toInt.natAbs = v.toNat := by omega
    rw [if_neg (by omega), habs]
    rfl

/-- Settles O52: after the sign (`signedNumeral_eq`) stands the shortest numeral of the magnitude
(`unsignedNumeral_isNumeral`). -/
theorem swiFourPrintsANumber : Obligations.SwiFourPrintsANumber := by
  refine ⟨fun c s hc => exec_swi_passed hc, fun v => ?_⟩
  have hlow := v.le_toInt
  have hhigh := v.toInt_lt
  obtain ⟨hdigits, hvalue, hleading, hnonempty⟩ := unsignedNumeral_isNumeral (n := v.toInt.natAbs) (by omega)
  exact ⟨_, signedNumeral_eq v, hdigits, hvalue, hleading, hnonempty⟩

end Sys2Proof.Machine

/-! ### The addresses of a load or store (R181 to R184) -/

namespace Sys2Proof.Machine

section

variable (s : State) (rn : Reg) (off : Offset)

theorem indexedAddress_up_toNat :
    (indexedAddress s true rn off).toNat = ((s.reg rn).toNat + (offsetValue s off).toNat) % 2 ^ 32 :=
  BitVec.toNat_add ..

/-- Below the base the address wraps as the integer difference does. -/
theorem indexedAddress_down_toNat :
    ((indexedAddress s false rn off).toNat : Int) =
      ((s.reg rn).toNat - (offsetValue s off).toNat : Int) % 2 ^ 32 := by
  have hoff := (offsetValue s off).isLt
  have hsub : (indexedAddress s false rn off).toNat =
      (2 ^ 32 - (offsetValue s off).toNat + (s.reg rn).toNat) % 2 ^ 32 := BitVec.toNat_sub ..
  omega

end

/-- The immediate offset is its field, with zeros above it (R181). -/
theorem offsetValue_imm_toNat (s : State) (imm12 : BitVec 12) :
    (offsetValue s (.imm imm12)).toNat = imm12.toNat :=
  BitVec.toNat_setWidth_of_le (by decide)

/-- Settles O33: the offset by its form, the sum and the difference, and the address by the mode. -/
theorem transferAddresses : Obligations.TransferAddresses := by
  intro s rn off
  refine ⟨?_, ?_, indexedAddress_up_toNat s rn off, indexedAddress_down_toNat s rn off, fun up => ⟨rfl, rfl, rfl⟩⟩
  · rintro imm12 rfl
    exact offsetValue_imm_toNat s imm12
  · rintro rm sh n rfl
    rfl

end Sys2Proof.Machine

/-! ### Loads and stores refused at decode (R186, R187, R188) -/

namespace Sys2Proof

open Machine

theorem Indexing.writesBase_iff {ix : Indexing} : ix.writesBase = true ↔ ix ≠ .offset := by
  cases ix with
  | offset | preWriteback | postIndexed => simp [Indexing.writesBase]

theorem Offset.isRegister_iff {off : Offset} {r : Reg} :
    off.isRegister r = true ↔ ∃ sh n, off = .reg r sh n := by
  cases off with
  | imm | reg => simp [Offset.isRegister]

/-- Naming R15 is being the register R15, shifted. -/
theorem Offset.namesPc_eq_isRegister (off : Offset) : off.namesPc = off.isRegister pcReg := by
  cases off with
  | imm | reg => rfl

theorem TransferOp.mayTargetPc_eq_false_iff {op : TransferOp} : op.mayTargetPc = false ↔ op ≠ .ldr := by
  cases op with
  | ldr | ldrb | str | strb => simp [TransferOp.mayTargetPc]

section

variable {op : TransferOp} {ix : Indexing} {rn rd : Reg} {off : Offset}

/-- The condition of R188, as the check computes it. -/
theorem transfer_pcCase_iff :
    ((ix.writesBase && rn == pcReg) || off.namesPc || (!op.mayTargetPc && rd == pcReg)) = true ↔
      (ix ≠ .offset ∧ rn = pcReg) ∨ (∃ sh n, off = .reg pcReg sh n) ∨ (op ≠ .ldr ∧ rd = pcReg) := by
  simp only [Bool.or_eq_true, Bool.and_eq_true, Bool.not_eq_true', beq_iff_eq, Indexing.writesBase_iff,
    Offset.namesPc_eq_isRegister, Offset.isRegister_iff, TransferOp.mayTargetPc_eq_false_iff, or_assoc]

/-- The condition of R187, as the check computes it. -/
theorem transfer_clash_iff :
    (ix.writesBase && (rd == rn || off.isRegister rn)) = true ↔
      ix ≠ .offset ∧ (rd = rn ∨ ∃ sh n, off = .reg rn sh n) := by
  simp only [Bool.or_eq_true, Bool.and_eq_true, beq_iff_eq, Indexing.writesBase_iff, Offset.isRegister_iff]

end

/-- Settles O11: `transferRefusal` tests R188 first and then R187 (R222), and nothing else. -/
theorem loadStoreRegisterRestrictions : Obligations.LoadStoreRegisterRestrictions := by
  intro op c ix up rn rd off pcCase clash hpc hclash
  rw [← transfer_pcCase_iff] at hpc
  rw [← transfer_clash_iff] at hclash
  simp only [WellFormed, Shape.staticRefusal_instr, Shape.staticRefusal, transferRefusal]
  refine ⟨fun h => if_pos (hpc.1 h), fun h h' => ?_, fun h h' => ?_⟩
  · rw [if_neg (mt hpc.2 h), if_pos (hclash.1 h')]
  · rw [if_neg (mt hpc.2 h), if_neg (mt hclash.2 h')]

section

variable {w : Word} {c : Cond}

/-- Bits 27:26 of the load and store formats are 01. -/
theorem group_of_transfer (h : w.extractLsb' 26 2 = 0b01#2) :
    w.extractLsb' 25 3 = 0b010#3 ∨ w.extractLsb' 25 3 = 0b011#3 := by
  have key : ∀ g : BitVec 3, g.extractLsb' 1 2 = 0b01#2 → g = 0b010#3 ∨ g = 0b011#3 := by decide
  have hsub : (w.extractLsb' 25 3).extractLsb' 1 2 = w.extractLsb' 26 2 := extract_extract w (by decide)
  exact key _ (hsub.trans h)

/-- A word with bits 27:26 = 01 holds an offset, or, with bits 25 and 4 set, is in no format (R52). -/
theorem exists_offset_or_no_format (h : w.extractLsb' 26 2 = 0b01#2) :
    (∃ off : Offset, off.IsIn w) ∨ formatOf w = none := by
  rcases group_of_transfer h with hg | hg
  · exact .inl ⟨_, offsetImm_isIn_iff.2 ⟨formatOf_eq_some_iff.2 hg, rfl⟩⟩
  · cases h4 : bitField w 4 with
    | false => exact .inl ⟨_, offsetReg_isIn_iff.2 ⟨formatOf_eq_some_iff.2 ⟨hg, h4⟩, rfl⟩⟩
    | true => exact .inr (by simp [formatOf, hg, h4])

/-- P = 0 with W = 1 is no addressing mode (R186). -/
theorem decodeTransfer_of_postIndexed_wBit {off : Offset} (hp : bitField w 24 = false) (hw : bitField w 21 = true) :
    decodeTransfer c off w = .error .notInHandout := by
  simp only [decodeTransfer, hp, hw, Indexing.ofBits]

end

/-- Settles O9: the word is in no format, or `decodeTransfer` finds no addressing mode. -/
theorem postIndexedWithWBitIsRefused : Obligations.PostIndexedWithWBitIsRefused := by
  intro w hcond h hp hw
  obtain ⟨c, hc⟩ := exists_cond hcond
  refine refusedAtDecode_of_error (r := .notInHandout) ?_
  rcases exists_offset_or_no_format h with ⟨off, ho⟩ | hf
  · rw [decode_of_offset hc ho, decodeTransfer_of_postIndexed_wBit hp hw]
  · exact decode_of_no_format hc hf

end Sys2Proof

/-! ### Loads and stores that complete (R184, R185, R190 to R193) -/

namespace Sys2Proof.Machine

section

variable {s : State} {ix : Indexing} {up : Bool} {rn rd : Reg} {off : Offset}

/-! The templates (R185). -/

/-- A load whose access completes: the write-back, then the write of Rd. -/
theorem transferLoad_of_ok {access : State → Word → Except Stop Word} {data : Word}
    (h : access s (accessAddress s ix up rn off) = .ok data) :
    transferLoad access ix up rn rd off s =
      (writeBack s ix rn (indexedAddress s up rn off)).writeRd rd data := by
  simp only [transferLoad, h]

/-- A store whose access completes: the write-back, then the move of the pc. -/
theorem transferStore_of_ok {access : State → Word → Word → Except Stop State} {u : State}
    (h : access s (accessAddress s ix up rn off) (s.reg rd) = .ok u) :
    transferStore access ix up rn rd off s =
      .next (writeBack u ix rn (indexedAddress s up rn off)).advance := by
  simp only [transferStore, h]

/-- Where the registers are those of a write-back, the base is the value written and the others of R0 to R14 are as
before it. -/
theorem registers_of_writeBack {t u : State} {v : Word} (hu : u.regs = s.regs)
    (ht : t.regs = (writeBack u ix rn v).regs) (hbase : ix.writesBase = true → rn ≠ pcReg) :
    (ix.writesBase = true → t.reg rn = v) ∧
      ∀ r : Reg, r ≠ pcReg → (ix.writesBase = true → r ≠ rn) → t.reg r = s.reg r := by
  constructor
  · intro hb
    rw [State.reg_eq_of_regs (hbase hb) ht, writeBack_reg_base _ _ _ _ hb (hbase hb)]
  · intro r hr hne
    rw [State.reg_eq_of_regs hr ht, writeBack_reg_ne _ _ _ _ _ hne, State.reg_eq_of_regs hr hu]

/-- A load into one of R0 to R14 whose access completes writes Rd, the base where the mode does, and the pc. -/
theorem transferLoad_completes {access : State → Word → Except Stop Word} {data : Word}
    (h : access s (accessAddress s ix up rn off) = .ok data) (hrd : rd ≠ pcReg)
    (hbase : ix.writesBase = true → rn ≠ pcReg ∧ rd ≠ rn) :
    ∃ t, transferLoad access ix up rn rd off s = .next t ∧ t.reg rd = data ∧
      (ix.writesBase = true → t.reg rn = indexedAddress s up rn off) ∧
      (∀ r : Reg, r ≠ pcReg → r ≠ rd → (ix.writesBase = true → r ≠ rn) → t.reg r = s.reg r) ∧
      t = { s with regs := t.regs, pc := s.pc + 4#32 } := by
  obtain ⟨hbaseReg, hothers⟩ := registers_of_writeBack (s := s) (u := s) (v := indexedAddress s up rn off) rfl rfl
    fun hb => (hbase hb).1
  refine ⟨_, (transferLoad_of_ok h).trans (if_neg hrd), ?_, fun hb => ?_, fun r hr hne hn => ?_, ?_⟩
  · rw [State.reg_advance _ _ hrd, State.reg_setReg_same _ _ _ hrd]
  · obtain ⟨hpc, hne⟩ := hbase hb
    rw [State.reg_advance _ _ hpc, State.reg_setReg_ne _ _ _ _ hne.symm, hbaseReg hb]
  · rw [State.reg_advance _ _ hr, State.reg_setReg_ne _ _ _ _ hne, hothers r hr hn]
  · rw [State.setReg_frame, writeBack_frame]
    rfl

/-- A load into R15 whose access completes is a jump after the write-back; where the jump is refused, nothing is written
(R14). -/
theorem transferLoad_pc_jumps {access : State → Word → Except Stop Word} {data : Word}
    (h : access s (accessAddress s ix up rn off) = .ok data) (hbase : ix.writesBase = true → rn ≠ pcReg) :
    (data.toNat % 4 = 0 →
      ∃ t, transferLoad access ix up rn pcReg off s = .next t ∧ t.pc = data ∧
        (ix.writesBase = true → t.reg rn = indexedAddress s up rn off) ∧
        (∀ r : Reg, r ≠ pcReg → (ix.writesBase = true → r ≠ rn) → t.reg r = s.reg r) ∧
        t = { s with regs := t.regs, pc := data }) ∧
    (data.toNat % 4 ≠ 0 → transferLoad access ix up rn pcReg off s = .refused (.pcMisaligned data)) := by
  have hjump : transferLoad access ix up rn pcReg off s =
      (writeBack s ix rn (indexedAddress s up rn off)).jump data := (transferLoad_of_ok h).trans (if_pos rfl)
  refine ⟨fun hd => ?_, fun hd => hjump.trans (if_neg hd)⟩
  obtain ⟨hbaseReg, hothers⟩ := registers_of_writeBack (s := s) (u := s) (v := indexedAddress s up rn off)
    (t := { writeBack s ix rn (indexedAddress s up rn off) with pc := data }) rfl rfl hbase
  refine ⟨_, hjump.trans (if_pos hd), rfl, hbaseReg, hothers, ?_⟩
  rw [writeBack_frame]

/-- A store whose access completes writes what its access does, the base where the mode does, and the pc. -/
theorem transferStore_completes {access : State → Word → Word → Except Stop State} (hframe : StoreFrame access)
    {u : State} (h : access s (accessAddress s ix up rn off) (s.reg rd) = .ok u)
    (hbase : ix.writesBase = true → rn ≠ pcReg) :
    ∃ t, transferStore access ix up rn rd off s = .next t ∧ t.mem = u.mem ∧ t.dirty = u.dirty ∧
      (ix.writesBase = true → t.reg rn = indexedAddress s up rn off) ∧
      (∀ r : Reg, r ≠ pcReg → (ix.writesBase = true → r ≠ rn) → t.reg r = s.reg r) ∧
      t = { s with regs := t.regs, mem := t.mem, dirty := t.dirty, pc := s.pc + 4#32 } := by
  have hu := hframe _ _ _ _ h
  obtain ⟨hbaseReg, hothers⟩ := registers_of_writeBack (s := s) (u := u) (v := indexedAddress s up rn off)
    (t := (writeBack u ix rn (indexedAddress s up rn off)).advance) (by rw [hu]) rfl hbase
  refine ⟨_, transferStore_of_ok h, writeBack_mem .., writeBack_dirty .., hbaseReg, hothers, ?_⟩
  rw [writeBack_frame, hu]
  rfl

end

/-! The accesses at valid addresses (R33). -/

section

variable {s : State} {a : Word}

/-- The access of LDR at a valid multiple of 4 is the word there. -/
theorem accessLdr_of_valid (ha : a.toNat % 4 = 0) (hv : s.firstInvalid 4 a = none) :
    accessLdr s a = .ok (s.readWord a) :=
  State.loadWord_ok.2 ⟨ha, hv, rfl⟩

/-- The access of LDRB at a valid address is the byte there, with zeros above it. -/
theorem accessLdrb_of_valid (hv : s.isValid a = true) : accessLdrb s a = .ok ((s.readByte a).setWidth 32) :=
  accessLdrb_ok.2 ⟨hv, rfl⟩

/-- The access of STR at a valid multiple of 4 puts the word there and marks it. -/
theorem accessStr_of_valid (ha : a.toNat % 4 = 0) (hv : s.firstInvalid 4 a = none) (v : Word) :
    accessStr s a v = .ok ((s.putWord a v).markDirty a) :=
  State.storeWord_ok.2 ⟨ha, hv, rfl⟩

/-- The access of STRB at a valid address puts the low byte there and marks its word. -/
theorem accessStrb_of_valid (hv : s.isValid a = true) (v : Word) :
    accessStrb s a v = .ok ((s.putByte a (byteOfWord v 0)).markDirty a) :=
  State.storeByte_ok.2 ⟨hv, rfl⟩

end

/-- Settles O34: the template of a load, with the access of LDR. -/
theorem ldrCompletes : Obligations.LdrCompletes := by
  intro c ix up rn rd off s a hrd hw hc ha hal h0 h1 h2 h3
  subst ha
  have hv := (s.firstInvalid_four _).2 ⟨h0, h1, h2, h3⟩
  rw [exec_instr_passed hw hc]
  exact transferLoad_completes (accessLdr_of_valid hal hv) hrd (transfer_registers hw).1

/-- Settles O35: the template of a load, with the access of LDR, ends in a jump. -/
theorem ldrToThePcJumps : Obligations.LdrToThePcJumps := by
  intro c ix up rn off s a data hw hc ha hal h0 h1 h2 h3 hdata
  subst ha hdata
  have hv := (s.firstInvalid_four _).2 ⟨h0, h1, h2, h3⟩
  obtain ⟨hbase, -⟩ := transfer_registers hw
  rw [exec_instr_passed hw hc]
  exact transferLoad_pc_jumps (accessLdr_of_valid hal hv) fun hb => (hbase hb).1

/-- Settles O36: the template of a load, with the access of LDRB; zeros above a byte leave its value. -/
theorem ldrbCompletes : Obligations.LdrbCompletes := by
  intro c ix up rn rd off s a hw hc ha hv
  subst ha
  obtain ⟨hbase, hrd⟩ := transfer_registers hw
  obtain ⟨t, ht, hdata, hrest⟩ := transferLoad_completes (accessLdrb_of_valid hv) (hrd (by decide)) hbase
  refine ⟨t, (exec_instr_passed hw hc).trans ht, ?_, hrest⟩
  rw [hdata]
  exact BitVec.toNat_setWidth_of_le (by decide)

/-- Settles O37: the template of a store, with the access of STR; the bytes are those of `State.putWord`. -/
theorem strCompletes : Obligations.StrCompletes := by
  intro c ix up rn rd off s a hw hc ha hal h0 h1 h2 h3
  subst ha
  have hv := (s.firstInvalid_four _).2 ⟨h0, h1, h2, h3⟩
  obtain ⟨hbase, -⟩ := transfer_registers hw
  obtain ⟨t, ht, hmem, hdirty, hrest⟩ :=
    transferStore_completes accessStr_frame (accessStr_of_valid hal hv _) fun hb => (hbase hb).1
  have hbytes := State.readByte_congr (s.putWord (accessAddress s ix up rn off) (s.reg rd)) hmem
  obtain ⟨b0, b1, b2, b3⟩ := s.readByte_putWord_bytes (accessAddress s ix up rn off) (s.reg rd)
  refine ⟨t, (exec_instr_passed hw hc).trans ht, (hbytes _).trans b0, (hbytes _).trans b1, (hbytes _).trans b2,
    (hbytes _).trans b3, fun q h0 h1 h2 h3 => ?_, fun x => ?_, hrest⟩
  · rw [hbytes, s.readByte_putWord_ne _ _ q h0 h1 h2 h3]
  · rw [hdirty, ← wordAddress_of_aligned hal]
    exact mem_insertAddress _ _ x

/-- Settles O38: the template of a store, with the access of STRB; the byte is that of `State.putByte`. -/
theorem strbCompletes : Obligations.StrbCompletes := by
  intro c ix up rn rd off s a hw hc ha hv
  subst ha
  obtain ⟨hbase, -⟩ := transfer_registers hw
  obtain ⟨t, ht, hmem, hdirty, hrest⟩ :=
    transferStore_completes accessStrb_frame (accessStrb_of_valid hv _) fun hb => (hbase hb).1
  have hbytes := State.readByte_congr (s.putByte (accessAddress s ix up rn off) (byteOfWord (s.reg rd) 0)) hmem
  refine ⟨t, (exec_instr_passed hw hc).trans ht, (hbytes _).trans (s.readByte_putByte_same _ _), fun q hq => ?_,
    fun x => ?_, hrest⟩
  · rw [hbytes, s.readByte_putByte_ne _ _ _ hq]
  · rw [hdirty]
    exact mem_insertAddress _ _ x

end Sys2Proof.Machine

/-! ### The registers of a multiply (R212) -/

namespace Sys2Proof

section

variable {w : Word} {c : Cond} {rd rn rs rm : Reg}

/-- The condition of R212 for MUL, as the check computes it. -/
theorem mul_restricted_iff :
    (rd == pcReg || rs == pcReg || rm == pcReg || rd == rm) = true ↔
      rd = pcReg ∨ rm = pcReg ∨ rs = pcReg ∨ rd = rm := by
  simp only [Bool.or_eq_true, beq_iff_eq]
  tauto

/-- The condition of R212 for MLA, as the check computes it: Rn is one of the used fields. -/
theorem mla_restricted_iff :
    (rd == pcReg || rn == pcReg || rs == pcReg || rm == pcReg || rd == rm) = true ↔
      rd = pcReg ∨ rm = pcReg ∨ rs = pcReg ∨ rn = pcReg ∨ rd = rm := by
  simp only [Bool.or_eq_true, beq_iff_eq]
  tauto

/-- Bits 27:22 and 7:4 of R56 are the fixed bits of the multiply format. -/
theorem multiply_fixedBits (hgroup : w.extractLsb' 22 6 = 0b000000#6) (hnine : w.extractLsb' 4 4 = 0b1001#4) :
    Format.multiply.FixedBits w := by
  have h25 : (w.extractLsb' 22 6).extractLsb' 3 3 = w.extractLsb' 25 3 := extract_extract w (by decide)
  have h22 : (w.extractLsb' 22 6).extractLsb' 0 3 = w.extractLsb' 22 3 := extract_extract w (by decide)
  rw [hgroup] at h25 h22
  exact ⟨h25.symm, hnine, h22.symm⟩

section

variable {restricted : Prop}

/-- A word with A = 1 is an MLA of its fields, or is refused for its registers. -/
theorem decodeMultiply_of_accumulate (ha : bitField w 21 = true)
    (hr : restricted ↔ regField w 16 = pcReg ∨ regField w 0 = pcReg ∨ regField w 8 = pcReg ∨ regField w 12 = pcReg ∨
      regField w 16 = regField w 0) :
    (restricted → decodeMultiply c w = .error (.static .multiplyRegister)) ∧
    (¬ restricted → decodeMultiply c w =
      .ok (.mla c (bitField w 20) (regField w 16) (regField w 12) (regField w 8) (regField w 0))) := by
  rw [hr, ← mla_restricted_iff, decodeMultiply, if_pos ha]
  exact ⟨fun h => checked_shape_of_refused (if_pos h), fun h => checked_ok (if_neg h)⟩

/-- A word with A = 0 is a MUL of its fields, or is refused for its registers. -/
theorem decodeMultiply_of_not_accumulate (ha : bitField w 21 = false)
    (hr : restricted ↔ regField w 16 = pcReg ∨ regField w 0 = pcReg ∨ regField w 8 = pcReg ∨
      regField w 16 = regField w 0) :
    (restricted → decodeMultiply c w = .error (.static .multiplyRegister)) ∧
    (¬ restricted → decodeMultiply c w =
      .ok (.mul c (bitField w 20) (regField w 16) (regField w 8) (regField w 0))) := by
  rw [hr, ← mul_restricted_iff, decodeMultiply, if_neg (by simp [ha])]
  exact ⟨fun h => checked_shape_of_refused (if_pos h), fun h => checked_ok (if_neg h)⟩

end

end

/-- Settles O12: the word is in the multiply format, and bit 21 says whether bits 15:12 are a used field. -/
theorem multiplyRegisterRestriction : Obligations.MultiplyRegisterRestriction := by
  intro w c restricted hc hgroup hnine hrestricted
  have hdecode : decode w = decodeMultiply c w :=
    decode_of_fixedBits (f := .multiply) (Cond.ofBits_eq_some.1 hc) (multiply_fixedBits hgroup hnine)
  have hbit : ∀ k, w.getLsbD k = bitField w k := fun _ => rfl
  simp only [hbit] at hrestricted ⊢
  cases ha : bitField w 21 with
  | true =>
    simp only [ha, true_and] at hrestricted
    obtain ⟨hrefused, hmla⟩ := decodeMultiply_of_accumulate (c := c) ha hrestricted
    exact ⟨fun h => refusedAtDecode_of_error (hdecode.trans (hrefused h)), fun h _ => hdecode.trans (hmla h), nofun⟩
  | false =>
    simp only [ha, Bool.false_eq_true, false_and, false_or] at hrestricted
    obtain ⟨hrefused, hmul⟩ := decodeMultiply_of_not_accumulate (c := c) ha hrestricted
    exact ⟨fun h => refusedAtDecode_of_error (hdecode.trans (hrefused h)), nofun, fun h _ => hdecode.trans (hmul h)⟩

end Sys2Proof

/-! ### Multiplies that complete (R211, R213 to R215) -/

namespace Sys2Proof.Machine

/-- The end of a multiply into one of R0 to R14; the flag C is the next draw (R213). -/
theorem multiplyFinish_of_lt {s : State} (sb : Bool) {rd : Reg} (h : rd.val < 15) (r : Word) :
    multiplyFinish sb rd r s = .next { s with
      regs := s.regs.set rd.val r h
      flags := if sb then { n := r.msb, z := decide (r = 0#32), c := Config.mulCarry s.draws, v := s.flags.v }
        else s.flags
      draws := if sb then s.draws + 1 else s.draws
      pc := s.pc + 4#32 } := by
  rw [multiplyFinish, State.setReg_frame, State.setReg_regs _ _ _ h]
  cases sb <;> rfl

/-- Settles O32: `multiplyFinish_of_lt`, where the product and the sum of words are those of their values modulo
2^32. -/
theorem multipliesComplete : Obligations.MultipliesComplete := by
  intro c sb rd rn rs rm s h hc
  constructor
  · intro hw r hr
    obtain rfl : r = s.reg rm * s.reg rs := BitVec.eq_of_toNat_eq (hr.trans (BitVec.toNat_mul ..).symm)
    exact (exec_instr_passed (x := .mul c sb rd rs rm) hw hc).trans (multiplyFinish_of_lt sb h _)
  · intro hw r hr
    obtain rfl : r = s.reg rm * s.reg rs + s.reg rn := by
      apply BitVec.eq_of_toNat_eq
      rw [hr, BitVec.toNat_add, BitVec.toNat_mul, Nat.mod_add_mod]
    exact (exec_instr_passed (x := .mla c sb rd rn rs rm) hw hc).trans (multiplyFinish_of_lt sb h _)

end Sys2Proof.Machine
